-- ==== Sys2Proof/Word.lean ====
section
/-! DEFINITION. The plain words of the engine: bytes, bus words, bus addresses and binary64 encodings.

`F64` wraps its 64 bits in a structure, so that no integer operation of `BitVec` can be applied to a
binary64 value by mistake; its IEEE 754 operations are in `Sys2Proof/Machine/Float64.lean`. -/

namespace Sys2Proof

/-- A byte of a store (10_state.md R46 to R48). -/
abbrev Byte := BitVec 8

/-- A 32-bit word of the host port (20_memory.md R70). -/
abbrev Word := BitVec 32

/-- A 20-bit byte address of the host port (20_memory.md R70). -/
abbrev Addr := BitVec 20

/-- An IEEE 754 binary64 value by its encoding (00_scope.md R7, 20_memory.md R74). -/
structure F64 where
  bits : BitVec 64
  deriving DecidableEq, Repr, Inhabited

/-- The four binary64 operations of 00_scope.md R11 that can produce a NaN. -/
inductive ArithOp where
  | add
  | sub
  | mul
  | div
  deriving DecidableEq, Repr

end Sys2Proof
end

