-- ==== Sys2Proof/Config.lean ====
section
/-! DEFINITION. What an implementation fixes (the build parameters of 00_scope.md R6), and the free
values: opaque constants without a body, of which nothing can be proved but what every value satisfies. -/

namespace Sys2Proof

/-- P_FLOOR of 00_scope.md R6: 1, or the alternative 3. -/
inductive FloorChoice where
  | one
  | three
  deriving DecidableEq, Repr

/-- P_PIXCONV of 00_scope.md R6. -/
inductive PixConv where
  | trunc
  | round
  deriving DecidableEq, Repr

/-- P_GAIN of 00_scope.md R6: (1, 1, 1, 1), or the alternative (2, 2.5, 2.5, 2). -/
inductive GainChoice where
  | unit
  | reference
  deriving DecidableEq, Repr

/-- The build parameters that CFG reports (00_scope.md R6, 10_state.md R32). -/
structure Params where
  floor : FloorChoice
  pixConv : PixConv
  gain : GainChoice
  deriving DecidableEq, Repr

/-- The values of the table of 00_scope.md R6. -/
def Params.default : Params := ⟨.one, .trunc, .unit⟩

/-- Free value: P_COS, the OPEN parameter of 00_scope.md R6 (93_implementation_defined.md U4). The one
property the spec asks of it, COS(+0.0) = 1.0, is made in `F64.cos`. -/
opaque Config.openCosine : F64 → F64

/-- Free value: sign and payload of the NaN an operation produces from two operands (60_exceptions.md
R266, 93_implementation_defined.md U3). `F64.nanOf` keeps it among the NaNs. -/
opaque Config.nanChoice : ArithOp → F64 → F64 → F64

/-- Free value: what the byte at a bus address holds after draw number `draw` made it unspecified, at
power-on reset (10_state.md R56) or at a soft reset that abandons a command (70_reset_and_hazards.md
R283). -/
opaque Config.unspecifiedByte (draw : Nat) (addr : Nat) : Byte

/-- Free value: what read number `draw`, made while BUSY = 1, returns (20_memory.md R84). -/
opaque Config.busyReadWord (draw : Nat) (addr : Nat) : Word

/-- Free value: NAC of a record with exactly one extent 0, of which the spec states no value
(42_dct.md R162 counts for extents from 1 to 7; 10_state.md R55 gives 0 when both are 0). -/
opaque Config.unstatedNac (nx ny : BitVec 3) : BitVec 5

end Sys2Proof
end

