-- ==== Sys2Proof/Machine/Float64.lean ====
section
/-! DEFINITION. IEEE 754 binary64 arithmetic (00_scope.md R7, R11, R12, R14; 60_exceptions.md R266). Each
operation takes the exact result as an integer times a power of two and rounds it once, to nearest with
ties to even. Subnormals are kept; overflow gives an infinity. -/

namespace Sys2Proof.F64

/-- The sign bit. -/
def neg? (x : F64) : Bool := x.bits.msb

/-- The biased exponent field. -/
def expField (x : F64) : Nat := (x.bits.extractLsb' 52 11).toNat

/-- The fraction field. -/
def fracField (x : F64) : Nat := (x.bits.extractLsb' 0 52).toNat

/-- A NaN of any sign and payload. -/
def isNaN (x : F64) : Bool := x.expField == 2047 && x.fracField != 0

/-- An infinity of either sign. -/
def isInf (x : F64) : Bool := x.expField == 2047 && x.fracField == 0

/-- Neither an infinity nor a NaN. -/
def isFinite (x : F64) : Bool := x.expField != 2047

/-- The integer significand: the magnitude of a finite value is `mant · 2^expo`. -/
def mant (x : F64) : Nat := if x.expField = 0 then x.fracField else 2 ^ 52 + x.fracField

/-- The exponent of the last place of a finite value. -/
def expo (x : F64) : Int := (max x.expField 1 : Nat) - 1075

/-- The encoding with this sign and these low 63 bits. -/
def ofSignMag (negative : Bool) (mag : Nat) : F64 :=
  ⟨BitVec.ofNat 64 ((if negative then 2 ^ 63 else 0) + mag)⟩

/-- The low 63 bits, which order the magnitudes. -/
def mag (x : F64) : Nat := (x.bits.extractLsb' 0 63).toNat

/-- +0.0. -/
def zero : F64 := ofSignMag false 0

/-- The integer nearest to `m · 2^-k`, ties to even; exact when `k ≤ 0`. -/
def shiftRoundEven (m : Nat) (k : Int) : Nat :=
  if k ≤ 0 then m * 2 ^ (-k).toNat
  else
    let u := 2 ^ k.toNat
    let d := m / u
    let r := m % u
    if 2 * r > u ∨ (2 * r = u ∧ d % 2 = 1) then d + 1 else d

/-- The binary64 nearest to `± m · 2^e`, ties to even, an infinity above the range (00_scope.md R7). The
last place of the result is `2^q`; the sum that builds the encoding carries into the exponent field where
the rounding does. -/
def round (negative : Bool) (m : Nat) (e : Int) : F64 :=
  if m = 0 then ofSignMag negative 0
  else
    let q : Int := max (e + (Nat.log2 m : Int) - 52) (-1074)
    let mag := (q + 1074).toNat * 2 ^ 52 + shiftRoundEven m (q - e)
    ofSignMag negative (min mag (2047 * 2 ^ 52))

/-- The NaN an operation returns: some NaN, of which sign and payload are free (60_exceptions.md R266). -/
def nanOf (op : ArithOp) (x y : F64) : F64 :=
  let b := (Config.nanChoice op x y).bits ||| 0x7FF0000000000000#64
  if (b.extractLsb' 0 52).toNat = 0 then ⟨b ||| 1#64⟩ else ⟨b⟩

/-- `-v`: the sign bit changed. -/
def negate (x : F64) : F64 := ⟨x.bits ^^^ 0x8000000000000000#64⟩

/-- `|v|` (00_scope.md R11). -/
def abs (x : F64) : F64 := ⟨x.bits &&& 0x7FFFFFFFFFFFFFFF#64⟩

/-- The signed significand at the exponent `e`, which is at most `expo`. -/
def scaledTo (x : F64) (e : Int) : Int :=
  let m : Int := x.mant * 2 ^ (x.expo - e).toNat
  if x.neg? then -m else m

/-- The sum of two finite values; an exact zero is +0.0 unless both operands are negative. -/
def addFinite (x y : F64) : F64 :=
  let e := min x.expo y.expo
  let v := x.scaledTo e + y.scaledTo e
  if v = 0 then ofSignMag (x.neg? && y.neg?) 0 else round (decide (v < 0)) v.natAbs e

/-- `x + y`, with the NaN of a sum or a difference chosen by `nan`. -/
def addWith (nan : F64) (x y : F64) : F64 :=
  if x.isNaN || y.isNaN then nan
  else if x.isInf then (if y.isInf && x.neg? != y.neg? then nan else x)
  else if y.isInf then y
  else addFinite x y

/-- `x + y` (00_scope.md R11). -/
def add (x y : F64) : F64 := addWith (nanOf .add x y) x y

/-- `x - y` (00_scope.md R11). -/
def sub (x y : F64) : F64 := addWith (nanOf .sub x y) x y.negate

/-- `x × y` (00_scope.md R11). -/
def mul (x y : F64) : F64 :=
  let s := x.neg? != y.neg?
  if x.isNaN || y.isNaN then nanOf .mul x y
  else if x.isInf || y.isInf then
    if x.mag = 0 ∨ y.mag = 0 then nanOf .mul x y else ofSignMag s (2047 * 2 ^ 52)
  else round s (x.mant * y.mant) (x.expo + y.expo)

/-- The quotient of two finite values, `y` not zero: 110 more bits than the quotient of the significands
has, and one sticky bit for the remainder, so that rounding it rounds the exact quotient. -/
def divFinite (s : Bool) (x y : F64) : F64 :=
  let n := x.mant * 2 ^ 110
  let sticky := if n % y.mant = 0 then 0 else 1
  round s (2 * (n / y.mant) + sticky) (x.expo - y.expo - 111)

/-- `x ÷ y` (00_scope.md R11). -/
def div (x y : F64) : F64 :=
  let s := x.neg? != y.neg?
  if x.isNaN || y.isNaN then nanOf .div x y
  else if x.isInf then (if y.isInf then nanOf .div x y else ofSignMag s (2047 * 2 ^ 52))
  else if y.isInf then ofSignMag s 0
  else if y.mag = 0 then (if x.mag = 0 then nanOf .div x y else ofSignMag s (2047 * 2 ^ 52))
  else divFinite s x y

/-- The place of a value that is no NaN in the order of the reals; both zeros are 0. -/
def key (x : F64) : Int := if x.neg? then -(x.mag : Int) else x.mag

/-- `a < b`, false when either is a NaN (00_scope.md R11). -/
def lt (x y : F64) : Bool := !x.isNaN && !y.isNaN && decide (x.key < y.key)

/-- `f64(n)` (00_scope.md R11). -/
def ofNat (n : Nat) : F64 := round false n 0

/-- `floor` of the magnitude of a finite value. -/
def floorMag (x : F64) : Nat :=
  if 0 ≤ x.expo then x.mant * 2 ^ x.expo.toNat else x.mant / 2 ^ (-x.expo).toNat

/-- The magnitude of a finite value rounded to an integer, halves away from zero (00_scope.md R12). -/
def roundMag (x : F64) : Nat :=
  if 0 ≤ x.expo then x.mant * 2 ^ x.expo.toNat
  else (2 * x.mant + 2 ^ (-x.expo).toNat) / 2 ^ ((-x.expo).toNat + 1)

/-- `round(v)` of a finite value (00_scope.md R12). -/
def roundInt (x : F64) : Int := if x.neg? then -(x.roundMag : Int) else x.roundMag

/-- The constants of the pseudocode (00_scope.md R11). -/
def half : F64 := ⟨0x3FE0000000000000#64⟩
def one : F64 := ⟨0x3FF0000000000000#64⟩
def two : F64 := ⟨0x4000000000000000#64⟩
def twoAndHalf : F64 := ⟨0x4004000000000000#64⟩
def three : F64 := ⟨0x4008000000000000#64⟩
def sevenAndHalf : F64 := ⟨0x401E000000000000#64⟩
def fifteen : F64 := ⟨0x402E000000000000#64⟩
def thirtyOne : F64 := ⟨0x403F000000000000#64⟩
def thirtyOneAndHalf : F64 := ⟨0x403F800000000000#64⟩
def sixtyThree : F64 := ⟨0x404F800000000000#64⟩
def twoFiftyFive : F64 := ⟨0x406FE00000000000#64⟩

/-- TWO_THIRDS, `f64(2) ÷ f64(3)` (00_scope.md R11). -/
def twoThirds : F64 := (ofNat 2).div (ofNat 3)

/-- PI64 (00_scope.md R11). -/
def pi : F64 := ⟨0x400921FB54442D18#64⟩

/-- COS: P_COS, of which only COS(+0.0) = 1.0 is known (42_dct.md R160). -/
def cos (x : F64) : F64 := if x = zero then one else Config.openCosine x

/-- `fmin01(v)` (00_scope.md R11): clamped to [0, 1], a NaN to 0. -/
def fmin01 (x : F64) : F64 :=
  if x.isNaN || x.lt zero then zero else if one.lt x then one else x

/-- `Qk(v)` (00_scope.md R14): rounded and clamped to `[0, 2^k - 1]`, infinities to the ends, a NaN to 0. -/
def quantize (k : Nat) (x : F64) : Nat :=
  if x.isNaN then 0
  else if x.isInf then (if x.neg? then 0 else 2 ^ k - 1)
  else min (2 ^ k - 1) (max 0 x.roundInt).toNat

end Sys2Proof.F64
end

