-- ==== Sys2Proof/Syntax.lean ====
section
/-! DEFINITION. The commands of the engine (30_encoding.md R101, R105): one constructor for each row of
`spec/opcode_table.json`, with the operands its mnemonic is written with. -/

namespace Sys2Proof

/-- The channels L, P, Q, A of 00_scope.md R13. -/
inductive Channel where
  | L
  | P
  | Q
  | A
  deriving DecidableEq, Repr

/-- A command, as 30_encoding.md R105 writes it: `ch` a channel, `nx` and `ny` decimal numbers. -/
inductive Instr where
  /-- NOP (45_orchestrator.md R220). -/
  | nop
  /-- ENCODE (45_orchestrator.md R223). -/
  | encode
  /-- DECODE (45_orchestrator.md R224). -/
  | decode
  /-- CSC_FWD (41_color.md R146). -/
  | cscFwd
  /-- DCT_FWD ch, nx, ny (42_dct.md R166). -/
  | dctFwd (ch : Channel) (nx ny : Nat)
  /-- QUANT (43_quant.md R184). -/
  | quant
  /-- PACK (44_pack.md R203). -/
  | pack
  /-- UNPACK (44_pack.md R205). -/
  | unpack
  /-- DEQUANT (43_quant.md R185). -/
  | dequant
  /-- SIZE (45_orchestrator.md R222). -/
  | size
  /-- DCT_INV ch (42_dct.md R168). -/
  | dctInv (ch : Channel)
  /-- CSC_INV (41_color.md R152). -/
  | cscInv
  deriving DecidableEq, Repr

end Sys2Proof
end

