-- ==== Sys2Proof/Machine/State.lean ====
section
/-! DEFINITION. The state of the engine as plain data (10_state.md R30 to R56), the reasons a step could
stop, and the state after power-on reset. -/

namespace Sys2Proof.Machine

/-- A size in pixels: IMG_DIM (10_state.md R36) and OUT_DIM (R40), width in bits [15:0], height in
bits [31:16]. -/
structure Dim where
  w : BitVec 16
  h : BitVec 16
  deriving DecidableEq, Repr

/-- LEXT (10_state.md R41). -/
structure Lext where
  lx : BitVec 3
  ly : BitVec 3
  hasAlpha : Bool
  landscape : Bool
  deriving DecidableEq, Repr

/-- STATUS without BUSY (10_state.md R35); BUSY is `State.busy`, which says that a command is pending. -/
structure Status where
  done : Bool
  err : Bool
  errCode : BitVec 4
  deriving DecidableEq, Repr

/-- NX and NY of a coefficient record (10_state.md R50). -/
structure Ext where
  nx : BitVec 3
  ny : BitVec 3
  deriving DecidableEq, Repr

/-- One value for each channel. -/
structure PerChannel (α : Type) where
  l : α
  p : α
  q : α
  a : α
  deriving DecidableEq, Repr

/-- A transaction of the host port (20_memory.md R70). -/
inductive Request where
  | read (addr : Addr)
  | write (addr : Addr) (data : Word)
  deriving DecidableEq, Repr

/-- `resp` of a response (20_memory.md R70). -/
inductive Resp where
  | okay
  | error
  deriving DecidableEq, Repr

/-- The answer to a transaction (20_memory.md R70); a WRITE's answer holds no data, since the spec gives its
`rdata` no value. -/
structure Response where
  rdata : Option Word
  resp : Resp
  deriving DecidableEq, Repr

/-- What can happen next (20_memory.md R85): a host transaction, the engine's command step, or a pulse of
the power-on reset input (70_reset_and_hazards.md R280). -/
inductive Action where
  | host (r : Request)
  | engine
  | powerOn
  deriving DecidableEq, Repr

/-- The bus addresses from `lo` up to, not including, `hi`. -/
structure Span where
  lo : Nat
  hi : Nat
  deriving DecidableEq, Repr

/-- What a soft reset of a pending command made unspecified, and the number of the free draw it took
(70_reset_and_hazards.md R283). -/
structure Abandoned where
  draw : Nat
  spans : List Span
  deriving DecidableEq, Repr

/-- The stores PIXBUF, HASHBUF, NIB, PLANE and the DC, SCALE and AC of COEF (10_state.md R46 to R50) as
bytes at the bus addresses of 20_memory.md R71, addresses strictly rising (`Memory.wf`). An address that
is not listed has not been written since it last became unspecified, at power-on reset or at a soft reset that
abandoned a command. -/
abbrev Memory := List Host.Cell

/-- The state of the engine. -/
structure State where
  /-- The build parameters of 00_scope.md R6, which no step changes. -/
  params : Params
  /-- CTRL.IRQ_EN (10_state.md R34). -/
  irqEn : Bool
  /-- CMD (10_state.md R33). -/
  cmd : Word
  /-- The pending command (10_state.md R51); STATUS.BUSY says that there is one. -/
  pending : Option Word
  /-- STATUS.DONE, ERR and ERR_CODE (10_state.md R35). -/
  status : Status
  /-- IMG_DIM (10_state.md R36). -/
  imgDim : Dim
  /-- IN_LEN (10_state.md R37). -/
  inLen : Word
  /-- HASH_LEN (10_state.md R38). -/
  hashLen : BitVec 6
  /-- OUT_BASE (10_state.md R39). -/
  outBase : BitVec 8
  /-- OUT_DIM (10_state.md R40). -/
  outDim : Dim
  /-- LEXT (10_state.md R41). -/
  lext : Lext
  /-- HDR24 (10_state.md R42). -/
  hdr24 : BitVec 24
  /-- HDR16 (10_state.md R43). -/
  hdr16 : BitVec 16
  /-- HDR8 (10_state.md R44). -/
  hdr8 : BitVec 8
  /-- NIB_COUNT (10_state.md R45). -/
  nibCount : BitVec 6
  /-- COEF[c].NX and NY (10_state.md R50). -/
  ext : PerChannel Ext
  /-- The stores (10_state.md R46 to R50). -/
  mem : Memory
  /-- The model's own: the draw by which power-on reset made the stores unspecified (10_state.md R56). -/
  epoch : Nat
  /-- The model's own: what soft resets have made unspecified since power-on reset, the newest first
  (70_reset_and_hazards.md R283). -/
  abandoned : List Abandoned
  /-- The model's own: how many free draws have been made. -/
  draws : Nat
  /-- The model's own: what the world outside does next, the first entry first. -/
  agenda : List Action
  /-- The answer to the last host transaction, an output of the port (20_memory.md R70). -/
  resp : Option Response
  deriving DecidableEq, Repr

/-- A fault of the machine. There is none: every command terminates and every transaction is answered
(93_implementation_defined.md Part 1: "No behaviour leads to `stuck`"). -/
inductive Fault where
  deriving DecidableEq, Repr

/-- A refusal of the model. -/
inductive Refusal where
  /-- Raised by an arm of `exec` for a command without a meaning yet; safe. No arm raises it. -/
  | notModelled (mnemonic : String)
  deriving DecidableEq, Repr

/-- Power-on reset (10_state.md R55), with the default parameters of 00_scope.md R6. -/
def State.reset : State where
  params := Params.default
  irqEn := false
  cmd := 0
  pending := none
  status := ⟨false, false, 0⟩
  imgDim := ⟨0, 0⟩
  inLen := 0
  hashLen := 0
  outBase := 32
  outDim := ⟨0, 0⟩
  lext := ⟨0, 0, false, false⟩
  hdr24 := 0
  hdr16 := 0
  hdr8 := 0
  nibCount := 0
  ext := ⟨⟨0, 0⟩, ⟨0, 0⟩, ⟨0, 0⟩, ⟨0, 0⟩⟩
  mem := []
  epoch := 0
  abandoned := []
  draws := 1
  agenda := []
  resp := none

end Sys2Proof.Machine
end

