-- ==== Sys2Proof/Machine/Ops.lean ====
section
/-! DEFINITION. The named operations over memory and registers, and the completion of a command with or
without an error (60_exceptions.md R258), which is what taking an exception is on this engine; its
acknowledgement (R259) stands beside it. -/

namespace Sys2Proof.Machine

/-! ## The address map (20_memory.md R71) -/

/-- The base addresses of 20_memory.md R71. -/
def hashBase : Nat := 0x100
def nibBase : Nat := 0x200
def coefBase : Nat := 0x400
def pixBase : Nat := 0x10000
def planeBase : Nat := 0x20000

/-- A byte of the NIB window (20_memory.md R79). -/
def inNib (a : Nat) : Bool := decide (nibBase ≤ a ∧ a < nibBase + 64)

/-- A byte of the DC, SCALE or AC of a coefficient record (20_memory.md R80). -/
def inCoefData (a : Nat) : Bool :=
  decide (coefBase ≤ a ∧ a < coefBase + 0x400) &&
    (decide ((a - coefBase) % 0x100 < 0x10) ||
     decide (0x20 ≤ (a - coefBase) % 0x100 ∧ (a - coefBase) % 0x100 < 0xF8))

/-- A byte of one of the stores held in `State.mem` (20_memory.md R78 to R82). -/
def inStore (a : Nat) : Bool :=
  decide (hashBase ≤ a ∧ a < hashBase + 32) || inNib a || inCoefData a ||
    decide (pixBase ≤ a ∧ a < pixBase + 0x10000) || decide (planeBase ≤ a ∧ a < planeBase + 0x80000)

/-! ## Memory -/

/-- The listed byte at an address. -/
def Memory.find (m : Memory) (a : Nat) : Option Byte :=
  match m with
  | [] => none
  | (k, v) :: rest => if a = k then some v else Memory.find rest a

/-- The memory with the byte `b` listed at `a`, in its place in the order. -/
def Memory.insert (m : Memory) (a : Nat) (b : Byte) : Memory :=
  match m with
  | [] => [(a, b)]
  | (k, v) :: rest =>
    if a = k then (a, b) :: rest
    else if a < k then (a, b) :: (k, v) :: rest
    else (k, v) :: Memory.insert rest a b

/-- Every listed address of `m` is above `a`. -/
def Memory.above (a : Nat) (m : Memory) : Bool :=
  match m with
  | [] => true
  | (k, _) :: rest => decide (a < k) && Memory.above a rest

/-- The canonical form: addresses strictly rising. No entry can equal what an unlisted address reads as,
since that is no fixed byte (10_state.md R56). -/
def Memory.wf (m : Memory) : Bool :=
  match m with
  | [] => true
  | (k, _) :: rest => Memory.above k rest && Memory.wf rest

/-- The bits of a byte that exist at an address: the low four in the NIB window, "Bits [7:4] ... read 0 and
ignore writes" (20_memory.md R79). -/
def maskAt (a : Nat) (b : Byte) : Byte := if inNib a then b &&& 0x0F#8 else b

/-- Write one byte. -/
def Memory.put (m : Memory) (a : Nat) (b : Byte) : Memory := m.insert a (maskAt a b)

/-- Byte `i` of a binary64, byte 0 the least significant (20_memory.md R73, R74). -/
def byteOf64 (x : F64) (i : Nat) : Byte := x.bits.extractLsb' (8 * i) 8

/-- Write a binary64: eight bytes, the least significant at the lowest address. -/
def Memory.putF64 (m : Memory) (a : Nat) (x : F64) : Memory :=
  (List.range 8).foldl (fun m i => m.put (a + i) (byteOf64 x i)) m

/-- Write a list of bytes, the first entry first. -/
def Memory.putBytes (m : Memory) (ws : List (Nat × Byte)) : Memory :=
  ws.foldl (fun m w => m.put w.1 w.2) m

/-- Write a list of binary64 values, the first entry first. -/
def Memory.putF64s (m : Memory) (ws : List (Nat × F64)) : Memory :=
  ws.foldl (fun m w => m.putF64 w.1 w.2) m

/-- Byte `i` of a bus word, byte 0 the least significant (20_memory.md R73). -/
def byteOf32 (x : Word) (i : Nat) : Byte := x.extractLsb' (8 * i) 8

/-- Write the four bytes of a bus word. -/
def Memory.putWord (m : Memory) (a : Nat) (x : Word) : Memory :=
  (List.range 4).foldl (fun m i => m.put (a + i) (byteOf32 x i)) m

/-- An address lies in one of the spans. -/
def inSpans (ps : List Span) (a : Nat) : Bool := ps.any fun p => decide (p.lo ≤ a ∧ a < p.hi)

/-- The memory with every byte in the spans no longer listed. -/
def Memory.forget (m : Memory) (ps : List Span) : Memory := m.filter fun c => !inSpans ps c.1

/-- The draw that last made an address unspecified: of the newest soft reset that covers it, else of power-on
reset. -/
def drawAt (epoch : Nat) (vs : List Abandoned) (a : Nat) : Nat :=
  match vs with
  | [] => epoch
  | v :: rest => if inSpans v.spans a then v.draw else drawAt epoch rest a

/-- What an unlisted address reads as: the free byte of the draw that made it unspecified (10_state.md R56,
70_reset_and_hazards.md R283). -/
def State.unlisted (s : State) (a : Nat) : Byte :=
  Config.unspecifiedByte (drawAt s.epoch s.abandoned a) a

/-- Read one byte of a store. -/
def State.byte (s : State) (a : Nat) : Byte := maskAt a ((s.mem.find a).getD (s.unlisted a))

/-- Read a binary64 (20_memory.md R74). -/
def State.f64 (s : State) (a : Nat) : F64 :=
  ⟨(((s.byte (a + 7) ++ s.byte (a + 6)) ++ (s.byte (a + 5) ++ s.byte (a + 4))) ++
    ((s.byte (a + 3) ++ s.byte (a + 2)) ++ (s.byte (a + 1) ++ s.byte a)) : BitVec 64)⟩

/-- Read a bus word (20_memory.md R73). -/
def State.word (s : State) (a : Nat) : Word :=
  ((s.byte (a + 3) ++ s.byte (a + 2)) ++ (s.byte (a + 1) ++ s.byte a) : BitVec 32)

/-! ## Coefficient record extents (10_state.md R50) -/

/-- The value of a channel. -/
def PerChannel.get {α : Type} (v : PerChannel α) : Channel → α
  | .L => v.l
  | .P => v.p
  | .Q => v.q
  | .A => v.a

/-- The values with that of one channel changed. -/
def PerChannel.set {α : Type} (v : PerChannel α) (c : Channel) (x : α) : PerChannel α :=
  match c with
  | .L => { v with l := x }
  | .P => { v with p := x }
  | .Q => { v with q := x }
  | .A => { v with a := x }

/-! ## Errors, completion, launch, acknowledgement -/

/-- The errors of 60_exceptions.md R250. -/
inductive CmdError where
  | invalidInputSize
  | malformedHash
  | paramRange
  | badOpcode
  | operandMismatch
  deriving DecidableEq, Repr

/-- The error codes of 60_exceptions.md R250. -/
def CmdError.code : CmdError → BitVec 4
  | .invalidInputSize => 1
  | .malformedHash => 2
  | .paramRange => 3
  | .badOpcode => 4
  | .operandMismatch => 5

/-- ERR and ERR_CODE of a completion, code 0 when there is no error (60_exceptions.md R258). -/
def Status.completed : Option CmdError → Status
  | none => ⟨true, false, 0⟩
  | some e => ⟨true, true, e.code⟩

/-- BUSY ← 0, DONE ← 1, ERR and ERR_CODE as the outcome says (60_exceptions.md R258). -/
def State.finish (s : State) (e : Option CmdError) : State :=
  { s with pending := none, status := Status.completed e }

/-- The end of the engine step from `s`: the state a command computed, or, where it raised, `s` itself with
nothing but STATUS changed (60_exceptions.md R253, R258). -/
def State.complete (s : State) (r : Except CmdError State) : State :=
  match r with
  | .ok t => t.finish none
  | .error e => s.finish (some e)

/-- STATUS.BUSY: a command is pending (10_state.md R35). -/
def State.busy (s : State) : Bool := s.pending.isSome

/-- An accepted CMD write (10_state.md R33, R51). -/
def State.launch (s : State) (w : Word) : State :=
  { s with cmd := w, pending := some w, status := ⟨false, false, 0⟩ }

/-- A host write to STATUS (10_state.md R35, 60_exceptions.md R259): 1 in bit 1 clears DONE, 1 in bit 2
clears ERR and ERR_CODE. -/
def State.acknowledge (s : State) (w : Word) : State :=
  { s with status :=
      { done := s.status.done && !w.getLsbD 1
        err := s.status.err && !w.getLsbD 2
        errCode := if w.getLsbD 2 then 0 else s.status.errCode } }

end Sys2Proof.Machine
end

