-- ==== Sys2Proof/Machine/Operands.lean ====
section
/-! DEFINITION. The operand forms of the commands: the elements of the stores by their indices
(00_scope.md R13, R15; 20_memory.md R78 to R82, R88), the fields of the header registers (44_pack.md R206),
the retained frequencies (42_dct.md R161), the layout of a hash (44_pack.md R200) and the sizes. -/

namespace Sys2Proof.Machine

/-! ## Elements of the stores -/

/-- The index of a channel (00_scope.md R13). -/
def chanIndex : Channel → Nat
  | .L => 0
  | .P => 1
  | .Q => 2
  | .A => 3

/-- The address of `PIX[i]` (20_memory.md R81). -/
def pixAddr (i : Nat) : Nat := pixBase + i

/-- The address of `HASH[i]` (20_memory.md R78). -/
def hashAddr (i : Nat) : Nat := hashBase + i

/-- The address of `NIB[k]` (20_memory.md R79). -/
def nibAddr (k : Nat) : Nat := nibBase + k

/-- The address of element (x, y) of plane c, `PLANE[c][y·128 + x]` (20_memory.md R82). -/
def planeAddr (c : Channel) (x y : Nat) : Nat :=
  planeBase + 0x20000 * chanIndex c + 8 * (y * 128 + x)

/-- The base of coefficient record c (20_memory.md R80). -/
def recordAddr (c : Channel) : Nat := coefBase + 0x100 * chanIndex c

/-- The addresses of the DC, SCALE and AC[j] of a record (20_memory.md R80). -/
def dcAddr (c : Channel) : Nat := recordAddr c
def scaleAddr (c : Channel) : Nat := recordAddr c + 0x08
def acAddr (c : Channel) (j : Nat) : Nat := recordAddr c + 0x20 + 8 * j

/-- `PIX[i]` as an unsigned integer (20_memory.md R88). -/
def State.pix (s : State) (i : Nat) : Nat := (s.byte (pixAddr i)).toNat

/-- `HASH[i]`. -/
def State.hash (s : State) (i : Nat) : Byte := s.byte (hashAddr i)

/-- `NIB[k]` as an unsigned integer (20_memory.md R88). -/
def State.nib (s : State) (k : Nat) : Nat := (s.byte (nibAddr k)).toNat

/-- `PLANE[c][y·128 + x]`. -/
def State.plane (s : State) (c : Channel) (x y : Nat) : F64 := s.f64 (planeAddr c x y)

/-- `COEF[c].DC`, `COEF[c].SCALE`, `COEF[c].AC[j]`. -/
def State.dc (s : State) (c : Channel) : F64 := s.f64 (dcAddr c)
def State.scale (s : State) (c : Channel) : F64 := s.f64 (scaleAddr c)
def State.ac (s : State) (c : Channel) (j : Nat) : F64 := s.f64 (acAddr c j)

/-! ## Sizes -/

/-- Width and height are in 1 to 128 (60_exceptions.md R254). -/
def Dim.inRange (d : Dim) : Bool :=
  decide (1 ≤ d.w.toNat ∧ d.w.toNat ≤ 128 ∧ 1 ≤ d.h.toNat ∧ d.h.toNat ≤ 128)

/-- The pixels (x, y) of an image, row by row from y = 0, each row from x = 0 (00_scope.md R15). -/
def pixels (w h : Nat) : List (Nat × Nat) :=
  (List.range h).flatMap fun y => (List.range w).map fun x => (x, y)

/-- `ceil_half(n)` (00_scope.md R10). -/
def ceilHalf (n : Nat) : Nat := (n + 1) / 2

/-! ## Retained frequencies (42_dct.md R161, R162) -/

/-- PAIRS(nx, ny): outer loop cy, inner loop cx. -/
def pairs (nx ny : Nat) : List (Nat × Nat) :=
  (List.range ny).flatMap fun cy =>
    ((List.range nx).filter fun cx => decide (cx * ny + cy * nx < nx * ny)).map fun cx => (cx, cy)

/-- ACPAIRS(nx, ny): PAIRS without (0, 0), its first element. -/
def acPairs (nx ny : Nat) : List (Nat × Nat) := (pairs nx ny).tail

/-- countAc(nx, ny), for extents from 1 to 7. -/
def countAc (nx ny : Nat) : Nat := (pairs nx ny).length - 1

/-- COEF[c].NAC (10_state.md R50): countAc of the extents, 0 when both are 0 (R55). -/
def Ext.nac (e : Ext) : BitVec 5 :=
  if e.nx ≠ 0 ∧ e.ny ≠ 0 then BitVec.ofNat 5 (countAc e.nx.toNat e.ny.toNat)
  else if e.nx = 0 ∧ e.ny = 0 then 0
  else Config.unstatedNac e.nx e.ny

end Sys2Proof.Machine

namespace Sys2Proof

/-! ## The build parameters (00_scope.md R6) -/

/-- P_FLOOR. -/
def Params.floorValue (p : Params) : Nat :=
  match p.floor with
  | .one => 1
  | .three => 3

/-- `max(P_FLOOR, n)`, a luminance extent as the DCT uses it (42_dct.md R169). -/
def Params.floored (p : Params) (n : Nat) : Nat := max p.floorValue n

/-- The gain g_c of P_GAIN (42_dct.md R167). -/
def Params.gainOf (p : Params) (c : Channel) : F64 :=
  match p.gain, c with
  | .unit, .L => F64.one
  | .unit, .P => F64.one
  | .unit, .Q => F64.one
  | .unit, .A => F64.one
  | .reference, .L => F64.two
  | .reference, .P => F64.twoAndHalf
  | .reference, .Q => F64.twoAndHalf
  | .reference, .A => F64.two

end Sys2Proof

namespace Sys2Proof.Machine

/-! ## Header fields (30_encoding.md R111, R112, R114; 44_pack.md R206) -/

def State.fieldLDc (s : State) : Nat := (s.hdr24.extractLsb' 0 6).toNat
def State.fieldPDc (s : State) : Nat := (s.hdr24.extractLsb' 6 6).toNat
def State.fieldQDc (s : State) : Nat := (s.hdr24.extractLsb' 12 6).toNat
def State.fieldLScale (s : State) : Nat := (s.hdr24.extractLsb' 18 5).toNat
def State.fieldHasAlpha (s : State) : Bool := s.hdr24.getLsbD 23
def State.fieldLCount (s : State) : Nat := (s.hdr16.extractLsb' 0 3).toNat
def State.fieldPScale (s : State) : Nat := (s.hdr16.extractLsb' 3 6).toNat
def State.fieldQScale (s : State) : Nat := (s.hdr16.extractLsb' 9 6).toNat
def State.fieldLandscape (s : State) : Bool := s.hdr16.getLsbD 15
def State.fieldADc (s : State) : Nat := (s.hdr8.extractLsb' 0 4).toNat
def State.fieldAScale (s : State) : Nat := (s.hdr8.extractLsb' 4 4).toNat

/-! ## Layout of a hash -/

/-- LIMIT: 5 with alpha, 7 without (30_encoding.md R113, 41_color.md R144). -/
def limit (alpha : Bool) : Nat := if alpha then 5 else 7

/-- The luminance extents (lx, ly) that a header gives (30_encoding.md R113). -/
def extents (alpha : Bool) (count : Nat) (land : Bool) : Nat × Nat :=
  if land then (limit alpha, count) else (count, limit alpha)

/-- What LAYOUT returns (44_pack.md R200). -/
structure Layout where
  lx : Nat
  ly : Nat
  nL : Nat
  n : Nat
  hb : Nat
  len : Nat
  deriving DecidableEq, Repr

/-- LAYOUT(a, count, land) (44_pack.md R200). -/
def layout (p : Params) (alpha : Bool) (count : Nat) (land : Bool) : Layout :=
  let lx := (extents alpha count land).1
  let ly := (extents alpha count land).2
  let nL := countAc (p.floored lx) (p.floored ly)
  let n := nL + 10 + if alpha then 14 else 0
  let hb := if alpha then 6 else 5
  { lx := lx, ly := ly, nL := nL, n := n, hb := hb, len := hb + ceilHalf n }

/-- OUTSIZE(base, lx, ly) as (OW, OH) (45_orchestrator.md R221). -/
def outSize (base lx ly : Nat) : Nat × Nat :=
  if lx > ly then (base, max 1 ((2 * base * ly + lx) / (2 * lx)))
  else (max 1 ((2 * base * lx + ly) / (2 * ly)), base)

end Sys2Proof.Machine
end

