-- ==== Sys2Proof/Machine/Flags.lean ====
section
/-! DEFINITION. Every flag of the engine (10_state.md R53) and the words the status and configuration
registers read as: STATUS, CFG, CTRL, LEXT, the interrupt output, and the two image flags. -/

namespace Sys2Proof.Machine

/-- A flag as a bit of a word. -/
def bit (b : Bool) : BitVec 1 := if b then 1 else 0

/-- STATUS: BUSY [0], DONE [1], ERR [2], ERR_CODE [7:4] (10_state.md R35). -/
def State.statusWord (s : State) : Word :=
  0#24 ++ s.status.errCode ++ 0#1 ++ bit s.status.err ++ bit s.status.done ++ bit s.busy

/-- CTRL: IRQ_EN [0]; SRST reads 0 (10_state.md R34). -/
def State.ctrlWord (s : State) : Word := 0#31 ++ bit s.irqEn

/-- LEXT: LX [2:0], LY [6:4], HAS_ALPHA [8], LANDSCAPE [9] (10_state.md R41). -/
def Lext.toWord (e : Lext) : Word :=
  0#22 ++ bit e.landscape ++ bit e.hasAlpha ++ 0#1 ++ e.ly ++ 0#1 ++ e.lx

/-- The fields of LEXT that a written word sets (10_state.md R41, R54). -/
def Lext.ofWord (w : Word) : Lext :=
  ⟨w.extractLsb' 0 3, w.extractLsb' 4 3, w.getLsbD 8, w.getLsbD 9⟩

/-- IMG_DIM and OUT_DIM: width [15:0], height [31:16] (10_state.md R36, R40). -/
def Dim.toWord (d : Dim) : Word := d.h ++ d.w

/-- The size that a written word sets. -/
def Dim.ofWord (w : Word) : Dim := ⟨w.extractLsb' 0 16, w.extractLsb' 16 16⟩

/-- The size word of a record: NX [2:0], NY [6:4], NAC [12:8] (20_memory.md R80). -/
def Ext.toWord (e : Ext) : Word := 0#19 ++ e.nac ++ 0#1 ++ e.ny ++ 0#1 ++ e.nx

/-- NX and NY that a written word sets; NAC is read-only (20_memory.md R80). -/
def Ext.ofWord (w : Word) : Ext := ⟨w.extractLsb' 0 3, w.extractLsb' 4 3⟩

/-- The interrupt output: `CTRL.IRQ_EN & STATUS.DONE` (10_state.md R52). -/
def State.irq (s : State) : Bool := s.irqEn && s.status.done

/-- `hasAlpha = (sA < f64(n))` (41_color.md R142). -/
def alphaFlag (sA : F64) (n : Nat) : Bool := sA.lt (F64.ofNat n)

/-- `landscape = 1 if W > H else 0` (41_color.md R145). -/
def landscapeFlag (w h : Nat) : Bool := decide (w > h)

end Sys2Proof.Machine

namespace Sys2Proof

/-- CFG: FLOOR [3:0], PIXROUND [4], REFGAIN [5], MAXDIM [15:8] (10_state.md R32). -/
def Params.cfgWord (p : Params) : Word :=
  0#16 ++ 128#8 ++ 0#2 ++ Machine.bit (p.gain == .reference) ++ Machine.bit (p.pixConv == .round) ++
    BitVec.ofNat 4 p.floorValue

end Sys2Proof
end

