-- ==== Sys2Proof/Machine/Color.lean ====
section
/-! DEFINITION. The colour converter: CSC_FWD (41_color.md R140 to R146) and CSC_INV (R150 to R152). -/

namespace Sys2Proof.Machine

/-! ## Forward -/

/-- Byte `j` of pixel `i`, normalised: `f64(byte) ÷ 255.0` (41_color.md R141). -/
def State.unitPix (s : State) (i j : Nat) : F64 := (F64.ofNat (s.pix (4 * i + j))).div F64.twoFiftyFive

/-- A colour: one binary64 value for each of red, green and blue. -/
structure Rgb where
  r : F64
  g : F64
  b : F64
  deriving DecidableEq, Repr

/-- sA, the sum of the alphas of the first `n` pixels in order (41_color.md R141). -/
def State.alphaSum (s : State) (n : Nat) : F64 :=
  (List.range n).foldl (fun acc i => acc.add (s.unitPix i 3)) F64.zero

/-- sR, sG or sB, the sum of alpha times colour byte `j` (41_color.md R141). -/
def State.colorSum (s : State) (j n : Nat) : F64 :=
  (List.range n).foldl (fun acc i => acc.add ((s.unitPix i 3).mul (s.unitPix i j))) F64.zero

/-- avgR, avgG and avgB; 0.0 when every pixel is fully transparent (41_color.md R141). -/
def State.average (s : State) (n : Nat) : Rgb :=
  let sA := s.alphaSum n
  if F64.zero.lt sA then
    ⟨(s.colorSum 0 n).div sA, (s.colorSum 1 n).div sA, (s.colorSum 2 n).div sA⟩
  else ⟨F64.zero, F64.zero, F64.zero⟩

/-- `(avg × (1.0 - a)) + (a × v)` (41_color.md R143). -/
def blend (avg a v : F64) : F64 := (avg.mul (F64.one.sub a)).add (a.mul v)

/-- cr, cg and cb of pixel `i` (41_color.md R143). -/
def State.composite (s : State) (avg : Rgb) (i : Nat) : Rgb :=
  let a := s.unitPix i 3
  ⟨blend avg.r a (s.unitPix i 0), blend avg.g a (s.unitPix i 1), blend avg.b a (s.unitPix i 2)⟩

/-- L, P and Q of a composited colour (41_color.md R143). -/
def Rgb.toL (c : Rgb) : F64 := ((c.r.add c.g).add c.b).div F64.three
def Rgb.toP (c : Rgb) : F64 := ((c.r.add c.g).div F64.two).sub c.b
def Rgb.toQ (c : Rgb) : F64 := c.r.sub c.g

/-- An extent along a side of length `side`, in integers: `max(1, (2·LIMIT·side + M) div (2·M))`
(41_color.md R144). -/
def sideExtent (lim side m : Nat) : Nat := max 1 ((2 * lim * side + m) / (2 * m))

/-- LEXT as CSC_FWD writes it (41_color.md R144 to R146). -/
def State.forwardLext (s : State) : Lext :=
  let w := s.imgDim.w.toNat
  let h := s.imgDim.h.toNat
  let alpha := alphaFlag (s.alphaSum (w * h)) (w * h)
  { lx := BitVec.ofNat 3 (sideExtent (limit alpha) w (max w h))
    ly := BitVec.ofNat 3 (sideExtent (limit alpha) h (max w h))
    hasAlpha := alpha
    landscape := landscapeFlag w h }

/-- What CSC_FWD writes to the planes, pixel by pixel (41_color.md R146). -/
def State.forwardWrites (s : State) : List (Nat × F64) :=
  let w := s.imgDim.w.toNat
  let h := s.imgDim.h.toNat
  let avg := s.average (w * h)
  (pixels w h).flatMap fun xy =>
    let i := xy.2 * w + xy.1
    let c := s.composite avg i
    [(planeAddr .L xy.1 xy.2, c.toL), (planeAddr .P xy.1 xy.2, c.toP),
     (planeAddr .Q xy.1 xy.2, c.toQ), (planeAddr .A xy.1 xy.2, s.unitPix i 3)]

/-- IN_LEN ≠ W·H·4, the product exact (60_exceptions.md R251). -/
def State.inputSizeWrong (s : State) : Bool :=
  decide (s.inLen.toNat ≠ s.imgDim.w.toNat * s.imgDim.h.toNat * 4)

/-- CSC_FWD without its completion (41_color.md R146). -/
def unitCscFwd (s : State) : Except CmdError State :=
  if s.inputSizeWrong then .error .invalidInputSize
  else if !s.imgDim.inRange then .error .paramRange
  else .ok { s with mem := s.mem.putF64s s.forwardWrites, lext := s.forwardLext }

/-- CSC_FWD (41_color.md R146). -/
def execCscFwd (s : State) : Host.Outcome State Fault Refusal := .next (s.complete (unitCscFwd s))

/-! ## Inverse -/

/-- r, g and b of the reconstructed l, p and q (41_color.md R150). -/
def inverseRgb (l p q : F64) : Rgb :=
  let b := l.sub (F64.twoThirds.mul p)
  let r := (((F64.three.mul l).sub b).add q).div F64.two
  ⟨r, r.sub q, b⟩

/-- CONV(v) (41_color.md R151). -/
def convert (m : PixConv) (v : F64) : Byte :=
  let x := F64.twoFiftyFive.mul v.fmin01
  match m with
  | .trunc => BitVec.ofNat 8 x.floorMag
  | .round => BitVec.ofNat 8 x.roundMag

/-- The alpha of an output pixel: 1.0 without alpha (41_color.md R152). -/
def State.outAlpha (s : State) (x y : Nat) : F64 :=
  if s.fieldHasAlpha then s.plane .A x y else F64.one

/-- What CSC_INV writes to PIXBUF, pixel by pixel (41_color.md R152). -/
def State.inverseWrites (s : State) : List (Nat × Byte) :=
  let ow := s.outDim.w.toNat
  let oh := s.outDim.h.toNat
  let m := s.params.pixConv
  (pixels ow oh).flatMap fun xy =>
    let i := xy.2 * ow + xy.1
    let c := inverseRgb (s.plane .L xy.1 xy.2) (s.plane .P xy.1 xy.2) (s.plane .Q xy.1 xy.2)
    [(pixAddr (4 * i), convert m c.r), (pixAddr (4 * i + 1), convert m c.g),
     (pixAddr (4 * i + 2), convert m c.b), (pixAddr (4 * i + 3), convert m (s.outAlpha xy.1 xy.2))]

/-- CSC_INV without its completion (41_color.md R152). -/
def unitCscInv (s : State) : Except CmdError State :=
  if !s.outDim.inRange then .error .paramRange
  else .ok { s with mem := s.mem.putBytes s.inverseWrites }

/-- CSC_INV (41_color.md R152). -/
def execCscInv (s : State) : Host.Outcome State Fault Refusal := .next (s.complete (unitCscInv s))

end Sys2Proof.Machine
end

