-- ==== Sys2Proof/Machine/Dct.lean ====
section
/-! DEFINITION. The DCT engine: DCT_FWD (42_dct.md R160 to R166) and DCT_INV (R167, R168). -/

namespace Sys2Proof.Machine

/-- BASIS(D, p, k) (42_dct.md R160). -/
def basis (d p k : Nat) : F64 :=
  (((F64.pi.div (F64.ofNat d)).mul ((F64.ofNat p).add F64.half)).mul (F64.ofNat k)).cos

/-! ## Forward -/

/-- F(c, cx, cy) (42_dct.md R164). -/
def State.forwardSum (s : State) (c : Channel) (cx cy : Nat) : F64 :=
  let w := s.imgDim.w.toNat
  let h := s.imgDim.h.toNat
  ((pixels w h).foldl (fun f xy =>
    f.add (((s.plane c xy.1 xy.2).mul (basis w xy.1 cx)).mul (basis h xy.2 cy))) F64.zero).div
    (F64.ofNat (w * h))

/-- The raw AC values f_j in AC index order (42_dct.md R166). -/
def State.rawAc (s : State) (c : Channel) (nx ny : Nat) : List F64 :=
  (acPairs nx ny).map fun p => s.forwardSum c p.1 p.2

/-- The scale: the greatest magnitude, from 0.0 (42_dct.md R165). -/
def scaleOf (fs : List F64) : F64 :=
  fs.foldl (fun scale f => if scale.lt f.abs then f.abs else scale) F64.zero

/-- The renormalised value of `f`, or `f` itself when the scale is not above 0.0 (42_dct.md R165). -/
def renormalize (scale f : F64) : F64 :=
  if F64.zero.lt scale then F64.half.add (F64.half.mul (f.div scale)) else f

/-- The AC values of a record paired with their addresses, from AC[0] on. -/
def acWrites (c : Channel) (vs : List F64) : List (Nat × F64) :=
  vs.zipIdx.map fun v => (acAddr c v.2, v.1)

/-- What DCT_FWD writes to the record: DC, SCALE and the AC values (42_dct.md R166). -/
def State.dctWrites (s : State) (c : Channel) (nx ny : Nat) : List (Nat × F64) :=
  let fs := s.rawAc c nx ny
  let scale := scaleOf fs
  (dcAddr c, s.forwardSum c 0 0) :: (scaleAddr c, scale) :: acWrites c (fs.map (renormalize scale))

/-- DCT_FWD without its completion, with the extents as the 3-bit fields hold them (42_dct.md R166). -/
def unitDctFwd (c : Channel) (nx ny : BitVec 3) (s : State) : Except CmdError State :=
  if !s.imgDim.inRange then .error .paramRange
  else if nx = 0 ∨ ny = 0 then .error .paramRange
  else .ok { s with
    ext := s.ext.set c ⟨nx, ny⟩
    mem := s.mem.putF64s (s.dctWrites c nx.toNat ny.toNat) }

/-- DCT_FWD ch, nx, ny (42_dct.md R166); the command word carries three bits of nx and of ny (30_encoding.md
R100). -/
def execDctFwd (c : Channel) (nx ny : Nat) (s : State) : Host.Outcome State Fault Refusal :=
  .next (s.complete (unitDctFwd c (BitVec.ofNat 3 nx) (BitVec.ofNat 3 ny) s))

/-! ## Inverse -/

/-- G(c, x, y) for an output of `ow` by `oh` pixels (42_dct.md R167). -/
def State.inverseSum (s : State) (c : Channel) (ow oh x y : Nat) : F64 :=
  let e := s.ext.get c
  ((acPairs e.nx.toNat e.ny.toNat).zipIdx).foldl (fun v p =>
    v.add (((s.ac c p.2).mul (basis ow x p.1.1)).mul
      ((basis oh y p.1.2).mul (s.params.gainOf c)))) (s.dc c)

/-- What DCT_INV writes to the plane (42_dct.md R168). -/
def State.planeWrites (s : State) (c : Channel) : List (Nat × F64) :=
  let ow := s.outDim.w.toNat
  let oh := s.outDim.h.toNat
  (pixels ow oh).map fun xy => (planeAddr c xy.1 xy.2, s.inverseSum c ow oh xy.1 xy.2)

/-- DCT_INV without its completion (42_dct.md R168). -/
def unitDctInv (c : Channel) (s : State) : Except CmdError State :=
  if !s.outDim.inRange then .error .paramRange
  else if (s.ext.get c).nx = 0 ∨ (s.ext.get c).ny = 0 then .error .operandMismatch
  else .ok { s with mem := s.mem.putF64s (s.planeWrites c) }

/-- DCT_INV ch (42_dct.md R168). -/
def execDctInv (c : Channel) (s : State) : Host.Outcome State Fault Refusal :=
  .next (s.complete (unitDctInv c s))

end Sys2Proof.Machine
end

