-- ==== Sys2Proof/Machine/Quant.lean ====
section
/-! DEFINITION. The quantizer: QUANT (43_quant.md R180, R181, R183, R184) and DEQUANT (R182, R185). -/

namespace Sys2Proof.Machine

/-! ## QUANT -/

/-- `Q6(31.5 + (31.5 × v))`, a chroma DC (43_quant.md R181). -/
def quantChromaDc (v : F64) : Nat :=
  (F64.thirtyOneAndHalf.add (F64.thirtyOneAndHalf.mul v)).quantize 6

/-- `Q6(63.0 × v)`, the luminance DC and the chroma scales (43_quant.md R181). -/
def quant63 (v : F64) : Nat := (F64.sixtyThree.mul v).quantize 6

/-- `Q5(31.0 × v)`, the luminance scale (43_quant.md R181). -/
def quant31 (v : F64) : Nat := (F64.thirtyOne.mul v).quantize 5

/-- `Q4(15.0 × v)`, the alpha fields and the AC nibbles (43_quant.md R181). -/
def quant15 (v : F64) : Nat := (F64.fifteen.mul v).quantize 4

/-- LEXT describes extents the encoder can produce: none 0 and the long side the limit (43_quant.md
R184). -/
def State.lextEncodable (s : State) : Bool :=
  let e := s.lext
  decide (e.lx ≠ 0 ∧ e.ly ≠ 0) &&
    (if e.landscape then decide (e.lx.toNat = limit e.hasAlpha)
     else decide (e.ly.toNat = limit e.hasAlpha))

/-- The record of `c` has the extents (nx, ny). -/
def State.hasExtents (s : State) (c : Channel) (nx ny : Nat) : Bool :=
  decide ((s.ext.get c).nx.toNat = nx ∧ (s.ext.get c).ny.toNat = ny)

/-- The records have the extents of 42_dct.md R169 (43_quant.md R184). -/
def State.recordsMatch (s : State) : Bool :=
  s.hasExtents .L (s.params.floored s.lext.lx.toNat) (s.params.floored s.lext.ly.toNat) &&
    s.hasExtents .P 3 3 && s.hasExtents .Q 3 3 && (!s.lext.hasAlpha || s.hasExtents .A 5 5)

/-- The 24 header bits QUANT writes (43_quant.md R184). -/
def State.quantHdr24 (s : State) : BitVec 24 :=
  bit s.lext.hasAlpha ++ BitVec.ofNat 5 (quant31 (s.scale .L)) ++
    BitVec.ofNat 6 (quantChromaDc (s.dc .Q)) ++ BitVec.ofNat 6 (quantChromaDc (s.dc .P)) ++
    BitVec.ofNat 6 (quant63 (s.dc .L))

/-- The extent the header stores, that of the shorter side (43_quant.md R184, 30_encoding.md R113). -/
def Lext.count (e : Lext) : BitVec 3 := if e.landscape then e.ly else e.lx

/-- The next 16 header bits (43_quant.md R184). -/
def State.quantHdr16 (s : State) : BitVec 16 :=
  bit s.lext.landscape ++ BitVec.ofNat 6 (quant63 (s.scale .Q)) ++
    BitVec.ofNat 6 (quant63 (s.scale .P)) ++ s.lext.count

/-- Header byte 5, 0 without alpha (43_quant.md R184). -/
def State.quantHdr8 (s : State) : BitVec 8 :=
  if s.lext.hasAlpha then
    BitVec.ofNat 4 (quant15 (s.scale .A)) ++ BitVec.ofNat 4 (quant15 (s.dc .A))
  else 0

/-- The channels of a hash in stream order (30_encoding.md R116). -/
def streamChannels (alpha : Bool) : List Channel :=
  if alpha then [.L, .P, .Q, .A] else [.L, .P, .Q]

/-- The AC coefficients a hash holds, as (channel, AC index) in stream order (43_quant.md R183). -/
def State.streamOrder (s : State) : List (Channel × Nat) :=
  (streamChannels s.lext.hasAlpha).flatMap fun c =>
    (List.range (s.ext.get c).nac.toNat).map fun j => (c, j)

/-- The nibbles QUANT writes, from NIB[0] on (43_quant.md R184). -/
def State.quantNibbles (s : State) : List Nat := s.streamOrder.map fun cj => quant15 (s.ac cj.1 cj.2)

/-- Nibbles paired with their addresses, from NIB[0] on. -/
def nibWrites (ns : List Nat) : List (Nat × Byte) :=
  ns.zipIdx.map fun n => (nibAddr n.2, BitVec.ofNat 8 n.1)

/-- QUANT without its completion (43_quant.md R184). -/
def unitQuant (s : State) : Except CmdError State :=
  if !s.lextEncodable then .error .operandMismatch
  else if !s.recordsMatch then .error .operandMismatch
  else .ok { s with
    hdr24 := s.quantHdr24
    hdr16 := s.quantHdr16
    hdr8 := s.quantHdr8
    nibCount := BitVec.ofNat 6 s.quantNibbles.length
    mem := s.mem.putBytes (nibWrites s.quantNibbles) }

/-- QUANT (43_quant.md R184). -/
def execQuant (s : State) : Host.Outcome State Fault Refusal := .next (s.complete (unitQuant s))

/-! ## DEQUANT -/

/-- `f64(q) ÷ 63.0` (43_quant.md R182). -/
def dequant63 (q : Nat) : F64 := (F64.ofNat q).div F64.sixtyThree

/-- `f64(q) ÷ 31.0`. -/
def dequant31 (q : Nat) : F64 := (F64.ofNat q).div F64.thirtyOne

/-- `f64(q) ÷ 15.0`. -/
def dequant15 (q : Nat) : F64 := (F64.ofNat q).div F64.fifteen

/-- `(f64(q) ÷ 31.5) - 1.0`. -/
def dequantChromaDc (q : Nat) : F64 := ((F64.ofNat q).div F64.thirtyOneAndHalf).sub F64.one

/-- `((f64(n) ÷ 7.5) - 1.0) × s`. -/
def dequantAc (scale : F64) (n : Nat) : F64 :=
  (((F64.ofNat n).div F64.sevenAndHalf).sub F64.one).mul scale

/-- `fill` of 43_quant.md R185: the record's DC and SCALE, and its AC values from `n` nibbles starting at
NIB[k]. -/
def State.fillWrites (s : State) (c : Channel) (dc scale : F64) (k n : Nat) : List (Nat × F64) :=
  (dcAddr c, dc) :: (scaleAddr c, scale) ::
    acWrites c ((List.range n).map fun j => dequantAc scale (s.nib (k + j)))

/-- The luminance extents DEQUANT uses (43_quant.md R185). -/
def State.dequantNx (s : State) : Nat := s.params.floored s.lext.lx.toNat
def State.dequantNy (s : State) : Nat := s.params.floored s.lext.ly.toNat

/-- What DEQUANT writes to the records, L, P, Q and, with alpha, A (43_quant.md R183, R185). -/
def State.dequantWrites (s : State) : List (Nat × F64) :=
  let nL := countAc s.dequantNx s.dequantNy
  s.fillWrites .L (dequant63 s.fieldLDc) (dequant31 s.fieldLScale) 0 nL ++
    s.fillWrites .P (dequantChromaDc s.fieldPDc) (dequant63 s.fieldPScale) nL (countAc 3 3) ++
    s.fillWrites .Q (dequantChromaDc s.fieldQDc) (dequant63 s.fieldQScale) (nL + 5) (countAc 3 3) ++
    if s.fieldHasAlpha then
      s.fillWrites .A (dequant15 s.fieldADc) (dequant15 s.fieldAScale) (nL + 10) (countAc 5 5)
    else []

/-- The extents of the records after DEQUANT; that of A is unchanged without alpha (43_quant.md R185). -/
def State.dequantExt (s : State) : PerChannel Ext where
  l := ⟨BitVec.ofNat 3 s.dequantNx, BitVec.ofNat 3 s.dequantNy⟩
  p := ⟨3, 3⟩
  q := ⟨3, 3⟩
  a := if s.fieldHasAlpha then ⟨5, 5⟩ else s.ext.a

/-- DEQUANT without its completion (43_quant.md R185). -/
def unitDequant (s : State) : Except CmdError State :=
  if s.lext.lx = 0 ∨ s.lext.ly = 0 then .error .operandMismatch
  else .ok { s with ext := s.dequantExt, mem := s.mem.putF64s s.dequantWrites }

/-- DEQUANT (43_quant.md R185). -/
def execDequant (s : State) : Host.Outcome State Fault Refusal := .next (s.complete (unitDequant s))

end Sys2Proof.Machine
end

