-- ==== Sys2Proof/Machine/Pack.lean ====
section
/-! DEFINITION. The bit-packer and unpacker: PACK (44_pack.md R203) and UNPACK (R204, R205). -/

namespace Sys2Proof.Machine

/-! ## PACK -/

/-- The layout of the hash whose header HDR24 and HDR16 hold (44_pack.md R200, R203). -/
def State.packLayout (s : State) : Layout :=
  layout s.params s.fieldHasAlpha s.fieldLCount s.fieldLandscape

/-- Stream nibble `k`, 0 past the last: the padding is written as 0 (30_encoding.md R118). -/
def State.packNibble (s : State) (n k : Nat) : BitVec 4 := if k < n then BitVec.ofNat 4 (s.nib k) else 0

/-- Byte `j` of the stream: nibble 2j in the low half, nibble 2j+1 in the high half (30_encoding.md R115). -/
def State.packByte (s : State) (n j : Nat) : Byte :=
  s.packNibble n (2 * j + 1) ++ s.packNibble n (2 * j)

/-- The header bytes, five or, with alpha, six (44_pack.md R203). -/
def State.packHeader (s : State) : List Byte :=
  [s.hdr24.extractLsb' 0 8, s.hdr24.extractLsb' 8 8, s.hdr24.extractLsb' 16 8,
   s.hdr16.extractLsb' 0 8, s.hdr16.extractLsb' 8 8] ++ if s.fieldHasAlpha then [s.hdr8] else []

/-- The hash: the header and the stream (44_pack.md R203). -/
def State.packBytes (s : State) : List Byte :=
  s.packHeader ++ (List.range (ceilHalf s.packLayout.n)).map (s.packByte s.packLayout.n)

/-- Bytes paired with their addresses, from HASH[0] on. -/
def hashWrites (bs : List Byte) : List (Nat × Byte) := bs.zipIdx.map fun b => (hashAddr b.2, b.1)

/-- PACK without its completion (44_pack.md R203). -/
def unitPack (s : State) : Except CmdError State :=
  if s.fieldLCount = 0 then .error .malformedHash
  else .ok { s with
    mem := s.mem.putBytes (hashWrites s.packBytes)
    hashLen := BitVec.ofNat 6 s.packLayout.len
    nibCount := BitVec.ofNat 6 s.packLayout.n }

/-- PACK (44_pack.md R203). -/
def execPack (s : State) : Host.Outcome State Fault Refusal := .next (s.complete (unitPack s))

/-! ## UNPACK -/

/-- The flags and the count of the hash in HASHBUF (44_pack.md R204). -/
def State.hashAlpha (s : State) : Bool := (s.hash 2).getLsbD 7
def State.hashCount (s : State) : Nat := ((s.hash 3).extractLsb' 0 3).toNat
def State.hashLand (s : State) : Bool := (s.hash 4).getLsbD 7

/-- The layout of the hash in HASHBUF (44_pack.md R205). -/
def State.hashLayout (s : State) : Layout := layout s.params s.hashAlpha s.hashCount s.hashLand

/-- The checks of 44_pack.md R204 in their order: the error of the first that fails. -/
def State.hashCheck (s : State) : Option CmdError :=
  let len := s.hashLen.toNat
  if len > 32 then some .paramRange
  else if len < 5 then some .malformedHash
  else if s.hashAlpha && decide (len < 6) then some .malformedHash
  else if s.hashCount = 0 then some .malformedHash
  else if len < s.hashLayout.len then some .malformedHash
  else none

/-- Stream nibble `k` of the hash, `(HASH[hb + k div 2] >> (4 × (k mod 2))) & 0xF` (44_pack.md R205). -/
def State.unpackNibble (s : State) (hb k : Nat) : Nat :=
  ((s.hash (hb + k / 2)).toNat >>> (4 * (k % 2))) % 16

/-- LEXT as UNPACK writes it (44_pack.md R205). -/
def State.unpackLext (s : State) : Lext where
  lx := BitVec.ofNat 3 s.hashLayout.lx
  ly := BitVec.ofNat 3 s.hashLayout.ly
  hasAlpha := s.hashAlpha
  landscape := s.hashLand

/-- UNPACK without its completion (44_pack.md R205). -/
def unitUnpack (s : State) : Except CmdError State :=
  match s.hashCheck with
  | some e => .error e
  | none => .ok { s with
    hdr24 := s.hash 2 ++ s.hash 1 ++ s.hash 0
    hdr16 := s.hash 4 ++ s.hash 3
    hdr8 := if s.hashAlpha then s.hash 5 else 0
    nibCount := BitVec.ofNat 6 s.hashLayout.n
    lext := s.unpackLext
    mem := s.mem.putBytes
      (nibWrites ((List.range s.hashLayout.n).map (s.unpackNibble s.hashLayout.hb))) }

/-- UNPACK (44_pack.md R205). -/
def execUnpack (s : State) : Host.Outcome State Fault Refusal := .next (s.complete (unitUnpack s))

end Sys2Proof.Machine
end

