-- ==== Sys2Proof/Machine/Sequencer.lean ====
section
/-! DEFINITION. The sequencer: NOP (45_orchestrator.md R220), SIZE (R221, R222), and the composites ENCODE
(R223) and DECODE (R224) as sequences of unit commands (R225). -/

namespace Sys2Proof.Machine

/-- NOP: nothing but the completion (45_orchestrator.md R220). -/
def execNop (s : State) : Host.Outcome State Fault Refusal := .next (s.complete (.ok s))

/-! ## SIZE -/

/-- OUT_BASE is in 1 to 128 (60_exceptions.md R254). -/
def State.baseInRange (s : State) : Bool := decide (1 ≤ s.outBase.toNat ∧ s.outBase.toNat ≤ 128)

/-- The size SIZE computes (45_orchestrator.md R222). -/
def State.sizeResult (s : State) : Nat × Nat :=
  let e := extents s.fieldHasAlpha s.fieldLCount s.fieldLandscape
  outSize s.outBase.toNat e.1 e.2

/-- SIZE without its completion (45_orchestrator.md R222). -/
def unitSize (s : State) : Except CmdError State :=
  if s.fieldLCount = 0 then .error .malformedHash
  else if !s.baseInRange then .error .paramRange
  else .ok { s with outDim := ⟨BitVec.ofNat 16 s.sizeResult.1, BitVec.ofNat 16 s.sizeResult.2⟩ }

/-- SIZE (45_orchestrator.md R222). -/
def execSize (s : State) : Host.Outcome State Fault Refusal := .next (s.complete (unitSize s))

/-! ## Composites -/

/-- A unit command of a composite: "`do X` performs command X's pseudocode on the current state ... without
its completion step" (45_orchestrator.md R223). -/
inductive UnitCmd where
  | cscFwd
  | dctFwd (c : Channel) (nx ny : BitVec 3)
  | quant
  | pack
  | unpack
  | dequant
  | size
  | dctInv (c : Channel)
  | cscInv
  deriving DecidableEq, Repr

/-- One unit command. -/
def runUnit (t : UnitCmd) (s : State) : Except CmdError State :=
  match t with
  | .cscFwd => unitCscFwd s
  | .dctFwd c nx ny => unitDctFwd c nx ny s
  | .quant => unitQuant s
  | .pack => unitPack s
  | .unpack => unitUnpack s
  | .dequant => unitDequant s
  | .size => unitSize s
  | .dctInv c => unitDctInv c s
  | .cscInv => unitCscInv s

/-- Unit commands one after the other, up to the first that raises. -/
def runUnits (ts : List UnitCmd) (s : State) : Except CmdError State :=
  match ts with
  | [] => .ok s
  | t :: rest =>
    match runUnit t s with
    | .error e => .error e
    | .ok s' => runUnits rest s'

/-- What ENCODE does after CSC_FWD, in the state CSC_FWD leaves (45_orchestrator.md R223). -/
def State.encodeTail (s : State) : List UnitCmd :=
  [.dctFwd .L (BitVec.ofNat 3 (s.params.floored s.lext.lx.toNat))
     (BitVec.ofNat 3 (s.params.floored s.lext.ly.toNat)),
   .dctFwd .P 3 3, .dctFwd .Q 3 3] ++
  (if s.lext.hasAlpha then [.dctFwd .A 5 5] else []) ++ [.quant, .pack]

/-- ENCODE without its completion (45_orchestrator.md R223). -/
def unitEncode (s : State) : Except CmdError State :=
  if s.inputSizeWrong then .error .invalidInputSize
  else if !s.imgDim.inRange then .error .paramRange
  else
    match runUnit .cscFwd s with
    | .error e => .error e
    | .ok s' => runUnits s'.encodeTail s'

/-- ENCODE (45_orchestrator.md R223). -/
def execEncode (s : State) : Host.Outcome State Fault Refusal := .next (s.complete (unitEncode s))

/-- What DECODE does after UNPACK, in the state UNPACK leaves (45_orchestrator.md R224). -/
def State.decodeTail (s : State) : List UnitCmd :=
  [.dequant, .size, .dctInv .L, .dctInv .P, .dctInv .Q] ++
  (if s.fieldHasAlpha then [.dctInv .A] else []) ++ [.cscInv]

/-- DECODE without its completion (45_orchestrator.md R224). -/
def unitDecode (s : State) : Except CmdError State :=
  match s.hashCheck with
  | some e => .error e
  | none =>
    if !s.baseInRange then .error .paramRange
    else
      match runUnit .unpack s with
      | .error e => .error e
      | .ok s' => runUnits s'.decodeTail s'

/-- DECODE (45_orchestrator.md R224). -/
def execDecode (s : State) : Host.Outcome State Fault Refusal := .next (s.complete (unitDecode s))

end Sys2Proof.Machine
end

