-- ==== Sys2Proof/Machine/Dispatch.lean ====
section
/-! DEFINITION. What the engine step does for each command (10_state.md R51): the command's rule and its
completion. -/

namespace Sys2Proof.Machine

def exec (i : Instr) (s : State) : Host.Outcome State Fault Refusal :=
  match i with
  | .nop => Sys2Proof.Machine.execNop s
  | .encode => Sys2Proof.Machine.execEncode s
  | .decode => Sys2Proof.Machine.execDecode s
  | .cscFwd => Sys2Proof.Machine.execCscFwd s
  | .dctFwd ch nx ny => Sys2Proof.Machine.execDctFwd ch nx ny s
  | .quant => Sys2Proof.Machine.execQuant s
  | .pack => Sys2Proof.Machine.execPack s
  | .unpack => Sys2Proof.Machine.execUnpack s
  | .dequant => Sys2Proof.Machine.execDequant s
  | .size => Sys2Proof.Machine.execSize s
  | .dctInv ch => Sys2Proof.Machine.execDctInv ch s
  | .cscInv => Sys2Proof.Machine.execCscInv s

end Sys2Proof.Machine
end

