-- ==== Sys2Proof/WellFormed.lean ====
section
/-! DEFINITION. Which commands a command word can carry (30_encoding.md R100): NX and NY are 3-bit
fields. An extent of 0 is well formed, "refused by the command with PARAM_RANGE ..., not by the decoder"
(30_encoding.md R102). -/

namespace Sys2Proof

/-- A number fits the 3-bit field it is written in (30_encoding.md R100). -/
def fitsExtentField (n : Nat) : Bool := decide (n ≤ 7)

/-- The command fits the fields of its command word (30_encoding.md R100, R101). -/
def Instr.wf : Instr → Bool
  | .nop => true
  | .encode => true
  | .decode => true
  | .cscFwd => true
  | .dctFwd _ nx ny => fitsExtentField nx && fitsExtentField ny
  | .quant => true
  | .pack => true
  | .unpack => true
  | .dequant => true
  | .size => true
  | .dctInv _ => true
  | .cscInv => true

end Sys2Proof
end

