-- ==== Sys2Proof/Decode.lean ====
section
/-! DEFINITION. The command word: the decoder of 30_encoding.md R104, total on every 32-bit word and
refusing by name, and the encoder of R105. -/

namespace Sys2Proof

/-- The channel whose index is the CH field (30_encoding.md R100, R102). -/
def Channel.ofField (b : BitVec 2) : Channel :=
  match b.toNat with
  | 0 => .L
  | 1 => .P
  | 2 => .Q
  | _ => .A

/-- The CH field of a channel: its index of 00_scope.md R13. -/
def Channel.field : Channel → BitVec 2
  | .L => 0
  | .P => 1
  | .Q => 2
  | .A => 3

/-- Why a word is illegal (30_encoding.md R103); each reason is BAD_OPCODE (60_exceptions.md R255). -/
inductive IllegalWord where
  /-- OP is not one of the twelve values of R101. -/
  | unknownOp
  /-- A reserved bit of R100 is 1. -/
  | reservedBit
  /-- A field the command does not read is not 0. -/
  | unreadField
  deriving DecidableEq, Repr

/-- Bits [7:0], OP (30_encoding.md R100). -/
def opField (w : Word) : BitVec 8 := w.extractLsb' 0 8

/-- Bits [9:8], CH. -/
def chField (w : Word) : BitVec 2 := w.extractLsb' 8 2

/-- Bits [14:12], NX. -/
def nxField (w : Word) : BitVec 3 := w.extractLsb' 12 3

/-- Bits [18:16], NY. -/
def nyField (w : Word) : BitVec 3 := w.extractLsb' 16 3

/-- Every reserved bit of 30_encoding.md R100, [11:10], [15] and [31:19], is 0. -/
def reservedClear (w : Word) : Bool :=
  w.extractLsb' 10 2 == 0 && w.extractLsb' 15 1 == 0 && w.extractLsb' 19 13 == 0

/-- The fields a command does not read are 0: CH unless `readsCh`, NX and NY unless `readsExt`
(30_encoding.md R101). -/
def unreadClear (readsCh readsExt : Bool) (w : Word) : Bool :=
  (readsCh || chField w == 0) && (readsExt || (nxField w == 0 && nyField w == 0))

/-- The command of a known OP, and whether it reads CH, and NX with NY (30_encoding.md R101, R104). -/
def opRow (w : Word) : Option (Instr × Bool × Bool) :=
  match (opField w).toNat with
  | 0x00 => some (.nop, false, false)
  | 0x01 => some (.encode, false, false)
  | 0x02 => some (.decode, false, false)
  | 0x10 => some (.cscFwd, false, false)
  | 0x11 => some (.dctFwd (Channel.ofField (chField w)) (nxField w).toNat (nyField w).toNat, true, true)
  | 0x12 => some (.quant, false, false)
  | 0x13 => some (.pack, false, false)
  | 0x18 => some (.unpack, false, false)
  | 0x19 => some (.dequant, false, false)
  | 0x1A => some (.size, false, false)
  | 0x1B => some (.dctInv (Channel.ofField (chField w)), true, false)
  | 0x1C => some (.cscInv, false, false)
  | _ => none

/-- The decoder (30_encoding.md R103, R104). -/
def decodeWord (w : Word) : Except IllegalWord Instr :=
  match opRow w with
  | none => .error .unknownOp
  | some (i, readsCh, readsExt) =>
    if !reservedClear w then .error .reservedBit
    else if !unreadClear readsCh readsExt w then .error .unreadField
    else .ok i

/-- The operation code of a command (30_encoding.md R101). -/
def opOf : Instr → BitVec 8
  | .nop => 0x00
  | .encode => 0x01
  | .decode => 0x02
  | .cscFwd => 0x10
  | .dctFwd _ _ _ => 0x11
  | .quant => 0x12
  | .pack => 0x13
  | .unpack => 0x18
  | .dequant => 0x19
  | .size => 0x1A
  | .dctInv _ => 0x1B
  | .cscInv => 0x1C

/-- The word of a command from its fields, the reserved bits 0 (30_encoding.md R100). -/
def commandWord (op : BitVec 8) (ch : BitVec 2) (nx ny : BitVec 3) : Word :=
  (0#13 ++ ny) ++ (0#1 ++ nx) ++ ((0#2 ++ ch) ++ op)

/-- The encoder: `OP | c<<8 | nx<<12 | ny<<16` (30_encoding.md R105). -/
def encode (i : Instr) : Word :=
  match i with
  | .dctFwd ch nx ny => commandWord (opOf i) ch.field (BitVec.ofNat 3 nx) (BitVec.ofNat 3 ny)
  | .dctInv ch => commandWord (opOf i) ch.field 0 0
  | .nop | .encode | .decode | .cscFwd | .quant | .pack | .unpack | .dequant | .size | .cscInv =>
    commandWord (opOf i) 0 0 0

/-- A row of `spec/opcode_table.json`: the bits of `mask` decide, and must equal `match` (30_encoding.md
R104). -/
structure TableRow where
  matchBits : Word
  mask : Word
  deriving DecidableEq, Repr

/-- The word selects the row: `(w & mask) = match` (30_encoding.md R104). -/
def TableRow.selects (r : TableRow) (w : Word) : Bool := w &&& r.mask == r.matchBits

/-- The row of the opcode table that a command's words select, as the table gives it. -/
def tableRow : Instr → TableRow
  | .nop => ⟨0x00000000, 0xFFFFFFFF⟩
  | .encode => ⟨0x00000001, 0xFFFFFFFF⟩
  | .decode => ⟨0x00000002, 0xFFFFFFFF⟩
  | .cscFwd => ⟨0x00000010, 0xFFFFFFFF⟩
  | .dctFwd _ _ _ => ⟨0x00000011, 0xFFF88CFF⟩
  | .quant => ⟨0x00000012, 0xFFFFFFFF⟩
  | .pack => ⟨0x00000013, 0xFFFFFFFF⟩
  | .unpack => ⟨0x00000018, 0xFFFFFFFF⟩
  | .dequant => ⟨0x00000019, 0xFFFFFFFF⟩
  | .size => ⟨0x0000001A, 0xFFFFFFFF⟩
  | .dctInv _ => ⟨0x0000001B, 0xFFFFFCFF⟩
  | .cscInv => ⟨0x0000001C, 0xFFFFFFFF⟩

/-- The twelve rows of the opcode table, in its order. -/
def opcodeTable : List TableRow :=
  [tableRow .nop, tableRow .encode, tableRow .decode, tableRow .cscFwd, tableRow (.dctFwd .L 0 0),
   tableRow .quant, tableRow .pack, tableRow .unpack, tableRow .dequant, tableRow .size,
   tableRow (.dctInv .L), tableRow .cscInv]

/-- The host's reading of a table row's word: the low `nbits` bits of `w`, the bits above them 0, as one
32-bit command word. -/
def decodeTableWord (nbits w : Nat) : Option Instr :=
  (decodeWord (BitVec.ofNat 32 (w % 2 ^ nbits))).toOption

end Sys2Proof
end

