-- ==== Sys2Proof/Machine/Reset.lean ====
section
/-! DEFINITION. Power-on reset (70_reset_and_hazards.md R280) and soft reset (R283), with the store
elements that the rule of an abandoned command can write. -/

namespace Sys2Proof.Machine

/-! ## The elements a command's rule can write -/

/-- Elements of the stores: spans of `State.mem`, and the extents of coefficient records. -/
structure Footprint where
  spans : List Span
  exts : List Channel
  deriving DecidableEq, Repr

/-- No element. -/
def Footprint.none : Footprint := ⟨[], []⟩

/-- The elements of both. -/
def Footprint.union (f g : Footprint) : Footprint := ⟨f.spans ++ g.spans, f.exts ++ g.exts⟩

/-- DC, SCALE and the first `n` AC slots of record c (20_memory.md R80). -/
def recordSpans (c : Channel) (n : Nat) : List Span :=
  [⟨dcAddr c, dcAddr c + 0x10⟩, ⟨acAddr c 0, acAddr c n⟩]

/-- Plane c (20_memory.md R82). -/
def planeSpan (c : Channel) : Span := ⟨planeAddr c 0 0, planeAddr c 0 128⟩

/-- The store elements a unit command's rule can write: the outputs named in its pseudocode, with the channel
and the extents that the command gives and whatever the registers and the stores hold (70_reset_and_hazards.md
R283). Planes and PIXBUF are all of 128 by 128 pixels, NIB and HASHBUF go to the limits of 44_pack.md R202, and
the AC slots of a record to the count of its extents, above which no command writes (10_state.md R50): those of
DCT_FWD are in the command, those of DEQUANT up to 7 by 7 for L and fixed for P, Q and A. -/
def outputsOf (t : UnitCmd) : Footprint :=
  match t with
  | .cscFwd => ⟨[planeSpan .L, planeSpan .P, planeSpan .Q, planeSpan .A], []⟩
  | .dctFwd c nx ny => ⟨recordSpans c (countAc nx.toNat ny.toNat), [c]⟩
  | .quant => ⟨[⟨nibAddr 0, nibAddr 46⟩], []⟩
  | .pack => ⟨[⟨hashAddr 0, hashAddr 29⟩], []⟩
  | .unpack => ⟨[⟨nibAddr 0, nibAddr 46⟩], []⟩
  | .dequant =>
    ⟨recordSpans .L 27 ++ recordSpans .P 5 ++ recordSpans .Q 5 ++ recordSpans .A 14, [.L, .P, .Q, .A]⟩
  | .size => Footprint.none
  | .dctInv c => ⟨[planeSpan c], []⟩
  | .cscInv => ⟨[⟨pixAddr 0, pixAddr 65536⟩], []⟩

/-- The union over a sequence (70_reset_and_hazards.md R283). -/
def outputsOfAll (ts : List UnitCmd) : Footprint :=
  ts.foldr (fun t f => (outputsOf t).union f) Footprint.none

/-- The store elements a command's rule can write, for a composite every unit command of its pseudocode, with
the operands the pseudocode writes after it, with alpha or without (70_reset_and_hazards.md R283;
45_orchestrator.md R223, R224). ENCODE takes the extents of L from LEXT, so they are the widest here. -/
def footprint (i : Instr) : Footprint :=
  match i with
  | .nop => Footprint.none
  | .encode =>
    outputsOfAll [.cscFwd, .dctFwd .L 7 7, .dctFwd .P 3 3, .dctFwd .Q 3 3, .dctFwd .A 5 5, .quant, .pack]
  | .decode =>
    outputsOfAll [.unpack, .dequant, .size, .dctInv .L, .dctInv .P, .dctInv .Q, .dctInv .A, .cscInv]
  | .cscFwd => outputsOf .cscFwd
  | .dctFwd c nx ny => outputsOf (.dctFwd c (BitVec.ofNat 3 nx) (BitVec.ofNat 3 ny))
  | .quant => outputsOf .quant
  | .pack => outputsOf .pack
  | .unpack => outputsOf .unpack
  | .dequant => outputsOf .dequant
  | .size => outputsOf .size
  | .dctInv c => outputsOf (.dctInv c)
  | .cscInv => outputsOf .cscInv

/-- The store elements that the pending command's rule can write; an illegal word has no rule and "no other
effect" (60_exceptions.md R255). -/
def State.pendingFootprint (s : State) : Footprint :=
  match s.pending with
  | none => Footprint.none
  | some w =>
    match decodeWord w with
    | .error _ => Footprint.none
    | .ok i => footprint i

/-! ## Soft reset -/

/-- The extents a record holds once draw `d` made them unspecified. -/
def unspecifiedExt (d : Nat) (c : Channel) : Ext :=
  Ext.ofWord ((Config.unspecifiedByte d (recordAddr c + 0x10)).setWidth 32)

/-- The elements of `f` hold values of one new free draw (93_implementation_defined.md U6). -/
def State.unspecify (s : State) (f : Footprint) : State :=
  { s with
    mem := s.mem.forget f.spans
    abandoned := ⟨s.draws, f.spans⟩ :: s.abandoned
    ext := f.exts.foldl (fun e c => e.set c (unspecifiedExt s.draws c)) s.ext
    draws := s.draws + 1 }

/-- The first branch of the soft reset: a pending command is dropped, and what its rule can write becomes
unspecified. -/
def State.abandon (s : State) : State :=
  if s.busy then { s.unspecify s.pendingFootprint with pending := none } else s

/-- The registers at the values of 10_state.md R55. -/
def State.resetRegisters (s : State) : State :=
  { s with
    irqEn := State.reset.irqEn
    cmd := State.reset.cmd
    status := State.reset.status
    imgDim := State.reset.imgDim
    inLen := State.reset.inLen
    hashLen := State.reset.hashLen
    outBase := State.reset.outBase
    outDim := State.reset.outDim
    lext := State.reset.lext
    hdr24 := State.reset.hdr24
    hdr16 := State.reset.hdr16
    hdr8 := State.reset.hdr8
    nibCount := State.reset.nibCount }

/-- Soft reset, a write to CTRL with SRST = 1 (70_reset_and_hazards.md R283). -/
def State.softReset (s : State) : State := s.abandon.resetRegisters

/-! ## Power-on reset -/

/-- Power-on reset (70_reset_and_hazards.md R280): the values of 10_state.md R55, every store element
unspecified by a new free draw. The build parameters and what the world does next are no state of the
engine and stay. -/
def State.powerOn (s : State) : State :=
  { State.reset with
    params := s.params
    epoch := s.draws
    draws := s.draws + 1
    agenda := s.agenda }

end Sys2Proof.Machine
end

