-- ==== Sys2Proof/Machine/Port.lean ====
section
/-! DEFINITION. The host port: address map, reads and writes (20_memory.md R70 to R84). -/

namespace Sys2Proof.Machine

/-- The registers of 20_memory.md R72. -/
inductive Reg where
  | id
  | cfg
  | ctrl
  | cmd
  | status
  | imgDim
  | inLen
  | hashLen
  | outBase
  | outDim
  | lext
  | hdr24
  | hdr16
  | hdr8
  | nibCount
  deriving DecidableEq, Repr

/-- What an aligned mapped address reaches (20_memory.md R71). -/
inductive Target where
  /-- A register of R72. -/
  | reg (r : Reg)
  /-- The word of NX, NY and NAC of a coefficient record (R80). -/
  | size (c : Channel)
  /-- Four bytes of a store (R78 to R82). -/
  | store
  deriving DecidableEq, Repr

/-- The register at an offset of the register block; the offsets from 0x03C on are unmapped
(20_memory.md R72). -/
def regAt (off : Nat) : Option Reg :=
  if off = 0x00 then some .id
  else if off = 0x04 then some .cfg
  else if off = 0x08 then some .ctrl
  else if off = 0x0C then some .cmd
  else if off = 0x10 then some .status
  else if off = 0x14 then some .imgDim
  else if off = 0x18 then some .inLen
  else if off = 0x1C then some .hashLen
  else if off = 0x20 then some .outBase
  else if off = 0x24 then some .outDim
  else if off = 0x28 then some .lext
  else if off = 0x2C then some .hdr24
  else if off = 0x30 then some .hdr16
  else if off = 0x34 then some .hdr8
  else if off = 0x38 then some .nibCount
  else none

/-- The record whose size word stands at an address (20_memory.md R80). -/
def sizeAt (a : Nat) : Option Channel :=
  if a = 0x410 then some .L
  else if a = 0x510 then some .P
  else if a = 0x610 then some .Q
  else if a = 0x710 then some .A
  else none

/-- The target of an aligned address, `none` where it is unmapped (20_memory.md R71, R77). -/
def target (a : Nat) : Option Target :=
  if a < 0x100 then (regAt a).map .reg
  else
    match sizeAt a with
    | some c => some (.size c)
    | none => if inStore a then some .store else none

/-- ID (10_state.md R31). -/
def idWord : Word := 0x54480007

/-- A register as the host reads it; reserved bits read 0 (10_state.md R31 to R45, R54). -/
def State.readReg (s : State) : Reg → Word
  | .id => idWord
  | .cfg => s.params.cfgWord
  | .ctrl => s.ctrlWord
  | .cmd => s.cmd
  | .status => s.statusWord
  | .imgDim => s.imgDim.toWord
  | .inLen => s.inLen
  | .hashLen => s.hashLen.setWidth 32
  | .outBase => s.outBase.setWidth 32
  | .outDim => s.outDim.toWord
  | .lext => s.lext.toWord
  | .hdr24 => s.hdr24.setWidth 32
  | .hdr16 => s.hdr16.setWidth 32
  | .hdr8 => s.hdr8.setWidth 32
  | .nibCount => s.nibCount.setWidth 32

/-- A write to CTRL: a soft reset when SRST is 1, else IRQ_EN (10_state.md R34). -/
def State.writeCtrl (s : State) (w : Word) : State :=
  if w.getLsbD 1 then s.softReset else { s with irqEn := w.getLsbD 0 }

/-- A register as an accepted host write leaves it: each keeps its own bits (10_state.md R54), the
read-only ones none. -/
def State.writeReg (s : State) (w : Word) : Reg → State
  | .id => s
  | .cfg => s
  | .ctrl => s.writeCtrl w
  | .cmd => s.launch w
  | .status => s.acknowledge w
  | .imgDim => { s with imgDim := Dim.ofWord w }
  | .inLen => { s with inLen := w }
  | .hashLen => { s with hashLen := w.setWidth 6 }
  | .outBase => { s with outBase := w.setWidth 8 }
  | .outDim => { s with outDim := Dim.ofWord w }
  | .lext => { s with lext := Lext.ofWord w }
  | .hdr24 => { s with hdr24 := w.setWidth 24 }
  | .hdr16 => { s with hdr16 := w.setWidth 16 }
  | .hdr8 => { s with hdr8 := w.setWidth 8 }
  | .nibCount => s

/-- What a read of a target gives. -/
def State.readTarget (s : State) (a : Nat) : Target → Word
  | .reg r => s.readReg r
  | .size c => (s.ext.get c).toWord
  | .store => s.word a

/-- What an accepted write to a target does. -/
def State.writeTarget (s : State) (a : Nat) (w : Word) : Target → State
  | .reg r => s.writeReg w r
  | .size c => { s with ext := s.ext.set c (Ext.ofWord w) }
  | .store => { s with mem := s.mem.putWord a w }

/-- Read exactly while BUSY = 1: ID, CFG, CTRL, CMD and STATUS (20_memory.md R84). -/
def Target.readableBusy : Target → Bool
  | .reg r => r == .id || r == .cfg || r == .ctrl || r == .cmd || r == .status
  | .size _ => false
  | .store => false

/-- Written while BUSY = 1: CTRL and STATUS (20_memory.md R84). -/
def Target.writableBusy : Target → Bool
  | .reg r => r == .ctrl || r == .status
  | .size _ => false
  | .store => false

/-- The target of a transaction, `none` when it is misaligned or unmapped (20_memory.md R75, R77). -/
def reached (addr : Addr) : Option Target :=
  if addr.toNat % 4 = 0 then target addr.toNat else none

/-- The state with the port's answer. -/
def State.answer (s : State) (r : Response) : State := { s with resp := some r }

/-- The ERROR answer to a READ, rdata 0, no other change (20_memory.md R70). -/
def State.refuseRead (s : State) : State := s.answer ⟨some 0, .error⟩

/-- The ERROR answer to a WRITE, no other change (20_memory.md R70). -/
def State.refuseWrite (s : State) : State := s.answer ⟨none, .error⟩

/-- A READ (20_memory.md R70, R84). -/
def State.hostRead (s : State) (addr : Addr) : State :=
  match reached addr with
  | none => s.refuseRead
  | some t =>
    if s.busy && !t.readableBusy then
      { s with draws := s.draws + 1 }.answer ⟨some (Config.busyReadWord s.draws addr.toNat), .okay⟩
    else s.answer ⟨some (s.readTarget addr.toNat t), .okay⟩

/-- A WRITE (20_memory.md R70, R84). -/
def State.hostWrite (s : State) (addr : Addr) (data : Word) : State :=
  match reached addr with
  | none => s.refuseWrite
  | some t =>
    if s.busy && !t.writableBusy then s.refuseWrite
    else (s.writeTarget addr.toNat data t).answer ⟨none, .okay⟩

/-- One transaction of the host port (20_memory.md R70). -/
def State.transact (s : State) : Request → State
  | .read addr => s.hostRead addr
  | .write addr data => s.hostWrite addr data

end Sys2Proof.Machine
end

