-- ==== Sys2Proof/Machine/Engine.lean ====
section
/-! DEFINITION. The agents: the engine's command step (10_state.md R51), and one action of the total order
of 20_memory.md R85. -/

namespace Sys2Proof.Machine

/-- The engine step: the pending command performed, an illegal word completed with BAD_OPCODE
(60_exceptions.md R255). Without a pending command "no other engine step exists" (10_state.md R51). -/
def engineStep (s : State) : Host.Outcome State Fault Refusal :=
  match s.pending with
  | none => .next s
  | some w =>
    match decodeWord w with
    | .error _ => .next (s.complete (.error .badOpcode))
    | .ok i => exec i s

/-- One action of the host, the engine or the reset input. -/
def act (a : Action) (s : State) : Host.Outcome State Fault Refusal :=
  match a with
  | .host r => .next (s.transact r)
  | .engine => engineStep s
  | .powerOn => .next s.powerOn

/-- The state with `w` accepted as the pending command and nothing due before the engine step. -/
def State.withPending (s : State) (w : Word) : State :=
  { s.launch w with
    agenda := match s.agenda with
      | [] => []
      | a :: rest => .engine :: a :: rest }

end Sys2Proof.Machine
end

