-- ==== Sys2Proof/Machine/Step.lean ====
section
/-! DEFINITION. One step of the machine: the next action that `State.agenda` names. When none is left the
engine takes its step, so that it takes it eventually (70_reset_and_hazards.md R292); an idle engine then
waits (10_state.md R55). -/

namespace Sys2Proof.Machine

def step (s : State) : Host.Outcome State Fault Refusal :=
  match s.agenda with
  | [] => engineStep s
  | a :: rest => act a { s with agenda := rest }

/-- The table word `w` of `nbits` bits launched, as the accepted CMD write of 10_state.md R51 leaves it,
the engine step next. -/
def State.withFetchWord (s : State) (nbits w : Nat) : State :=
  s.withPending (BitVec.ofNat 32 (w % 2 ^ nbits))

end Sys2Proof.Machine
end

