-- ==== Sys2Proof/Safety.lean ====
section
/-! DEFINITION. What the claims are stated in: the outcomes of a command, the invariant of the machine, and
the reading of a binary64 as a rational. -/

namespace Sys2Proof.Machine

/-- The state with a command completed without error and nothing else changed (60_exceptions.md R258). -/
def State.succeeded (s : State) : State :=
  { s with pending := none, status := ⟨true, false, 0⟩ }

/-- The state with a command completed with an error code and nothing else changed (60_exceptions.md R253,
R258). -/
def State.raised (s : State) (code : BitVec 4) : State :=
  { s with pending := none, status := ⟨true, true, code⟩ }

/-- The reset and engine actions aside: a host transaction that performs no soft reset (10_state.md R34). -/
def Request.noSoftReset : Request → Bool
  | .read _ => true
  | .write addr data => !(addr.toNat == 0x008 && data.getLsbD 1)

/-- STATUS is as some launch or completion, and the acknowledgements after it, leave it: ERR_CODE is 0
exactly when ERR is 0, and is one of the codes 0 to 5 (10_state.md R35, 60_exceptions.md R250). -/
def Status.legal (st : Status) : Bool :=
  (st.err == (st.errCode != 0)) && decide (st.errCode.toNat ≤ 5)

/-- Every listed byte lies in a store (20_memory.md R88). -/
def Memory.inStores (m : Memory) : Bool := m.all fun c => inStore c.1

/-- Every listed byte of NIB is a nibble (20_memory.md R79). -/
def Memory.nibbles (m : Memory) : Bool := m.all fun c => maskAt c.1 c.2 == c.2

/-- The invariant of the machine. -/
structure State.Inv (s : State) : Prop where
  /-- The memory is in its canonical form. -/
  sorted : s.mem.wf = true
  /-- No byte outside the stores is listed. -/
  inStores : s.mem.inStores = true
  /-- NIB holds nibbles. -/
  nibbles : s.mem.nibbles = true
  /-- STATUS is legal. -/
  status : s.status.legal = true
  /-- A pending command is the word in CMD, with DONE, ERR and ERR_CODE clear (10_state.md R51). -/
  pending : ∀ w, s.pending = some w → s.cmd = w ∧ s.status = ⟨false, false, 0⟩
  /-- The draws that made the stores unspecified are behind the counter of draws. -/
  fresh : s.epoch < s.draws
  freshAbandoned : ∀ v ∈ s.abandoned, v.draw < s.draws

end Sys2Proof.Machine

namespace Sys2Proof

/-- The rational a finite binary64 stands for. -/
def F64.value (x : F64) : ℚ := (if x.neg? then -1 else 1) * (x.mant : ℚ) * (2 : ℚ) ^ x.expo

end Sys2Proof
end

