-- ==== Sys2Proof/Certificates/Slice0/Obligations.lean ====
section
/-! DEFINITION. The statements about the engine. Each names the rule of the spec it formalises; where a
statement speaks of a free value it holds for every value of it. Where a clause rests on the model's own
choice, its docstring says so. -/

open Sys2Proof Sys2Proof.Machine

/-! ## Encoding -/

/-- Words the spec writes out (30_encoding.md R105, 95_test_vectors.md 2.1) decode to their commands, and
the illegal ones are refused for the reason it gives. -/
def Obligations.SpecWordsDecode : Prop :=
  decodeWord 0x00000000 = .ok .nop ∧ decodeWord 0x00000001 = .ok .encode ∧
  decodeWord 0x00000002 = .ok .decode ∧ decodeWord 0x00000010 = .ok .cscFwd ∧
  decodeWord 0x00077011 = .ok (.dctFwd .L 7 7) ∧ decodeWord 0x00033111 = .ok (.dctFwd .P 3 3) ∧
  decodeWord 0x00033211 = .ok (.dctFwd .Q 3 3) ∧ decodeWord 0x00055311 = .ok (.dctFwd .A 5 5) ∧
  decodeWord 0x00047011 = .ok (.dctFwd .L 7 4) ∧ decodeWord 0x00001011 = .ok (.dctFwd .L 1 0) ∧
  decodeWord 0x00000012 = .ok .quant ∧ decodeWord 0x00000013 = .ok .pack ∧
  decodeWord 0x00000018 = .ok .unpack ∧ decodeWord 0x00000019 = .ok .dequant ∧
  decodeWord 0x0000001A = .ok .size ∧ decodeWord 0x0000011B = .ok (.dctInv .P) ∧
  decodeWord 0x0000031B = .ok (.dctInv .A) ∧ decodeWord 0x0000001C = .ok .cscInv ∧
  decodeWord 0x00000003 = .error .unknownOp ∧ decodeWord 0x00000110 = .error .unreadField ∧
  decodeWord 0x00087011 = .error .reservedBit ∧ decodeWord 0x80000001 = .error .reservedBit

/-- Decoding the word of a well-formed command gives it back (30_encoding.md R104, R105). -/
def Obligations.DecodeOfEncode : Prop := ∀ i : Instr, i.wf = true → decodeWord (encode i) = .ok i

/-- A legal word is the word of the command it decodes to, which is well formed: no two words mean the same
command (30_encoding.md R104, R105). -/
def Obligations.EncodeOfDecode : Prop :=
  ∀ (w : Word) (i : Instr), decodeWord w = .ok i → encode i = w ∧ i.wf = true

/-- The decoding procedure, total on every word, and its agreement with the opcode table (30_encoding.md
R104). -/
def Obligations.DecodeFollowsProcedure : Prop :=
  ∀ w : Word,
    let op : BitVec 8 := w.extractLsb' 0 8
    let free : Option Word :=
      if op = 0x11 then some 0x00077300
      else if op = 0x1B then some 0x00000300
      else if op ∈ [0x00, 0x01, 0x02, 0x10, 0x12, 0x13, 0x18, 0x19, 0x1A, 0x1C] then some 0
      else none
    let legal : Prop := ∃ f, free = some f ∧ w &&& ~~~f &&& 0xFFFFFF00 = 0
    ((∃ i, decodeWord w = .ok i) ↔ legal) ∧
    (¬legal → opcodeTable.filter (·.selects w) = []) ∧
    ∀ i, decodeWord w = .ok i →
      opOf i = op ∧
      (∀ c nx ny, i = .dctFwd c nx ny → chanIndex c = (w.extractLsb' 8 2).toNat ∧
        nx = (w.extractLsb' 12 3).toNat ∧ ny = (w.extractLsb' 16 3).toNat) ∧
      (∀ c, i = .dctInv c → chanIndex c = (w.extractLsb' 8 2).toNat) ∧
      (∀ f, free = some f → tableRow i = ⟨op.setWidth 32, ~~~f⟩) ∧
      opcodeTable.filter (·.selects w) = [tableRow i]

/-! ## The step -/

/-- A step with a pending command performs the command its word decodes to: `step` is `exec` of it, once the
model's own agenda has come to the engine (10_state.md R51). That an empty agenda lets the engine step at once
is the model's choice among the moments 70_reset_and_hazards.md R292 allows (notes/assumptions/1.md). -/
def Obligations.StepRunsDecodedCommand : Prop :=
  ∀ (s : State) (w : Word) (i : Instr), s.pending = some w → decodeWord w = .ok i →
    (s.agenda = [] → step s = exec i s) ∧
    (∀ rest, s.agenda = .engine :: rest → step s = exec i { s with agenda := rest })

/-- An illegal word is accepted into CMD and launched, and the engine step completes it with BAD_OPCODE and
changes nothing else, whatever the operands hold (60_exceptions.md R255). -/
def Obligations.IllegalWordCompletesWithBadOpcode : Prop :=
  ∀ (s : State) (w : Word) (e : IllegalWord) (rest : List Action),
    decodeWord w = .error e → s.pending = none →
    s.agenda = .host (.write 0x0000C w) :: .engine :: rest →
    ∃ s₁, step s = .next s₁ ∧ s₁.cmd = w ∧ s₁.busy = true ∧
      step s₁ = .next { s with
        cmd := w
        status := ⟨true, true, 4⟩
        agenda := rest
        resp := some ⟨none, .okay⟩ }

/-- No step stops the machine, and no step changes the build parameters that CFG reports: every command
terminates and every transaction is answered (45_orchestrator.md R226, 20_memory.md R70, 10_state.md R32).
The agenda, from which a step takes its action, is the model's own. -/
def Obligations.EveryStepAnswersNext : Prop :=
  ∀ s : State, ∃ t, step s = .next t ∧ t.params = s.params ∧ t.readReg .cfg = s.readReg .cfg ∧
    t.agenda = s.agenda.tail

/-- Every step keeps the invariant of the machine: the memory canonical and inside the stores, nibbles in
NIB, a legal STATUS, the pending command in CMD. -/
def Obligations.StepKeepsInvariant : Prop :=
  ∀ s t : State, s.Inv → step s = .next t → t.Inv

/-- The invariant holds after power-on reset. -/
def Obligations.ResetMeetsInvariant : Prop := State.reset.Inv

/-- Host transactions between a launch and the engine step cannot change what the command does: they leave
it the same operands and the same result. Only a soft reset abandons it (20_memory.md R84, R85). The count
of draws is the model's own. -/
def Obligations.PendingCommandIsUndisturbed : Prop :=
  ∀ (s t : State) (i : Instr) (rs : List Request), s.busy = true → (∀ r ∈ rs, r.noSoftReset = true) →
    exec i s = .next t →
    ∃ u, exec i (rs.foldl State.transact s) = .next u ∧
      u = { t with irqEn := u.irqEn, draws := u.draws, resp := u.resp }

/-- A pending command completes after finitely many host transactions, if no reset comes first
(70_reset_and_hazards.md R292): here at the latest when the agenda, the model's own, is used up. -/
def Obligations.PendingCommandCompletes : Prop :=
  ∀ s : State, s.busy = true → (∀ a ∈ s.agenda, ∃ r, a = .host r ∧ r.noSoftReset = true) →
    ∃ t : State, core.run (s.agenda.length + 1) s = .next t ∧ t.busy = false ∧ t.status.done = true ∧
      t.cmd = s.cmd

/-! ## Completion and errors -/

/-- The end of every command: BUSY 0, DONE 1, ERR exactly when the code is not 0, the code one of 0 to 5;
CMD keeps the word, the interrupt enable stays (60_exceptions.md R258, R250). -/
def Obligations.CommandsComplete : Prop :=
  ∀ (i : Instr) (s : State), ∃ t, exec i s = .next t ∧ t.busy = false ∧ t.status.done = true ∧
    (t.status.err = true ↔ t.status.errCode ≠ 0) ∧ t.status.errCode.toNat ≤ 5 ∧
    t.cmd = s.cmd ∧ t.irqEn = s.irqEn ∧ t.irq = s.irqEn

/-- A command that raises writes no store and no register but STATUS, and raises the same error when it is
retried (60_exceptions.md R253). -/
def Obligations.NoPartialResult : Prop :=
  ∀ (i : Instr) (s t : State), exec i s = .next t → t.status.err = true →
    t = { s with pending := none, status := t.status } ∧
    ∃ t', exec i t = .next t' ∧ t' = t

/-- The registers that no command writes: CTRL, CMD, IMG_DIM, IN_LEN and OUT_BASE (10_state.md R33, R34,
R36, R37, R39), and the model's own fields. -/
def Obligations.CommandsLeaveHostRegisters : Prop :=
  ∀ (i : Instr) (s t : State), exec i s = .next t →
    t.irqEn = s.irqEn ∧ t.cmd = s.cmd ∧ t.imgDim = s.imgDim ∧ t.inLen = s.inLen ∧
    t.outBase = s.outBase ∧ t.params = s.params ∧ t.epoch = s.epoch ∧ t.abandoned = s.abandoned ∧
    t.draws = s.draws ∧
    t.agenda = s.agenda ∧ t.resp = s.resp

/-! ## NOP and SIZE -/

/-- NOP (45_orchestrator.md R220). -/
def Obligations.NopOnlyCompletes : Prop :=
  decodeWord 0x00000000 = .ok .nop ∧
  ∀ s : State, exec .nop s = .next { s with pending := none, status := ⟨true, false, 0⟩ } ∧
    s.succeeded.statusWord = 0x00000002

/-- SIZE: its word, its errors in their order, and the output size (45_orchestrator.md R221, R222). -/
def Obligations.SizeComputesOutDim : Prop :=
  decodeWord 0x0000001A = .ok .size ∧
  ∀ s : State,
    let alpha := s.hdr24.getLsbD 23
    let count := (s.hdr16.extractLsb' 0 3).toNat
    let land := s.hdr16.getLsbD 15
    let base := s.outBase.toNat
    (count = 0 → exec .size s = .next (s.raised 2)) ∧
    (count ≠ 0 → base < 1 ∨ base > 128 → exec .size s = .next (s.raised 3)) ∧
    (count ≠ 0 → 1 ≤ base → base ≤ 128 →
      let lim := if alpha then 5 else 7
      let lx := if land then lim else count
      let ly := if land then count else lim
      let ow := if lx > ly then base else max 1 ((2 * base * lx + ly) / (2 * ly))
      let oh := if lx > ly then max 1 ((2 * base * ly + lx) / (2 * lx)) else base
      exec .size s = .next { s.succeeded with outDim := ⟨BitVec.ofNat 16 ow, BitVec.ofNat 16 oh⟩ } ∧
      1 ≤ ow ∧ ow ≤ base ∧ 1 ≤ oh ∧ oh ≤ base ∧ max ow oh = base ∧ (lx = ly → ow = base ∧ oh = base))

/-! ## The colour converter -/

/-- CSC_FWD: its word, its errors in their order, the planes, LEXT, and its frame (41_color.md R141, R143
to R146). -/
def Obligations.CscFwdConverts : Prop :=
  decodeWord 0x00000010 = .ok .cscFwd ∧
  ∀ s : State,
    let W := s.imgDim.w.toNat
    let H := s.imgDim.h.toNat
    (s.inLen.toNat ≠ W * H * 4 → exec .cscFwd s = .next (s.raised 1)) ∧
    (s.inLen.toNat = W * H * 4 → W < 1 ∨ W > 128 ∨ H < 1 ∨ H > 128 →
      exec .cscFwd s = .next (s.raised 3)) ∧
    (s.inLen.toNat = W * H * 4 → 1 ≤ W → W ≤ 128 → 1 ≤ H → H ≤ 128 →
      let n := W * H
      let v : Nat → Nat → F64 := fun i j => (F64.ofNat (s.pix (4 * i + j))).div F64.twoFiftyFive
      let sA := (List.range n).foldl (fun acc i => acc.add (v i 3)) F64.zero
      let sum : Nat → F64 := fun j =>
        (List.range n).foldl (fun acc i => acc.add ((v i 3).mul (v i j))) F64.zero
      let avg : Nat → F64 := fun j => if F64.zero.lt sA then (sum j).div sA else F64.zero
      let comp : Nat → Nat → F64 := fun i j =>
        ((avg j).mul (F64.one.sub (v i 3))).add ((v i 3).mul (v i j))
      let alpha := sA.lt (F64.ofNat n)
      let lim := if alpha then 5 else 7
      let M := max W H
      ∃ t, exec .cscFwd s = .next t ∧
        (∀ x y, x < W → y < H →
          let i := y * W + x
          t.plane .L x y = (((comp i 0).add (comp i 1)).add (comp i 2)).div F64.three ∧
          t.plane .P x y = (((comp i 0).add (comp i 1)).div F64.two).sub (comp i 2) ∧
          t.plane .Q x y = (comp i 0).sub (comp i 1) ∧
          t.plane .A x y = v i 3) ∧
        t.lext.lx.toNat = max 1 ((2 * lim * W + M) / (2 * M)) ∧
        t.lext.ly.toNat = max 1 ((2 * lim * H + M) / (2 * M)) ∧
        1 ≤ t.lext.lx.toNat ∧ t.lext.lx.toNat ≤ 7 ∧ 1 ≤ t.lext.ly.toNat ∧ t.lext.ly.toNat ≤ 7 ∧
        (W ≥ H → t.lext.lx.toNat = lim) ∧ (H ≥ W → t.lext.ly.toNat = lim) ∧
        t.lext.hasAlpha = alpha ∧ t.lext.landscape = decide (W > H) ∧
        t = { s.succeeded with lext := t.lext, mem := t.mem } ∧
        ∀ a, (∀ c x y, x < W → y < H → ¬(planeAddr c x y ≤ a ∧ a < planeAddr c x y + 8)) →
          t.byte a = s.byte a)

/-- CSC_INV: its word, its error, the bytes of every output pixel, and its frame (41_color.md R150 to
R152). -/
def Obligations.CscInvConverts : Prop :=
  decodeWord 0x0000001C = .ok .cscInv ∧
  ∀ s : State,
    let OW := s.outDim.w.toNat
    let OH := s.outDim.h.toNat
    (OW < 1 ∨ OW > 128 ∨ OH < 1 ∨ OH > 128 → exec .cscInv s = .next (s.raised 3)) ∧
    (1 ≤ OW → OW ≤ 128 → 1 ≤ OH → OH ≤ 128 →
      let conv : F64 → Nat := fun v =>
        let w := if v.isNaN ∨ v.lt F64.zero then F64.zero else if F64.one.lt v then F64.one else v
        if s.params.pixConv = .trunc then (F64.twoFiftyFive.mul w).floorMag
        else (F64.twoFiftyFive.mul w).roundMag
      ∃ t, exec .cscInv s = .next t ∧
        (∀ x y, x < OW → y < OH →
          let i := y * OW + x
          let l := s.plane .L x y
          let p := s.plane .P x y
          let q := s.plane .Q x y
          let a := if s.hdr24.getLsbD 23 then s.plane .A x y else F64.one
          let b := l.sub (F64.twoThirds.mul p)
          let r := (((F64.three.mul l).sub b).add q).div F64.two
          let g := r.sub q
          t.pix (4 * i) = conv r ∧ t.pix (4 * i + 1) = conv g ∧ t.pix (4 * i + 2) = conv b ∧
          t.pix (4 * i + 3) = conv a ∧ (s.hdr24.getLsbD 23 = false → t.pix (4 * i + 3) = 255)) ∧
        t = { s.succeeded with mem := t.mem } ∧
        ∀ a, (∀ i, i < 4 * OW * OH → a ≠ pixAddr i) → t.byte a = s.byte a)

/-- HAS_ALPHA is set exactly when some pixel has an alpha byte below 255: a normalised alpha is 1.0 exactly
for 255, and the rounding error of the sum is below 2^-24 (41_color.md R142). -/
def Obligations.HasAlphaIffSomePixelTransparent : Prop :=
  ∀ (s : State) (n : Nat), 1 ≤ n → n ≤ 16384 →
    let a : Nat → F64 := fun i => (F64.ofNat (s.pix (4 * i + 3))).div F64.twoFiftyFive
    let sA := (List.range n).foldl (fun acc i => acc.add (a i)) F64.zero
    (∀ i, (a i).value ≤ 1 ∧ (a i = F64.one ↔ s.pix (4 * i + 3) = 255)) ∧
    |sA.value - ((List.range n).map fun i => (s.pix (4 * i + 3) : ℚ) / 255).sum| < 1 / 2 ^ 24 ∧
    (sA.lt (F64.ofNat n) = true ↔ ∃ i, i < n ∧ s.pix (4 * i + 3) < 255)

/-! ## The DCT engine -/

/-- The retained frequency pairs: exactly those of the predicate, in the order of an outer loop over cy and
an inner loop over cx, (0, 0) first (42_dct.md R161). -/
def Obligations.RetainedPairsInOrder : Prop :=
  ∀ nx ny : Nat,
    (∀ cx cy, (cx, cy) ∈ pairs nx ny ↔ cx < nx ∧ cy < ny ∧ cx * ny + cy * nx < nx * ny) ∧
    (pairs nx ny).Pairwise (fun p q => p.2 < q.2 ∨ (p.2 = q.2 ∧ p.1 < q.1)) ∧
    (1 ≤ nx → 1 ≤ ny → pairs nx ny = (0, 0) :: acPairs nx ny)

/-- The counts of 42_dct.md R162: its sum formula, its table by rows ny = 1 to 7, and their symmetry. -/
def Obligations.CountAcTable : Prop :=
  (∀ nx ∈ [1, 2, 3, 4, 5, 6, 7], ∀ ny ∈ [1, 2, 3, 4, 5, 6, 7],
    countAc nx ny = ((List.range ny).map fun cy => (nx * (ny - cy) + ny - 1) / ny).sum - 1 ∧
    countAc nx ny = countAc ny nx ∧ countAc nx ny ≤ 27) ∧
  ([1, 2, 3, 4, 5, 6, 7].map fun ny => [1, 2, 3, 4, 5, 6, 7].map fun nx => countAc nx ny) =
    [[0, 1, 2, 3, 4, 5, 6], [1, 2, 4, 5, 7, 8, 10], [2, 4, 5, 8, 10, 11, 14], [3, 5, 8, 9, 13, 15, 18],
     [4, 7, 10, 13, 14, 19, 22], [5, 8, 11, 15, 19, 20, 26], [6, 10, 14, 18, 22, 26, 27]]

/-- The basis term of every frequency is the cosine of the argument 42_dct.md R160 writes out, with the
constants of 00_scope.md R11 by their encodings. For frequency 0 the argument is +0.0, of which the cosine is
1.0; nothing else is known of the cosine. -/
def Obligations.BasisIsCosineOfArgument : Prop :=
  let pi64 : F64 := ⟨0x400921FB54442D18⟩
  let half : F64 := ⟨0x3FE0000000000000⟩
  let one : F64 := ⟨0x3FF0000000000000⟩
  F64.cos ⟨0⟩ = one ∧
  ∀ d p k : Nat, 1 ≤ d → d ≤ 128 → p < d → k ≤ 6 →
    let arg := ((pi64.div (F64.ofNat d)).mul ((F64.ofNat p).add half)).mul (F64.ofNat k)
    basis d p k = arg.cos ∧ (k = 0 → arg = ⟨0⟩ ∧ basis d p k = one)

/-- DCT_FWD: its words, its errors in their order, the record it writes, and its frame (42_dct.md R164 to
R166). -/
def Obligations.DctFwdTransforms : Prop :=
  ∀ (c : Channel) (nx ny : Nat), nx ≤ 7 → ny ≤ 7 →
    decodeWord (BitVec.ofNat 32 (0x11 + chanIndex c * 2 ^ 8 + nx * 2 ^ 12 + ny * 2 ^ 16)) =
      .ok (.dctFwd c nx ny) ∧
    ∀ s : State,
      let W := s.imgDim.w.toNat
      let H := s.imgDim.h.toNat
      (W < 1 ∨ W > 128 ∨ H < 1 ∨ H > 128 → exec (.dctFwd c nx ny) s = .next (s.raised 3)) ∧
      (nx < 1 ∨ ny < 1 → exec (.dctFwd c nx ny) s = .next (s.raised 3)) ∧
      (1 ≤ W → W ≤ 128 → 1 ≤ H → H ≤ 128 → 1 ≤ nx → 1 ≤ ny →
        let F : Nat → Nat → F64 := fun cx cy =>
          ((List.range H).foldl (fun f y => (List.range W).foldl (fun f x =>
            f.add (((s.plane c x y).mul (basis W x cx)).mul (basis H y cy))) f) F64.zero).div
            (F64.ofNat (W * H))
        let fs := (acPairs nx ny).map fun p => F p.1 p.2
        let scale := fs.foldl (fun m f => if m.lt f.abs then f.abs else m) F64.zero
        ∃ t, exec (.dctFwd c nx ny) s = .next t ∧
          t.dc c = F 0 0 ∧ t.scale c = scale ∧
          (∀ j f, fs[j]? = some f → t.ac c j =
            if F64.zero.lt scale then F64.half.add (F64.half.mul (f.div scale)) else f) ∧
          (t.ext.get c).nac.toNat = countAc nx ny ∧
          t = { s.succeeded with
            ext := s.ext.set c ⟨BitVec.ofNat 3 nx, BitVec.ofNat 3 ny⟩
            mem := t.mem } ∧
          ∀ a, ¬(dcAddr c ≤ a ∧ a < dcAddr c + 8) → ¬(scaleAddr c ≤ a ∧ a < scaleAddr c + 8) →
            (∀ j, j < countAc nx ny → ¬(acAddr c j ≤ a ∧ a < acAddr c j + 8)) → t.byte a = s.byte a)

/-- The renormalised AC values lie in [0, 1] when every raw value is finite (42_dct.md R165). -/
def Obligations.RenormalizedInUnitInterval : Prop :=
  ∀ (fs : List F64) (f : F64), (∀ g ∈ fs, g.isFinite = true) → f ∈ fs →
    F64.zero.lt (scaleOf fs) = true →
    (renormalize (scaleOf fs) f).isFinite = true ∧
    0 ≤ (renormalize (scaleOf fs) f).value ∧ (renormalize (scaleOf fs) f).value ≤ 1

/-- DCT_INV: its words, its errors in their order, the plane it writes, and its frame (42_dct.md R167,
R168). -/
def Obligations.DctInvTransforms : Prop :=
  ∀ c : Channel,
    decodeWord (BitVec.ofNat 32 (0x1B + chanIndex c * 2 ^ 8)) = .ok (.dctInv c) ∧
    ∀ s : State,
      let OW := s.outDim.w.toNat
      let OH := s.outDim.h.toNat
      let nx := (s.ext.get c).nx.toNat
      let ny := (s.ext.get c).ny.toNat
      (OW < 1 ∨ OW > 128 ∨ OH < 1 ∨ OH > 128 → exec (.dctInv c) s = .next (s.raised 3)) ∧
      (1 ≤ OW → OW ≤ 128 → 1 ≤ OH → OH ≤ 128 → nx < 1 ∨ ny < 1 →
        exec (.dctInv c) s = .next (s.raised 5)) ∧
      (1 ≤ OW → OW ≤ 128 → 1 ≤ OH → OH ≤ 128 → 1 ≤ nx → 1 ≤ ny →
        let g := if s.params.gain = .unit then F64.one
          else if c = .P ∨ c = .Q then F64.twoAndHalf else F64.two
        let G : Nat → Nat → F64 := fun x y =>
          ((acPairs nx ny).zipIdx).foldl (fun v p =>
            v.add (((s.ac c p.2).mul (basis OW x p.1.1)).mul ((basis OH y p.1.2).mul g))) (s.dc c)
        ∃ t, exec (.dctInv c) s = .next t ∧
          (∀ x y, x < OW → y < OH → t.plane c x y = G x y) ∧
          t = { s.succeeded with mem := t.mem } ∧
          ∀ a, (∀ x y, x < OW → y < OH → ¬(planeAddr c x y ≤ a ∧ a < planeAddr c x y + 8)) →
            t.byte a = s.byte a)

/-! ## The quantizer -/

/-- `Qk` (00_scope.md R14): the rounded value clamped, an infinity to its end, a NaN to 0. -/
def Obligations.QuantizeClamps : Prop :=
  ∀ (k : Nat) (v : F64),
    (v.isFinite = true → v.quantize k = (min (2 ^ k - 1) (max 0 v.roundInt)).toNat) ∧
    (v.isInf = true → v.neg? = false → v.quantize k = 2 ^ k - 1) ∧
    (v.isInf = true → v.neg? = true → v.quantize k = 0) ∧
    (v.isNaN = true → v.quantize k = 0) ∧
    v.quantize k ≤ 2 ^ k - 1

/-- QUANT: its word, its errors, the header registers and nibbles it writes, and its frame (43_quant.md
R181, R183, R184). -/
def Obligations.QuantQuantizes : Prop :=
  decodeWord 0x00000012 = .ok .quant ∧
  ∀ s : State,
    let lx := s.lext.lx.toNat
    let ly := s.lext.ly.toNat
    let alpha := s.lext.hasAlpha
    let land := s.lext.landscape
    let lim := if alpha then 5 else 7
    let floor := if s.params.floor = .one then 1 else 3
    let has : Channel → Nat → Nat → Prop := fun c nx ny =>
      (s.ext.get c).nx.toNat = nx ∧ (s.ext.get c).ny.toNat = ny
    let lextBad : Prop := lx < 1 ∨ ly < 1 ∨ (land = true ∧ lx ≠ lim) ∨ (land = false ∧ ly ≠ lim)
    let recordBad : Prop := ¬has .L (max floor lx) (max floor ly) ∨ ¬has .P 3 3 ∨ ¬has .Q 3 3 ∨
      (alpha = true ∧ ¬has .A 5 5)
    (lextBad ∨ recordBad → exec .quant s = .next (s.raised 5)) ∧
    (¬lextBad → ¬recordBad →
      let nL := countAc (max floor lx) (max floor ly)
      let n := nL + 10 + if alpha then 14 else 0
      ∃ t, exec .quant s = .next t ∧
        (t.hdr24.extractLsb' 0 6).toNat = (F64.sixtyThree.mul (s.dc .L)).quantize 6 ∧
        (t.hdr24.extractLsb' 6 6).toNat =
          (F64.thirtyOneAndHalf.add (F64.thirtyOneAndHalf.mul (s.dc .P))).quantize 6 ∧
        (t.hdr24.extractLsb' 12 6).toNat =
          (F64.thirtyOneAndHalf.add (F64.thirtyOneAndHalf.mul (s.dc .Q))).quantize 6 ∧
        (t.hdr24.extractLsb' 18 5).toNat = (F64.thirtyOne.mul (s.scale .L)).quantize 5 ∧
        t.hdr24.getLsbD 23 = alpha ∧
        (t.hdr16.extractLsb' 0 3).toNat = (if land then ly else lx) ∧
        (t.hdr16.extractLsb' 3 6).toNat = (F64.sixtyThree.mul (s.scale .P)).quantize 6 ∧
        (t.hdr16.extractLsb' 9 6).toNat = (F64.sixtyThree.mul (s.scale .Q)).quantize 6 ∧
        t.hdr16.getLsbD 15 = land ∧
        (alpha = true → (t.hdr8.extractLsb' 0 4).toNat = (F64.fifteen.mul (s.dc .A)).quantize 4 ∧
          (t.hdr8.extractLsb' 4 4).toNat = (F64.fifteen.mul (s.scale .A)).quantize 4) ∧
        (alpha = false → t.hdr8 = 0) ∧
        (∀ j, j < nL → t.nib j = (F64.fifteen.mul (s.ac .L j)).quantize 4) ∧
        (∀ j, j < 5 → t.nib (nL + j) = (F64.fifteen.mul (s.ac .P j)).quantize 4) ∧
        (∀ j, j < 5 → t.nib (nL + 5 + j) = (F64.fifteen.mul (s.ac .Q j)).quantize 4) ∧
        (alpha = true → ∀ j, j < 14 → t.nib (nL + 10 + j) = (F64.fifteen.mul (s.ac .A j)).quantize 4) ∧
        t.nibCount.toNat = n ∧
        t = { s.succeeded with
          hdr24 := t.hdr24
          hdr16 := t.hdr16
          hdr8 := t.hdr8
          nibCount := t.nibCount
          mem := t.mem } ∧
        ∀ a, (∀ k, k < n → a ≠ nibAddr k) → t.byte a = s.byte a)

/-- DEQUANT: its word, its error, the records it writes, and its frame (43_quant.md R182, R185). -/
def Obligations.DequantDequantizes : Prop :=
  decodeWord 0x00000019 = .ok .dequant ∧
  ∀ s : State,
    let lx := s.lext.lx.toNat
    let ly := s.lext.ly.toNat
    let alpha := s.hdr24.getLsbD 23
    let floor := if s.params.floor = .one then 1 else 3
    (lx < 1 ∨ ly < 1 → exec .dequant s = .next (s.raised 5)) ∧
    (1 ≤ lx → 1 ≤ ly →
      let nL := countAc (max floor lx) (max floor ly)
      let f : Nat → F64 := F64.ofNat
      let acOf : F64 → Nat → F64 := fun scale n =>
        (((f n).div F64.sevenAndHalf).sub F64.one).mul scale
      let sL := (f (s.hdr24.extractLsb' 18 5).toNat).div F64.thirtyOne
      let sP := (f (s.hdr16.extractLsb' 3 6).toNat).div F64.sixtyThree
      let sQ := (f (s.hdr16.extractLsb' 9 6).toNat).div F64.sixtyThree
      let sA := (f (s.hdr8.extractLsb' 4 4).toNat).div F64.fifteen
      ∃ t, exec .dequant s = .next t ∧
        t.ext = { l := ⟨BitVec.ofNat 3 (max floor lx), BitVec.ofNat 3 (max floor ly)⟩
                  p := ⟨3, 3⟩
                  q := ⟨3, 3⟩
                  a := if alpha then ⟨5, 5⟩ else s.ext.a } ∧
        t.dc .L = (f (s.hdr24.extractLsb' 0 6).toNat).div F64.sixtyThree ∧
        t.dc .P = ((f (s.hdr24.extractLsb' 6 6).toNat).div F64.thirtyOneAndHalf).sub F64.one ∧
        t.dc .Q = ((f (s.hdr24.extractLsb' 12 6).toNat).div F64.thirtyOneAndHalf).sub F64.one ∧
        t.scale .L = sL ∧ t.scale .P = sP ∧ t.scale .Q = sQ ∧
        (∀ j, j < nL → t.ac .L j = acOf sL (s.nib j)) ∧
        (∀ j, j < 5 → t.ac .P j = acOf sP (s.nib (nL + j))) ∧
        (∀ j, j < 5 → t.ac .Q j = acOf sQ (s.nib (nL + 5 + j))) ∧
        (alpha = true → t.dc .A = (f (s.hdr8.extractLsb' 0 4).toNat).div F64.fifteen ∧
          t.scale .A = sA ∧ ∀ j, j < 14 → t.ac .A j = acOf sA (s.nib (nL + 10 + j))) ∧
        t = { s.succeeded with ext := t.ext, mem := t.mem } ∧
        ∀ a, (∀ c, c = .A → alpha = true →
            ¬(dcAddr c ≤ a ∧ a < dcAddr c + 16) ∧ ¬(acAddr c 0 ≤ a ∧ a < acAddr c 14)) →
          (∀ c, c = .P ∨ c = .Q →
            ¬(dcAddr c ≤ a ∧ a < dcAddr c + 16) ∧ ¬(acAddr c 0 ≤ a ∧ a < acAddr c 5)) →
          ¬(dcAddr .L ≤ a ∧ a < dcAddr .L + 16) → ¬(acAddr .L 0 ≤ a ∧ a < acAddr .L nL) →
          t.byte a = s.byte a)

/-! ## The bit-packer and unpacker -/

/-- The limits of every hash (44_pack.md R202), and the lengths and counts of 44_pack.md R201 for each
P_FLOOR, each alpha flag, both orientations and the counts 1 to 7. -/
def Obligations.LayoutTable : Prop :=
  ∀ land : Bool,
    let row : FloorChoice → Bool → List (Nat × Nat × Nat) := fun floor alpha =>
      [1, 2, 3, 4, 5, 6, 7].map fun count =>
        let l := layout ⟨floor, .trunc, .unit⟩ alpha count land
        (l.nL, l.n, l.len)
    row .one false = [(6, 16, 13), (10, 20, 15), (14, 24, 17), (18, 28, 19), (22, 32, 21), (26, 36, 23),
      (27, 37, 24)] ∧
    row .one true = [(4, 28, 20), (7, 31, 22), (10, 34, 23), (13, 37, 25), (14, 38, 25), (19, 43, 28),
      (22, 46, 29)] ∧
    row .three false = [(14, 24, 17), (14, 24, 17), (14, 24, 17), (18, 28, 19), (22, 32, 21),
      (26, 36, 23), (27, 37, 24)] ∧
    row .three true = [(10, 34, 23), (10, 34, 23), (10, 34, 23), (13, 37, 25), (14, 38, 25), (19, 43, 28),
      (22, 46, 29)]

/-- PACK: its word, its error, the hash it writes, and its frame (44_pack.md R203, 30_encoding.md R115,
R118). -/
def Obligations.PackWritesHash : Prop :=
  decodeWord 0x00000013 = .ok .pack ∧
  ∀ s : State,
    let alpha := s.hdr24.getLsbD 23
    let count := (s.hdr16.extractLsb' 0 3).toNat
    let land := s.hdr16.getLsbD 15
    let floor := if s.params.floor = .one then 1 else 3
    let lim := if alpha then 5 else 7
    let nL := if land then countAc (max floor lim) (max floor count)
      else countAc (max floor count) (max floor lim)
    let n := nL + 10 + if alpha then 14 else 0
    let hb := if alpha then 6 else 5
    let len := hb + (n + 1) / 2
    (count = 0 → exec .pack s = .next (s.raised 2)) ∧
    (count ≠ 0 →
      ∃ t, exec .pack s = .next t ∧
        t.hash 0 = s.hdr24.extractLsb' 0 8 ∧ t.hash 1 = s.hdr24.extractLsb' 8 8 ∧
        t.hash 2 = s.hdr24.extractLsb' 16 8 ∧ t.hash 3 = s.hdr16.extractLsb' 0 8 ∧
        t.hash 4 = s.hdr16.extractLsb' 8 8 ∧ (alpha = true → t.hash 5 = s.hdr8) ∧
        (∀ k, k < n → ((t.hash (hb + k / 2)).toNat >>> (4 * (k % 2))) % 16 = s.nib k) ∧
        (n % 2 = 1 → (t.hash (len - 1)).toNat < 16) ∧
        t.hashLen.toNat = len ∧ t.nibCount.toNat = n ∧
        t = { s.succeeded with hashLen := t.hashLen, nibCount := t.nibCount, mem := t.mem } ∧
        ∀ a, (∀ i, i < len → a ≠ hashAddr i) → t.byte a = s.byte a)

/-- UNPACK: its word, its errors in their order, the registers and nibbles it writes, and its frame
(44_pack.md R204, R205). -/
def Obligations.UnpackReadsHash : Prop :=
  decodeWord 0x00000018 = .ok .unpack ∧
  ∀ s : State,
    let len := s.hashLen.toNat
    let alpha := (s.hash 2).getLsbD 7
    let count := ((s.hash 3).extractLsb' 0 3).toNat
    let land := (s.hash 4).getLsbD 7
    let floor := if s.params.floor = .one then 1 else 3
    let lim := if alpha then 5 else 7
    let lx := if land then lim else count
    let ly := if land then count else lim
    let nL := countAc (max floor lx) (max floor ly)
    let n := nL + 10 + if alpha then 14 else 0
    let hb := if alpha then 6 else 5
    let need := hb + (n + 1) / 2
    (len > 32 → exec .unpack s = .next (s.raised 3)) ∧
    (len ≤ 32 → len < 5 ∨ (alpha = true ∧ len < 6) ∨ count = 0 ∨ len < need →
      exec .unpack s = .next (s.raised 2)) ∧
    (len ≤ 32 → 5 ≤ len → (alpha = true → 6 ≤ len) → count ≠ 0 → need ≤ len →
      ∃ t, exec .unpack s = .next t ∧
        t.hdr24.toNat = (s.hash 0).toNat + (s.hash 1).toNat * 2 ^ 8 + (s.hash 2).toNat * 2 ^ 16 ∧
        t.hdr16.toNat = (s.hash 3).toNat + (s.hash 4).toNat * 2 ^ 8 ∧
        t.hdr8 = (if alpha then s.hash 5 else 0) ∧
        (∀ k, k < n → t.nib k = ((s.hash (hb + k / 2)).toNat >>> (4 * (k % 2))) % 16) ∧
        t.nibCount.toNat = n ∧
        t.lext.lx.toNat = lx ∧ t.lext.ly.toNat = ly ∧ t.lext.hasAlpha = alpha ∧
        t.lext.landscape = land ∧
        t = { s.succeeded with
          hdr24 := t.hdr24
          hdr16 := t.hdr16
          hdr8 := t.hdr8
          nibCount := t.nibCount
          lext := t.lext
          mem := t.mem } ∧
        ∀ a, (∀ k, k < n → a ≠ nibAddr k) → t.byte a = s.byte a)

/-- PACK followed by UNPACK restores the header registers and the nibbles, for every header with a count
that is not 0 and with HDR8 = 0 when it has no alpha (44_pack.md R203). -/
def Obligations.UnpackOfPack : Prop :=
  ∀ s : State, s.fieldLCount ≠ 0 → (s.fieldHasAlpha = false → s.hdr8 = 0) →
    ∃ t u, exec .pack s = .next t ∧ exec .unpack t = .next u ∧ u.status = ⟨true, false, 0⟩ ∧
      u.hdr24 = s.hdr24 ∧ u.hdr16 = s.hdr16 ∧ u.hdr8 = s.hdr8 ∧
      u.nibCount = t.nibCount ∧ ∀ k, k < u.nibCount.toNat → u.nib k = s.nib k

/-- The header is faithful: after a QUANT that succeeds, PACK and UNPACK succeed and LEXT is what it was
(43_quant.md R184). -/
def Obligations.HeaderGivesExtentsBack : Prop :=
  ∀ s t u v : State, exec .quant s = .next t → t.status.err = false → exec .pack t = .next u →
    exec .unpack u = .next v →
    u.status.err = false ∧ v.status.err = false ∧ v.lext = s.lext ∧ v.nibCount = t.nibCount

/-! ## The composites -/

/-- ENCODE: its word, its errors in their order, and otherwise the sequence of its unit commands, none of
which raises; the length of the hash is in 13 to 25 (45_orchestrator.md R223, R225). -/
def Obligations.EncodeIsItsSequence : Prop :=
  decodeWord 0x00000001 = .ok .encode ∧
  ∀ s : State,
    let W := s.imgDim.w.toNat
    let H := s.imgDim.h.toNat
    (s.inLen.toNat ≠ W * H * 4 → exec .encode s = .next (s.raised 1)) ∧
    (s.inLen.toNat = W * H * 4 → W < 1 ∨ W > 128 ∨ H < 1 ∨ H > 128 →
      exec .encode s = .next (s.raised 3)) ∧
    (s.inLen.toNat = W * H * 4 → 1 ≤ W → W ≤ 128 → 1 ≤ H → H ≤ 128 →
      let floor := if s.params.floor = .one then 1 else 3
      ∃ s₁ s₂ s₃ s₄ s₅ s₆ t,
        exec .cscFwd s = .next s₁ ∧ s₁.status.err = false ∧
        exec (.dctFwd .L (max floor s₁.lext.lx.toNat) (max floor s₁.lext.ly.toNat)) s₁ = .next s₂ ∧
        s₂.status.err = false ∧
        exec (.dctFwd .P 3 3) s₂ = .next s₃ ∧ s₃.status.err = false ∧
        exec (.dctFwd .Q 3 3) s₃ = .next s₄ ∧ s₄.status.err = false ∧
        (if s₁.lext.hasAlpha then exec (.dctFwd .A 5 5) s₄ = .next s₅ else s₅ = s₄) ∧
        s₅.status.err = false ∧
        exec .quant s₅ = .next s₆ ∧ s₆.status.err = false ∧
        exec .pack s₆ = .next t ∧ t.status.err = false ∧
        exec .encode s = .next t ∧ 13 ≤ t.hashLen.toNat ∧ t.hashLen.toNat ≤ 25)

/-- DECODE: its word, its errors in their order, and otherwise the sequence of its unit commands, none of
which raises (45_orchestrator.md R224, R225). -/
def Obligations.DecodeIsItsSequence : Prop :=
  decodeWord 0x00000002 = .ok .decode ∧
  ∀ s : State,
    let base := s.outBase.toNat
    (∀ e, s.hashCheck = some e → exec .decode s = .next (s.raised e.code) ∧
      exec .unpack s = .next (s.raised e.code)) ∧
    (s.hashCheck = none → base < 1 ∨ base > 128 → exec .decode s = .next (s.raised 3)) ∧
    (s.hashCheck = none → 1 ≤ base → base ≤ 128 →
      ∃ s₁ s₂ s₃ s₄ s₅ s₆ s₇ t,
        exec .unpack s = .next s₁ ∧ s₁.status.err = false ∧
        exec .dequant s₁ = .next s₂ ∧ s₂.status.err = false ∧
        exec .size s₂ = .next s₃ ∧ s₃.status.err = false ∧
        exec (.dctInv .L) s₃ = .next s₄ ∧ s₄.status.err = false ∧
        exec (.dctInv .P) s₄ = .next s₅ ∧ s₅.status.err = false ∧
        exec (.dctInv .Q) s₅ = .next s₆ ∧ s₆.status.err = false ∧
        (if s₁.hdr24.getLsbD 23 then exec (.dctInv .A) s₆ = .next s₇ else s₇ = s₆) ∧
        s₇.status.err = false ∧
        exec .cscInv s₇ = .next t ∧ t.status.err = false ∧
        exec .decode s = .next t ∧
        (∀ i, i < 32 → t.hash i = s.hash i) ∧ t.hashLen = s.hashLen)

/-- DECODE of the hash ENCODE just wrote succeeds for every output base in range, and its size has the
aspect of the image (45_orchestrator.md R227 items 2, 4 and 5). -/
def Obligations.DecodeOfEncodeSucceeds : Prop :=
  ∀ s : State,
    let W := s.imgDim.w.toNat
    let H := s.imgDim.h.toNat
    let base := s.outBase.toNat
    s.inLen.toNat = W * H * 4 → 1 ≤ W → W ≤ 128 → 1 ≤ H → H ≤ 128 → 1 ≤ base → base ≤ 128 →
    ∃ t u, exec .encode s = .next t ∧ t.status.err = false ∧
      exec .decode t = .next u ∧ u.status.err = false ∧
      1 ≤ u.outDim.w.toNat ∧ 1 ≤ u.outDim.h.toNat ∧
      max u.outDim.w.toNat u.outDim.h.toNat = base ∧
      (W = H → u.outDim.w.toNat = base ∧ u.outDim.h.toNat = base) ∧
      (W > H → u.outDim.w.toNat = base) ∧ (H > W → u.outDim.h.toNat = base)

/-- ENCODE is a pure function of IMG_DIM, IN_LEN, the image and the parameters (45_orchestrator.md R223,
R227 item 3): two states that agree on these get the same outcome, and the same hash where they succeed,
whatever else they hold. -/
def Obligations.EncodeIsPure : Prop :=
  ∀ s s' t t' : State, s.params = s'.params → s.imgDim = s'.imgDim → s.inLen = s'.inLen →
    (∀ i, i < 4 * (s.imgDim.w.toNat * s.imgDim.h.toNat) → s.pix i = s'.pix i) →
    exec .encode s = .next t → exec .encode s' = .next t' →
    t.status = t'.status ∧
    (t.status.err = false →
      t.hashLen = t'.hashLen ∧ (∀ i, i < t.hashLen.toNat → t.hash i = t'.hash i) ∧
      t.hdr24 = t'.hdr24 ∧ t.hdr16 = t'.hdr16 ∧ t.hdr8 = t'.hdr8 ∧ t.lext = t'.lext ∧
      t.nibCount = t'.nibCount ∧ ∀ k, k < t.nibCount.toNat → t.nib k = t'.nib k)

/-- DECODE is a pure function of the hash, its length, OUT_BASE and the parameters (45_orchestrator.md R224,
R227 item 3). -/
def Obligations.DecodeIsPure : Prop :=
  ∀ s s' t t' : State, s.params = s'.params → s.hashLen = s'.hashLen → s.outBase = s'.outBase →
    (∀ i, i < s.hashLen.toNat → s.hash i = s'.hash i) →
    exec .decode s = .next t → exec .decode s' = .next t' →
    t.status = t'.status ∧
    (t.status.err = false →
      t.outDim = t'.outDim ∧
      ∀ i, i < 4 * (t.outDim.w.toNat * t.outDim.h.toNat) → t.pix i = t'.pix i)

/-! ## Arithmetic -/

/-- Every operation on finite values rounds the exact result to nearest, of two equally near to the one whose
encoding is even, and gives an infinity of the exact result's sign exactly from the overflow threshold on;
`f64(n)` is exact (00_scope.md R7, R11). -/
def Obligations.ArithmeticIsCorrectlyRounded : Prop :=
  let correct : F64 → ℚ → Prop := fun r v =>
    (r.isFinite = true ↔ |v| < 2 ^ 1024 - 2 ^ 970) ∧
    (r.isFinite = false → r.isInf = true ∧ (r.neg? = true ↔ v < 0)) ∧
    (r.isFinite = true → ∀ z : F64, z.isFinite = true →
      |r.value - v| ≤ |z.value - v| ∧
      (|z.value - v| = |r.value - v| → z.value ≠ r.value → r.bits.getLsbD 0 = false))
  (∀ x y : F64, x.isFinite = true → y.isFinite = true →
    correct (x.add y) (x.value + y.value) ∧ correct (x.sub y) (x.value - y.value) ∧
    correct (x.mul y) (x.value * y.value) ∧ (y.value ≠ 0 → correct (x.div y) (x.value / y.value))) ∧
  ∀ n : Nat, n < 2 ^ 53 → (F64.ofNat n).isFinite = true ∧ (F64.ofNat n).value = n

/-- `round(v)` is an integer nearest to the value, and of two equally near the one farther from zero; for
`v ≥ 0` it is `floor(v + 1/2)` (00_scope.md R12). -/
def Obligations.RoundsHalvesAwayFromZero : Prop :=
  ∀ x : F64, x.isFinite = true →
    |(x.roundInt : ℚ) - x.value| ≤ 1 / 2 ∧
    (|(x.roundInt : ℚ) - x.value| = 1 / 2 → |x.value| < |(x.roundInt : ℚ)|) ∧
    (0 ≤ x.value → x.roundInt = ⌊x.value + 1 / 2⌋)

/-- The IEEE 754 default results where correct rounding does not say them: on a NaN, an infinity or a zero
divisor, and the sign of a product, of a quotient and of a zero sum (60_exceptions.md R266, 00_scope.md R11).
The NaN an operation gives is some NaN. -/
def Obligations.SpecialResults : Prop :=
  let inf : Bool → F64 := fun negative => ⟨if negative then 0xFFF0000000000000 else 0x7FF0000000000000⟩
  let zero : Bool → F64 := fun negative => ⟨if negative then 0x8000000000000000 else 0⟩
  ∀ x y : F64,
    let sign := x.neg? != y.neg?
    (x.isNaN = true ∨ y.isNaN = true → (x.add y).isNaN = true ∧ (x.sub y).isNaN = true ∧
      (x.mul y).isNaN = true ∧ (x.div y).isNaN = true) ∧
    (x.isInf = true → x = inf x.neg?) ∧
    (x.isInf = true → y.isInf = true →
      (x.neg? = y.neg? → x.add y = x ∧ (x.sub y).isNaN = true) ∧
      (x.neg? ≠ y.neg? → (x.add y).isNaN = true ∧ x.sub y = x) ∧
      x.mul y = inf sign ∧ (x.div y).isNaN = true) ∧
    (x.isInf = true → y.isFinite = true →
      x.add y = x ∧ y.add x = x ∧ x.sub y = x ∧ y.sub x = inf (!x.neg?) ∧
      (y.value = 0 → (x.mul y).isNaN = true ∧ (y.mul x).isNaN = true) ∧
      (y.value ≠ 0 → x.mul y = inf sign ∧ y.mul x = inf sign) ∧
      x.div y = inf sign ∧ y.div x = zero sign) ∧
    (x.isFinite = true → y.isFinite = true →
      (x.value + y.value = 0 → x.add y = zero (x.neg? && y.neg?)) ∧
      (x.value = y.value → x.sub y = zero (x.neg? && !y.neg?)) ∧
      (x.mul y).neg? = sign ∧
      (y.value ≠ 0 → (x.div y).neg? = sign) ∧
      (y.value = 0 → x.value = 0 → (x.div y).isNaN = true) ∧
      (y.value = 0 → x.value ≠ 0 → x.div y = inf sign))

/-- CONV: floor and rounding are those of the exact value of a binary64; the clamped product is in 0 to 255
for every value, a NaN among them, and P_PIXCONV says which of the two it becomes (41_color.md R151, with
`fmin01` of 00_scope.md R11). -/
def Obligations.ConvertStaysInByte : Prop :=
  (∀ x : F64, x.isFinite = true → 0 ≤ x.value →
    (x.floorMag : ℤ) = ⌊x.value⌋ ∧ (x.roundMag : ℤ) = ⌊x.value + 1 / 2⌋) ∧
  ∀ v : F64,
    let w := if v.isNaN ∨ v.lt F64.zero then F64.zero else if F64.one.lt v then F64.one else v
    let x := F64.twoFiftyFive.mul w
    v.fmin01 = w ∧ x.isFinite = true ∧ 0 ≤ x.value ∧ x.value ≤ 255 ∧
    ((convert .trunc v).toNat : ℤ) = ⌊x.value⌋ ∧ ((convert .round v).toNat : ℤ) = ⌊x.value + 1 / 2⌋

/-! ## Reset -/

/-- The state after power-on reset: every register at the value of 10_state.md R55, no pending command, IRQ
0, and every store element unspecified, a free draw as R56 allows (notes/assumptions/4.md). -/
def Obligations.ResetValues : Prop :=
  State.reset.readReg .id = 0x54480007 ∧ State.reset.readReg .cfg = 0x00008001 ∧
  State.reset.readReg .ctrl = 0 ∧ State.reset.readReg .cmd = 0 ∧ State.reset.readReg .status = 0 ∧
  State.reset.readReg .imgDim = 0 ∧ State.reset.readReg .inLen = 0 ∧ State.reset.readReg .hashLen = 0 ∧
  State.reset.readReg .outDim = 0 ∧ State.reset.readReg .lext = 0 ∧ State.reset.readReg .hdr24 = 0 ∧
  State.reset.readReg .hdr16 = 0 ∧ State.reset.readReg .hdr8 = 0 ∧ State.reset.readReg .nibCount = 0 ∧
  State.reset.readReg .outBase = 32 ∧
  (∀ c, (State.reset.ext.get c).nx = 0 ∧ (State.reset.ext.get c).ny = 0 ∧
    (State.reset.ext.get c).nac = 0) ∧
  State.reset.pending = none ∧ State.reset.irq = false ∧ State.reset.busy = false ∧
  ∀ a, State.reset.byte a = maskAt a (Config.unspecifiedByte State.reset.epoch a)

/-- Power-on reset from any state: the registers at their reset values, any pending command gone without
completing, IRQ 0, every store element unspecified by a draw no other byte has come from
(70_reset_and_hazards.md R280). The reset is one pulse, the model's choice (notes/assumptions/12.md); the build
parameters, the agenda and the draws are no state of the engine. -/
def Obligations.PowerOnResets : Prop :=
  ∀ (s : State) (rest : List Action), s.agenda = .powerOn :: rest →
    ∃ t, step s = .next t ∧ t.pending = none ∧ t.irq = false ∧
      (∀ a, t.byte a = maskAt a (Config.unspecifiedByte s.draws a)) ∧
      t = { State.reset with
        params := s.params
        epoch := s.draws
        draws := s.draws + 1
        agenda := rest }

/-- Soft reset (70_reset_and_hazards.md R283): CTRL written with SRST = 1 is accepted whether or not BUSY =
1; the registers get their reset values; when no command is pending the stores keep their contents; when one
is pending it is dropped, and every element its rule can write becomes unspecified, a free value of one new
draw, NX and NY of the records among them, and nothing else changes. Which elements these are says
CommandsWriteOnlyTheirFootprint, in the model's reading (notes/assumptions/5.md); a reading of the model too is
that IRQ_EN is 0 after a word with SRST and IRQ_EN both 1 (notes/assumptions/16.md). -/
def Obligations.SoftResetAbandons : Prop :=
  ∀ (s : State) (w : Word), w.getLsbD 1 = true →
    ∃ t, s.transact (.write 0x00008 w) = t ∧ t.resp = some ⟨none, .okay⟩ ∧
      t = { State.reset with
        params := s.params
        ext := t.ext
        mem := t.mem
        epoch := s.epoch
        abandoned := t.abandoned
        draws := t.draws
        agenda := s.agenda
        resp := t.resp } ∧
      (s.busy = false → t.ext = s.ext ∧ t.mem = s.mem ∧ t.abandoned = s.abandoned ∧ t.draws = s.draws) ∧
      (s.busy = true → t.draws = s.draws + 1) ∧
      (∀ a, inSpans s.pendingFootprint.spans a = false → t.byte a = s.byte a) ∧
      (∀ a, inSpans s.pendingFootprint.spans a = true →
        t.byte a = maskAt a (Config.unspecifiedByte s.draws a)) ∧
      (∀ c, c ∉ s.pendingFootprint.exts → t.ext.get c = s.ext.get c) ∧
      (∀ c, c ∈ s.pendingFootprint.exts → t.ext.get c = unspecifiedExt s.draws c)

/-- The store elements a soft reset of a pending command makes unspecified are the outputs that the pseudocode
of its rule names, with the channel and the extents of the command, for a composite the union over its sequence
with alpha or without (70_reset_and_hazards.md R283, at the bus addresses of 20_memory.md R78 to R82 and within
the limits of 10_state.md R50 and 44_pack.md R202; that registers and stores do not narrow them is the model's
reading, notes/assumptions/5.md); and no command writes an element outside them. -/
def Obligations.CommandsWriteOnlyTheirFootprint : Prop :=
  ∀ i : Instr,
    let hash : Nat → Prop := fun a => 0x100 ≤ a ∧ a < 0x100 + 29
    let nib : Nat → Prop := fun a => 0x200 ≤ a ∧ a < 0x200 + 46
    let record : Channel → Nat → Nat → Prop := fun c n a =>
      (0x400 + 0x100 * chanIndex c ≤ a ∧ a < 0x410 + 0x100 * chanIndex c) ∨
        (0x420 + 0x100 * chanIndex c ≤ a ∧ a < 0x420 + 0x100 * chanIndex c + 8 * n)
    let plane : Channel → Nat → Prop := fun c a =>
      0x20000 + 0x20000 * chanIndex c ≤ a ∧ a < 0x40000 + 0x20000 * chanIndex c
    let anyPlane : Nat → Prop := fun a => 0x20000 ≤ a ∧ a < 0xA0000
    let pix : Nat → Prop := fun a => 0x10000 ≤ a ∧ a < 0x20000
    let records : Nat → Prop := fun a => record .L 27 a ∨ record .P 5 a ∨ record .Q 5 a ∨ record .A 14 a
    let outputs : Nat → Prop :=
      match i with
      | .nop => fun _ => False
      | .size => fun _ => False
      | .encode => fun a => anyPlane a ∨ records a ∨ nib a ∨ hash a
      | .decode => fun a => nib a ∨ records a ∨ anyPlane a ∨ pix a
      | .cscFwd => anyPlane
      | .dctFwd c nx ny => record c (countAc (nx % 8) (ny % 8))
      | .quant => nib
      | .pack => hash
      | .unpack => nib
      | .dequant => records
      | .dctInv c => plane c
      | .cscInv => pix
    let extents : Channel → Prop :=
      match i with
      | .encode => fun _ => True
      | .decode => fun _ => True
      | .dequant => fun _ => True
      | .dctFwd c _ _ => fun d => d = c
      | .nop => fun _ => False
      | .size => fun _ => False
      | .cscFwd => fun _ => False
      | .quant => fun _ => False
      | .pack => fun _ => False
      | .unpack => fun _ => False
      | .dctInv _ => fun _ => False
      | .cscInv => fun _ => False
    (∀ a, inSpans (footprint i).spans a = true ↔ outputs a) ∧
    (∀ c, c ∈ (footprint i).exts ↔ extents c) ∧
    (∀ s : State, ∀ w, s.pending = some w → decodeWord w = .ok i → s.pendingFootprint = footprint i) ∧
    ∀ s t : State, exec i s = .next t →
      (∀ a, ¬outputs a → t.byte a = s.byte a) ∧ (∀ c, ¬extents c → t.ext.get c = s.ext.get c)

/-! ## The host port -/

/-- The address map: which aligned addresses are mapped, and that every other transaction, a misaligned one
too, is answered ERROR, a READ with data 0, and has no effect (20_memory.md R70, R71, R75, R77). The answer to
the last transaction is an output of the port. -/
def Obligations.AddressMap : Prop :=
  ∀ (s : State) (r : Request),
    let a := match r with
      | .read addr => addr.toNat
      | .write addr _ => addr.toNat
    let inRecord : Nat → Prop := fun o => o < 0x14 ∨ (0x20 ≤ o ∧ o < 0xF8)
    let mapped : Prop := a % 4 = 0 ∧
      (a < 0x3C ∨ (0x100 ≤ a ∧ a < 0x120) ∨ (0x200 ≤ a ∧ a < 0x240) ∨
        (0x400 ≤ a ∧ a < 0x800 ∧ inRecord (a % 0x100)) ∨ (0x10000 ≤ a ∧ a < 0x20000) ∨
        (0x20000 ≤ a ∧ a < 0xA0000))
    let isRead := match r with
      | .read _ => true
      | .write _ _ => false
    (¬mapped → s.transact r = { s with resp := some ⟨if isRead then some 0 else none, .error⟩ }) ∧
    (mapped → s.busy = false → ∃ d, (s.transact r).resp = some ⟨d, .okay⟩)

/-- Access while BUSY = 1 (20_memory.md R84): ID, CFG, CTRL, CMD and STATUS read as they are; any other
mapped address reads as a free value, with an OKAY answer and no effect; CTRL and STATUS are written; every
other write is answered ERROR and has no effect. The count of draws is the model's own. -/
def Obligations.BusyAccess : Prop :=
  ∀ (s : State) (addr : Addr) (t : Target) (w : Word), s.busy = true → reached addr = some t →
    (∀ r, t = .reg r → r ∈ [Reg.id, .cfg, .ctrl, .cmd, .status] →
      s.transact (.read addr) = { s with resp := some ⟨some (s.readReg r), .okay⟩ }) ∧
    ((∀ r, t = .reg r → r ∉ [Reg.id, .cfg, .ctrl, .cmd, .status]) →
      s.transact (.read addr) = { s with
        draws := s.draws + 1
        resp := some ⟨some (Config.busyReadWord s.draws addr.toNat), .okay⟩ }) ∧
    (t = .reg .ctrl →
      s.transact (.write addr w) = { s.writeCtrl w with resp := some ⟨none, .okay⟩ }) ∧
    (t = .reg .status →
      s.transact (.write addr w) = { s.acknowledge w with resp := some ⟨none, .okay⟩ }) ∧
    (t ≠ .reg .ctrl → t ≠ .reg .status →
      s.transact (.write addr w) = { s with resp := some ⟨none, .error⟩ })

/-- Reads have no side effect, and a read repeated at once gives the same (20_memory.md R83), while no
command is pending. -/
def Obligations.ReadsHaveNoSideEffect : Prop :=
  ∀ (s : State) (a b : Addr), s.busy = false →
    (∃ r, s.transact (.read a) = { s with resp := some r }) ∧
    ((s.transact (.read b)).transact (.read a)).resp = (s.transact (.read a)).resp

/-- A register the host writes while no command is pending answers a READ at its offset with the bits it has
(10_state.md R31 to R45, R54): its reserved bits read 0, the read-only registers keep their value, STATUS loses
the bits written as 1, and no other register, no record and no store changes. CTRL is written with SRST = 0; CMD
and the soft reset have statements of their own. -/
def Obligations.RegisterWriteReadsBack : Prop :=
  ∀ (s : State) (w : Word) (p : Reg × Addr × Word), s.busy = false →
    p ∈ [(Reg.id, 0x000, s.readReg .id), (.cfg, 0x004, s.readReg .cfg), (.ctrl, 0x008, w &&& 0x1),
      (.status, 0x010, s.readReg .status &&&
        ~~~((if w.getLsbD 1 then 0x02 else 0) ||| (if w.getLsbD 2 then 0xF4 else 0))),
      (.imgDim, 0x014, w), (.inLen, 0x018, w), (.hashLen, 0x01C, w &&& 0x3F), (.outBase, 0x020, w &&& 0xFF),
      (.outDim, 0x024, w), (.lext, 0x028, w &&& 0x377), (.hdr24, 0x02C, w &&& 0xFFFFFF),
      (.hdr16, 0x030, w &&& 0xFFFF), (.hdr8, 0x034, w &&& 0xFF), (.nibCount, 0x038, s.readReg .nibCount)] →
    (p.1 = .ctrl → w.getLsbD 1 = false) →
    ∃ t, s.transact (.write p.2.1 w) = t ∧ t.resp = some ⟨none, .okay⟩ ∧
      (t.transact (.read p.2.1)).resp = some ⟨some p.2.2, .okay⟩ ∧
      (∀ off : Nat, off < 0x40 → off ≠ p.2.1.toNat →
        (t.transact (.read (BitVec.ofNat 20 off))).resp = (s.transact (.read (BitVec.ofNat 20 off))).resp) ∧
      (∀ r, t.readReg r = if r = p.1 then p.2.2 else s.readReg r) ∧
      t.ext = s.ext ∧ t.mem = s.mem ∧ t.epoch = s.epoch ∧ t.abandoned = s.abandoned ∧ t.params = s.params ∧
      t.pending = none ∧ t.draws = s.draws ∧ t.agenda = s.agenda

/-- A word written to a store while no command is pending reads back, in NIB its low four bits of each byte;
its bytes are little-endian, and no other byte, register or record changes (20_memory.md R73, R78, R79,
R81). -/
def Obligations.StoreWordReadsBack : Prop :=
  ∀ (s : State) (addr : Addr) (w : Word), s.busy = false → reached addr = some .store →
    ∃ t, s.transact (.write addr w) = t ∧
      t = { s with mem := t.mem, resp := some ⟨none, .okay⟩ } ∧
      (∀ j, j < 4 → t.byte (addr.toNat + j) =
        if 0x200 ≤ addr.toNat ∧ addr.toNat < 0x240 then (w.extractLsb' (8 * j) 8) &&& 0x0F
        else w.extractLsb' (8 * j) 8) ∧
      (∀ a, ¬(addr.toNat ≤ a ∧ a < addr.toNat + 4) → t.byte a = s.byte a) ∧
      (t.transact (.read addr)).resp =
        some ⟨some (if 0x200 ≤ addr.toNat ∧ addr.toNat < 0x240 then w &&& 0x0F0F0F0F else w), .okay⟩

/-- A binary64 element of a plane or of a record stands in two words, the low one at the lower address; a
host that writes one of them changes only those 32 bits (20_memory.md R74, with the addresses of R80 and
R82). -/
def Obligations.Binary64InTwoWords : Prop :=
  ∀ (s : State) (c : Channel) (a : Nat) (e : State → F64) (w : Word), s.busy = false →
    ((∃ x y, x < 128 ∧ y < 128 ∧ a = 0x20000 + 0x20000 * chanIndex c + 8 * (y * 128 + x) ∧
        e = fun s => s.plane c x y) ∨
      (a = 0x400 + 0x100 * chanIndex c ∧ e = fun s => s.dc c) ∨
      (a = 0x408 + 0x100 * chanIndex c ∧ e = fun s => s.scale c) ∨
      (∃ j, j < 27 ∧ a = 0x420 + 0x100 * chanIndex c + 8 * j ∧ e = fun s => s.ac c j)) →
    let lo : Addr := BitVec.ofNat 20 a
    (e (s.transact (.write lo w))).bits = (e s).bits.extractLsb' 32 32 ++ w ∧
    (e (s.transact (.write (lo + 4) w))).bits = w ++ (e s).bits.extractLsb' 0 32 ∧
    (s.transact (.read lo)).resp = some ⟨some ((e s).bits.extractLsb' 0 32), .okay⟩ ∧
    (s.transact (.read (lo + 4))).resp = some ⟨some ((e s).bits.extractLsb' 32 32), .okay⟩

/-- The size word of a coefficient record: a write sets NX and NY and, through them, NAC, which is read-only
(20_memory.md R80, 10_state.md R50). Of NAC with one extent 0 the spec states no value; the model's is free. -/
def Obligations.RecordSizeWord : Prop :=
  ∀ (s : State) (c : Channel) (w : Word), s.busy = false →
    let addr : Addr := BitVec.ofNat 20 (0x410 + 0x100 * chanIndex c)
    let nx := (w.extractLsb' 0 3).toNat
    let ny := (w.extractLsb' 4 3).toNat
    ∃ t, s.transact (.write addr w) = t ∧
      t = { s with ext := s.ext.set c (t.ext.get c), resp := some ⟨none, .okay⟩ } ∧
      (t.ext.get c).nx.toNat = nx ∧ (t.ext.get c).ny.toNat = ny ∧
      (1 ≤ nx → 1 ≤ ny → (t.transact (.read addr)).resp =
        some ⟨some (BitVec.ofNat 32 (nx + ny * 2 ^ 4 + countAc nx ny * 2 ^ 8)), .okay⟩) ∧
      (nx = 0 → ny = 0 → (t.transact (.read addr)).resp = some ⟨some 0, .okay⟩)

/-- A write to CMD while no command is pending stores the word and launches it, BUSY 1 and DONE, ERR and
ERR_CODE 0, nothing else changed; while one is pending it is refused. A read gives the last word accepted; CMD
is 0 after reset, and no command writes it (10_state.md R33). -/
def Obligations.CmdWriteLaunches : Prop :=
  State.reset.cmd = 0 ∧ (∀ (i : Instr) (s t : State), exec i s = .next t → t.cmd = s.cmd) ∧
  ∀ (s : State) (w : Word),
    (s.pending = none → ∃ t, s.transact (.write 0x0000C w) = t ∧
      t = { s with
        cmd := w
        pending := some w
        status := ⟨false, false, 0⟩
        resp := some ⟨none, .okay⟩ } ∧
      t.statusWord = 0x00000001 ∧ (t.transact (.read 0x0000C)).resp = some ⟨some w, .okay⟩) ∧
    (s.pending ≠ none → s.transact (.write 0x0000C w) = { s with resp := some ⟨none, .error⟩ })

/-- Clearing a completion: a host write to STATUS of 1 in bit 1 clears DONE, of 1 in bit 2 ERR and ERR_CODE,
nothing else changes, whether or not a command is pending; the next launch clears all three, and is accepted
as soon as none is pending, whatever DONE and ERR are (60_exceptions.md R259, 10_state.md R35). -/
def Obligations.StatusWriteAcknowledges : Prop :=
  ∀ (s : State) (w : Word),
    (∃ t, s.transact (.write 0x00010 w) = t ∧
      t = { s with status := t.status, resp := some ⟨none, .okay⟩ } ∧
      t.status.done = (if w.getLsbD 1 then false else s.status.done) ∧
      t.status.err = (if w.getLsbD 2 then false else s.status.err) ∧
      t.status.errCode = (if w.getLsbD 2 then 0 else s.status.errCode)) ∧
    (s.busy = false → ∃ t, s.transact (.write 0x0000C w) = t ∧ t.resp = some ⟨none, .okay⟩ ∧
      t.busy = true ∧ t.status = ⟨false, false, 0⟩)

/-- The interrupt output: it is CTRL.IRQ_EN & STATUS.DONE; every completion raises it where it is enabled;
clearing DONE, launching a command, a soft reset and a power-on reset each clear it; setting IRQ_EN while
DONE = 1 raises it at once (60_exceptions.md R262). -/
def Obligations.InterruptFollowsDone : Prop :=
  ∀ s : State,
    s.irq = (s.irqEn && s.status.done) ∧
    (∀ i t, exec i s = .next t → t.irq = s.irqEn) ∧
    (∀ w : Word, w.getLsbD 1 = true → (s.transact (.write 0x00010 w)).irq = false) ∧
    (∀ w : Word, s.busy = false → (s.transact (.write 0x0000C w)).irq = false) ∧
    (∀ w : Word, w.getLsbD 1 = true → (s.transact (.write 0x00008 w)).irq = false) ∧
    s.powerOn.irq = false ∧
    (∀ w : Word, w.getLsbD 1 = false → (s.transact (.write 0x00008 w)).irq = (w.getLsbD 0 && s.status.done))

/-- A READ of a register at its offset (20_memory.md R72) answers its fields at their bits, the reserved bits 0,
and changes nothing (10_state.md R31 to R45, R54): every register while no command is pending, and ID, CFG,
CTRL, CMD and STATUS at any time (20_memory.md R84). -/
def Obligations.RegistersReadTheirFields : Prop :=
  ∀ (s : State) (p : Addr × Nat),
    p ∈ [(0x000, 0x54480007),
      (0x004, (if s.params.floor = .one then 1 else 3) + (if s.params.pixConv = .trunc then 0 else 1) * 2 ^ 4 +
        (if s.params.gain = .unit then 0 else 1) * 2 ^ 5 + 128 * 2 ^ 8),
      (0x008, s.irqEn.toNat),
      (0x00C, s.cmd.toNat),
      (0x010, s.busy.toNat + s.status.done.toNat * 2 + s.status.err.toNat * 2 ^ 2 +
        s.status.errCode.toNat * 2 ^ 4),
      (0x014, s.imgDim.w.toNat + s.imgDim.h.toNat * 2 ^ 16),
      (0x018, s.inLen.toNat),
      (0x01C, s.hashLen.toNat),
      (0x020, s.outBase.toNat),
      (0x024, s.outDim.w.toNat + s.outDim.h.toNat * 2 ^ 16),
      (0x028, s.lext.lx.toNat + s.lext.ly.toNat * 2 ^ 4 + s.lext.hasAlpha.toNat * 2 ^ 8 +
        s.lext.landscape.toNat * 2 ^ 9),
      (0x02C, s.hdr24.toNat),
      (0x030, s.hdr16.toNat),
      (0x034, s.hdr8.toNat),
      (0x038, s.nibCount.toNat)] →
    (s.busy = false ∨ p.1.toNat < 0x14) →
    s.transact (.read p.1) = { s with resp := some ⟨some (BitVec.ofNat 32 p.2), .okay⟩ }

/-! ## Comparison, magnitude and constants -/

/-- `a < b` is the order of the values, an infinity beyond every finite value and a NaN in no order; `|v|` is
the magnitude of the value with a clear sign bit, an infinity's +inf and a NaN's a NaN (00_scope.md R11). -/
def Obligations.ComparesAndTakesMagnitudes : Prop :=
  (∀ x y : F64,
    (x.isNaN = true ∨ y.isNaN = true → x.lt y = false) ∧
    (x.isFinite = true → y.isFinite = true → (x.lt y = true ↔ x.value < y.value)) ∧
    (x.isInf = true → y.isFinite = true → x.lt y = x.neg? ∧ y.lt x = !x.neg?) ∧
    (x.isInf = true → y.isInf = true → x.lt y = (x.neg? && !y.neg?))) ∧
  ∀ x : F64, x.abs.neg? = false ∧
    (x.isFinite = true → x.abs.isFinite = true ∧ x.abs.value = |x.value|) ∧
    (x.isInf = true → x.abs = ⟨0x7FF0000000000000⟩) ∧
    (x.isNaN = true → x.abs.isNaN = true)

/-- The constants of the pseudocode have the values their names say; TWO_THIRDS is `f64(2) ÷ f64(3)` and the
binary64 nearest to 2/3, PI64 is `0x400921FB54442D18` and the binary64 nearest to π (00_scope.md R11). -/
def Obligations.ConstantsHaveTheirValues : Prop :=
  F64.zero = ⟨0⟩ ∧
  (∀ p ∈ [(F64.zero, (0 : ℚ)), (F64.half, 1 / 2), (F64.one, 1), (F64.two, 2), (F64.twoAndHalf, 5 / 2),
      (F64.three, 3), (F64.sevenAndHalf, 15 / 2), (F64.fifteen, 15), (F64.thirtyOne, 31),
      (F64.thirtyOneAndHalf, 63 / 2), (F64.sixtyThree, 63), (F64.twoFiftyFive, 255)],
    p.1.isFinite = true ∧ p.1.value = p.2) ∧
  F64.twoThirds = (F64.ofNat 2).div (F64.ofNat 3) ∧ F64.twoThirds.isFinite = true ∧
  (∀ z : F64, z.isFinite = true → |F64.twoThirds.value - 2 / 3| ≤ |z.value - 2 / 3|) ∧
  F64.pi = ⟨0x400921FB54442D18⟩ ∧ F64.pi.isFinite = true ∧
  ∀ z : F64, z.isFinite = true → |(F64.pi.value : ℝ) - Real.pi| ≤ |(z.value : ℝ) - Real.pi|
end

