-- ==== Sys2Proof/Laws/State.lean ====
section
/-! SUPPORT. One lemma for each field and each named update of the state, true by `rfl`. -/

namespace Sys2Proof.Machine.State

/-! ## finish -/

@[simp] theorem finish_params (s : State) (e : Option CmdError) : (s.finish e).params = s.params := rfl
@[simp] theorem finish_irqEn (s : State) (e : Option CmdError) : (s.finish e).irqEn = s.irqEn := rfl
@[simp] theorem finish_cmd (s : State) (e : Option CmdError) : (s.finish e).cmd = s.cmd := rfl
@[simp] theorem finish_pending (s : State) (e : Option CmdError) : (s.finish e).pending = none := rfl
@[simp] theorem finish_status (s : State) (e : Option CmdError) : (s.finish e).status = Status.completed e := rfl
@[simp] theorem finish_imgDim (s : State) (e : Option CmdError) : (s.finish e).imgDim = s.imgDim := rfl
@[simp] theorem finish_inLen (s : State) (e : Option CmdError) : (s.finish e).inLen = s.inLen := rfl
@[simp] theorem finish_hashLen (s : State) (e : Option CmdError) : (s.finish e).hashLen = s.hashLen := rfl
@[simp] theorem finish_outBase (s : State) (e : Option CmdError) : (s.finish e).outBase = s.outBase := rfl
@[simp] theorem finish_outDim (s : State) (e : Option CmdError) : (s.finish e).outDim = s.outDim := rfl
@[simp] theorem finish_lext (s : State) (e : Option CmdError) : (s.finish e).lext = s.lext := rfl
@[simp] theorem finish_hdr24 (s : State) (e : Option CmdError) : (s.finish e).hdr24 = s.hdr24 := rfl
@[simp] theorem finish_hdr16 (s : State) (e : Option CmdError) : (s.finish e).hdr16 = s.hdr16 := rfl
@[simp] theorem finish_hdr8 (s : State) (e : Option CmdError) : (s.finish e).hdr8 = s.hdr8 := rfl
@[simp] theorem finish_nibCount (s : State) (e : Option CmdError) : (s.finish e).nibCount = s.nibCount := rfl
@[simp] theorem finish_ext (s : State) (e : Option CmdError) : (s.finish e).ext = s.ext := rfl
@[simp] theorem finish_mem (s : State) (e : Option CmdError) : (s.finish e).mem = s.mem := rfl
@[simp] theorem finish_epoch (s : State) (e : Option CmdError) : (s.finish e).epoch = s.epoch := rfl
@[simp] theorem finish_abandoned (s : State) (e : Option CmdError) : (s.finish e).abandoned = s.abandoned := rfl
@[simp] theorem finish_draws (s : State) (e : Option CmdError) : (s.finish e).draws = s.draws := rfl
@[simp] theorem finish_agenda (s : State) (e : Option CmdError) : (s.finish e).agenda = s.agenda := rfl
@[simp] theorem finish_resp (s : State) (e : Option CmdError) : (s.finish e).resp = s.resp := rfl

@[simp] theorem finish_byte (s : State) (e : Option CmdError) (a : Nat) : (s.finish e).byte a = s.byte a := rfl
@[simp] theorem finish_f64 (s : State) (e : Option CmdError) (a : Nat) : (s.finish e).f64 a = s.f64 a := rfl

/-! ## launch -/

@[simp] theorem launch_params (s : State) (w : Word) : (s.launch w).params = s.params := rfl
@[simp] theorem launch_irqEn (s : State) (w : Word) : (s.launch w).irqEn = s.irqEn := rfl
@[simp] theorem launch_cmd (s : State) (w : Word) : (s.launch w).cmd = w := rfl
@[simp] theorem launch_pending (s : State) (w : Word) : (s.launch w).pending = some w := rfl
@[simp] theorem launch_status (s : State) (w : Word) : (s.launch w).status = ⟨false, false, 0⟩ := rfl
@[simp] theorem launch_imgDim (s : State) (w : Word) : (s.launch w).imgDim = s.imgDim := rfl
@[simp] theorem launch_inLen (s : State) (w : Word) : (s.launch w).inLen = s.inLen := rfl
@[simp] theorem launch_hashLen (s : State) (w : Word) : (s.launch w).hashLen = s.hashLen := rfl
@[simp] theorem launch_outBase (s : State) (w : Word) : (s.launch w).outBase = s.outBase := rfl
@[simp] theorem launch_outDim (s : State) (w : Word) : (s.launch w).outDim = s.outDim := rfl
@[simp] theorem launch_lext (s : State) (w : Word) : (s.launch w).lext = s.lext := rfl
@[simp] theorem launch_hdr24 (s : State) (w : Word) : (s.launch w).hdr24 = s.hdr24 := rfl
@[simp] theorem launch_hdr16 (s : State) (w : Word) : (s.launch w).hdr16 = s.hdr16 := rfl
@[simp] theorem launch_hdr8 (s : State) (w : Word) : (s.launch w).hdr8 = s.hdr8 := rfl
@[simp] theorem launch_nibCount (s : State) (w : Word) : (s.launch w).nibCount = s.nibCount := rfl
@[simp] theorem launch_ext (s : State) (w : Word) : (s.launch w).ext = s.ext := rfl
@[simp] theorem launch_mem (s : State) (w : Word) : (s.launch w).mem = s.mem := rfl
@[simp] theorem launch_epoch (s : State) (w : Word) : (s.launch w).epoch = s.epoch := rfl
@[simp] theorem launch_abandoned (s : State) (w : Word) : (s.launch w).abandoned = s.abandoned := rfl
@[simp] theorem launch_draws (s : State) (w : Word) : (s.launch w).draws = s.draws := rfl
@[simp] theorem launch_agenda (s : State) (w : Word) : (s.launch w).agenda = s.agenda := rfl
@[simp] theorem launch_resp (s : State) (w : Word) : (s.launch w).resp = s.resp := rfl

@[simp] theorem launch_byte (s : State) (w : Word) (a : Nat) : (s.launch w).byte a = s.byte a := rfl
@[simp] theorem launch_f64 (s : State) (w : Word) (a : Nat) : (s.launch w).f64 a = s.f64 a := rfl

/-! ## acknowledge -/

@[simp] theorem acknowledge_params (s : State) (w : Word) : (s.acknowledge w).params = s.params := rfl
@[simp] theorem acknowledge_irqEn (s : State) (w : Word) : (s.acknowledge w).irqEn = s.irqEn := rfl
@[simp] theorem acknowledge_cmd (s : State) (w : Word) : (s.acknowledge w).cmd = s.cmd := rfl
@[simp] theorem acknowledge_pending (s : State) (w : Word) : (s.acknowledge w).pending = s.pending := rfl
@[simp] theorem acknowledge_imgDim (s : State) (w : Word) : (s.acknowledge w).imgDim = s.imgDim := rfl
@[simp] theorem acknowledge_inLen (s : State) (w : Word) : (s.acknowledge w).inLen = s.inLen := rfl
@[simp] theorem acknowledge_hashLen (s : State) (w : Word) : (s.acknowledge w).hashLen = s.hashLen := rfl
@[simp] theorem acknowledge_outBase (s : State) (w : Word) : (s.acknowledge w).outBase = s.outBase := rfl
@[simp] theorem acknowledge_outDim (s : State) (w : Word) : (s.acknowledge w).outDim = s.outDim := rfl
@[simp] theorem acknowledge_lext (s : State) (w : Word) : (s.acknowledge w).lext = s.lext := rfl
@[simp] theorem acknowledge_hdr24 (s : State) (w : Word) : (s.acknowledge w).hdr24 = s.hdr24 := rfl
@[simp] theorem acknowledge_hdr16 (s : State) (w : Word) : (s.acknowledge w).hdr16 = s.hdr16 := rfl
@[simp] theorem acknowledge_hdr8 (s : State) (w : Word) : (s.acknowledge w).hdr8 = s.hdr8 := rfl
@[simp] theorem acknowledge_nibCount (s : State) (w : Word) : (s.acknowledge w).nibCount = s.nibCount := rfl
@[simp] theorem acknowledge_ext (s : State) (w : Word) : (s.acknowledge w).ext = s.ext := rfl
@[simp] theorem acknowledge_mem (s : State) (w : Word) : (s.acknowledge w).mem = s.mem := rfl
@[simp] theorem acknowledge_epoch (s : State) (w : Word) : (s.acknowledge w).epoch = s.epoch := rfl
@[simp] theorem acknowledge_abandoned (s : State) (w : Word) : (s.acknowledge w).abandoned = s.abandoned := rfl
@[simp] theorem acknowledge_draws (s : State) (w : Word) : (s.acknowledge w).draws = s.draws := rfl
@[simp] theorem acknowledge_agenda (s : State) (w : Word) : (s.acknowledge w).agenda = s.agenda := rfl
@[simp] theorem acknowledge_resp (s : State) (w : Word) : (s.acknowledge w).resp = s.resp := rfl

@[simp] theorem acknowledge_byte (s : State) (w : Word) (a : Nat) : (s.acknowledge w).byte a = s.byte a := rfl
@[simp] theorem acknowledge_f64 (s : State) (w : Word) (a : Nat) : (s.acknowledge w).f64 a = s.f64 a := rfl

/-! ## answer -/

@[simp] theorem answer_params (s : State) (r : Response) : (s.answer r).params = s.params := rfl
@[simp] theorem answer_irqEn (s : State) (r : Response) : (s.answer r).irqEn = s.irqEn := rfl
@[simp] theorem answer_cmd (s : State) (r : Response) : (s.answer r).cmd = s.cmd := rfl
@[simp] theorem answer_pending (s : State) (r : Response) : (s.answer r).pending = s.pending := rfl
@[simp] theorem answer_status (s : State) (r : Response) : (s.answer r).status = s.status := rfl
@[simp] theorem answer_imgDim (s : State) (r : Response) : (s.answer r).imgDim = s.imgDim := rfl
@[simp] theorem answer_inLen (s : State) (r : Response) : (s.answer r).inLen = s.inLen := rfl
@[simp] theorem answer_hashLen (s : State) (r : Response) : (s.answer r).hashLen = s.hashLen := rfl
@[simp] theorem answer_outBase (s : State) (r : Response) : (s.answer r).outBase = s.outBase := rfl
@[simp] theorem answer_outDim (s : State) (r : Response) : (s.answer r).outDim = s.outDim := rfl
@[simp] theorem answer_lext (s : State) (r : Response) : (s.answer r).lext = s.lext := rfl
@[simp] theorem answer_hdr24 (s : State) (r : Response) : (s.answer r).hdr24 = s.hdr24 := rfl
@[simp] theorem answer_hdr16 (s : State) (r : Response) : (s.answer r).hdr16 = s.hdr16 := rfl
@[simp] theorem answer_hdr8 (s : State) (r : Response) : (s.answer r).hdr8 = s.hdr8 := rfl
@[simp] theorem answer_nibCount (s : State) (r : Response) : (s.answer r).nibCount = s.nibCount := rfl
@[simp] theorem answer_ext (s : State) (r : Response) : (s.answer r).ext = s.ext := rfl
@[simp] theorem answer_mem (s : State) (r : Response) : (s.answer r).mem = s.mem := rfl
@[simp] theorem answer_epoch (s : State) (r : Response) : (s.answer r).epoch = s.epoch := rfl
@[simp] theorem answer_abandoned (s : State) (r : Response) : (s.answer r).abandoned = s.abandoned := rfl
@[simp] theorem answer_draws (s : State) (r : Response) : (s.answer r).draws = s.draws := rfl
@[simp] theorem answer_agenda (s : State) (r : Response) : (s.answer r).agenda = s.agenda := rfl
@[simp] theorem answer_resp (s : State) (r : Response) : (s.answer r).resp = some r := rfl

@[simp] theorem answer_byte (s : State) (r : Response) (a : Nat) : (s.answer r).byte a = s.byte a := rfl
@[simp] theorem answer_f64 (s : State) (r : Response) (a : Nat) : (s.answer r).f64 a = s.f64 a := rfl

/-! ## succeeded -/

@[simp] theorem succeeded_params (s : State) : (s.succeeded).params = s.params := rfl
@[simp] theorem succeeded_irqEn (s : State) : (s.succeeded).irqEn = s.irqEn := rfl
@[simp] theorem succeeded_cmd (s : State) : (s.succeeded).cmd = s.cmd := rfl
@[simp] theorem succeeded_pending (s : State) : (s.succeeded).pending = none := rfl
@[simp] theorem succeeded_status (s : State) : (s.succeeded).status = ⟨true, false, 0⟩ := rfl
@[simp] theorem succeeded_imgDim (s : State) : (s.succeeded).imgDim = s.imgDim := rfl
@[simp] theorem succeeded_inLen (s : State) : (s.succeeded).inLen = s.inLen := rfl
@[simp] theorem succeeded_hashLen (s : State) : (s.succeeded).hashLen = s.hashLen := rfl
@[simp] theorem succeeded_outBase (s : State) : (s.succeeded).outBase = s.outBase := rfl
@[simp] theorem succeeded_outDim (s : State) : (s.succeeded).outDim = s.outDim := rfl
@[simp] theorem succeeded_lext (s : State) : (s.succeeded).lext = s.lext := rfl
@[simp] theorem succeeded_hdr24 (s : State) : (s.succeeded).hdr24 = s.hdr24 := rfl
@[simp] theorem succeeded_hdr16 (s : State) : (s.succeeded).hdr16 = s.hdr16 := rfl
@[simp] theorem succeeded_hdr8 (s : State) : (s.succeeded).hdr8 = s.hdr8 := rfl
@[simp] theorem succeeded_nibCount (s : State) : (s.succeeded).nibCount = s.nibCount := rfl
@[simp] theorem succeeded_ext (s : State) : (s.succeeded).ext = s.ext := rfl
@[simp] theorem succeeded_mem (s : State) : (s.succeeded).mem = s.mem := rfl
@[simp] theorem succeeded_epoch (s : State) : (s.succeeded).epoch = s.epoch := rfl
@[simp] theorem succeeded_abandoned (s : State) : (s.succeeded).abandoned = s.abandoned := rfl
@[simp] theorem succeeded_draws (s : State) : (s.succeeded).draws = s.draws := rfl
@[simp] theorem succeeded_agenda (s : State) : (s.succeeded).agenda = s.agenda := rfl
@[simp] theorem succeeded_resp (s : State) : (s.succeeded).resp = s.resp := rfl

@[simp] theorem succeeded_byte (s : State) (a : Nat) : (s.succeeded).byte a = s.byte a := rfl
@[simp] theorem succeeded_f64 (s : State) (a : Nat) : (s.succeeded).f64 a = s.f64 a := rfl

/-! ## raised -/

@[simp] theorem raised_params (s : State) (code : BitVec 4) : (s.raised code).params = s.params := rfl
@[simp] theorem raised_irqEn (s : State) (code : BitVec 4) : (s.raised code).irqEn = s.irqEn := rfl
@[simp] theorem raised_cmd (s : State) (code : BitVec 4) : (s.raised code).cmd = s.cmd := rfl
@[simp] theorem raised_pending (s : State) (code : BitVec 4) : (s.raised code).pending = none := rfl
@[simp] theorem raised_status (s : State) (code : BitVec 4) : (s.raised code).status = ⟨true, true, code⟩ := rfl
@[simp] theorem raised_imgDim (s : State) (code : BitVec 4) : (s.raised code).imgDim = s.imgDim := rfl
@[simp] theorem raised_inLen (s : State) (code : BitVec 4) : (s.raised code).inLen = s.inLen := rfl
@[simp] theorem raised_hashLen (s : State) (code : BitVec 4) : (s.raised code).hashLen = s.hashLen := rfl
@[simp] theorem raised_outBase (s : State) (code : BitVec 4) : (s.raised code).outBase = s.outBase := rfl
@[simp] theorem raised_outDim (s : State) (code : BitVec 4) : (s.raised code).outDim = s.outDim := rfl
@[simp] theorem raised_lext (s : State) (code : BitVec 4) : (s.raised code).lext = s.lext := rfl
@[simp] theorem raised_hdr24 (s : State) (code : BitVec 4) : (s.raised code).hdr24 = s.hdr24 := rfl
@[simp] theorem raised_hdr16 (s : State) (code : BitVec 4) : (s.raised code).hdr16 = s.hdr16 := rfl
@[simp] theorem raised_hdr8 (s : State) (code : BitVec 4) : (s.raised code).hdr8 = s.hdr8 := rfl
@[simp] theorem raised_nibCount (s : State) (code : BitVec 4) : (s.raised code).nibCount = s.nibCount := rfl
@[simp] theorem raised_ext (s : State) (code : BitVec 4) : (s.raised code).ext = s.ext := rfl
@[simp] theorem raised_mem (s : State) (code : BitVec 4) : (s.raised code).mem = s.mem := rfl
@[simp] theorem raised_epoch (s : State) (code : BitVec 4) : (s.raised code).epoch = s.epoch := rfl
@[simp] theorem raised_abandoned (s : State) (code : BitVec 4) : (s.raised code).abandoned = s.abandoned := rfl
@[simp] theorem raised_draws (s : State) (code : BitVec 4) : (s.raised code).draws = s.draws := rfl
@[simp] theorem raised_agenda (s : State) (code : BitVec 4) : (s.raised code).agenda = s.agenda := rfl
@[simp] theorem raised_resp (s : State) (code : BitVec 4) : (s.raised code).resp = s.resp := rfl

@[simp] theorem raised_byte (s : State) (code : BitVec 4) (a : Nat) : (s.raised code).byte a = s.byte a := rfl
@[simp] theorem raised_f64 (s : State) (code : BitVec 4) (a : Nat) : (s.raised code).f64 a = s.f64 a := rfl

/-! ## unspecify -/

@[simp] theorem unspecify_params (s : State) (f : Footprint) : (s.unspecify f).params = s.params := rfl
@[simp] theorem unspecify_irqEn (s : State) (f : Footprint) : (s.unspecify f).irqEn = s.irqEn := rfl
@[simp] theorem unspecify_cmd (s : State) (f : Footprint) : (s.unspecify f).cmd = s.cmd := rfl
@[simp] theorem unspecify_pending (s : State) (f : Footprint) : (s.unspecify f).pending = s.pending := rfl
@[simp] theorem unspecify_status (s : State) (f : Footprint) : (s.unspecify f).status = s.status := rfl
@[simp] theorem unspecify_imgDim (s : State) (f : Footprint) : (s.unspecify f).imgDim = s.imgDim := rfl
@[simp] theorem unspecify_inLen (s : State) (f : Footprint) : (s.unspecify f).inLen = s.inLen := rfl
@[simp] theorem unspecify_hashLen (s : State) (f : Footprint) : (s.unspecify f).hashLen = s.hashLen := rfl
@[simp] theorem unspecify_outBase (s : State) (f : Footprint) : (s.unspecify f).outBase = s.outBase := rfl
@[simp] theorem unspecify_outDim (s : State) (f : Footprint) : (s.unspecify f).outDim = s.outDim := rfl
@[simp] theorem unspecify_lext (s : State) (f : Footprint) : (s.unspecify f).lext = s.lext := rfl
@[simp] theorem unspecify_hdr24 (s : State) (f : Footprint) : (s.unspecify f).hdr24 = s.hdr24 := rfl
@[simp] theorem unspecify_hdr16 (s : State) (f : Footprint) : (s.unspecify f).hdr16 = s.hdr16 := rfl
@[simp] theorem unspecify_hdr8 (s : State) (f : Footprint) : (s.unspecify f).hdr8 = s.hdr8 := rfl
@[simp] theorem unspecify_nibCount (s : State) (f : Footprint) : (s.unspecify f).nibCount = s.nibCount := rfl
@[simp] theorem unspecify_epoch (s : State) (f : Footprint) : (s.unspecify f).epoch = s.epoch := rfl
@[simp] theorem unspecify_abandoned (s : State) (f : Footprint) :
    (s.unspecify f).abandoned = ⟨s.draws, f.spans⟩ :: s.abandoned := rfl
@[simp] theorem unspecify_draws (s : State) (f : Footprint) : (s.unspecify f).draws = s.draws + 1 := rfl
@[simp] theorem unspecify_agenda (s : State) (f : Footprint) : (s.unspecify f).agenda = s.agenda := rfl
@[simp] theorem unspecify_resp (s : State) (f : Footprint) : (s.unspecify f).resp = s.resp := rfl

/-! ## resetRegisters -/

@[simp] theorem resetRegisters_params (s : State) : (s.resetRegisters).params = s.params := rfl
@[simp] theorem resetRegisters_pending (s : State) : (s.resetRegisters).pending = s.pending := rfl
@[simp] theorem resetRegisters_ext (s : State) : (s.resetRegisters).ext = s.ext := rfl
@[simp] theorem resetRegisters_mem (s : State) : (s.resetRegisters).mem = s.mem := rfl
@[simp] theorem resetRegisters_epoch (s : State) : (s.resetRegisters).epoch = s.epoch := rfl
@[simp] theorem resetRegisters_abandoned (s : State) : (s.resetRegisters).abandoned = s.abandoned := rfl
@[simp] theorem resetRegisters_draws (s : State) : (s.resetRegisters).draws = s.draws := rfl
@[simp] theorem resetRegisters_agenda (s : State) : (s.resetRegisters).agenda = s.agenda := rfl
@[simp] theorem resetRegisters_resp (s : State) : (s.resetRegisters).resp = s.resp := rfl
@[simp] theorem resetRegisters_irqEn (s : State) : s.resetRegisters.irqEn = State.reset.irqEn := rfl
@[simp] theorem resetRegisters_cmd (s : State) : s.resetRegisters.cmd = State.reset.cmd := rfl
@[simp] theorem resetRegisters_status (s : State) : s.resetRegisters.status = State.reset.status := rfl
@[simp] theorem resetRegisters_imgDim (s : State) : s.resetRegisters.imgDim = State.reset.imgDim := rfl
@[simp] theorem resetRegisters_inLen (s : State) : s.resetRegisters.inLen = State.reset.inLen := rfl
@[simp] theorem resetRegisters_hashLen (s : State) : s.resetRegisters.hashLen = State.reset.hashLen := rfl
@[simp] theorem resetRegisters_outBase (s : State) : s.resetRegisters.outBase = State.reset.outBase := rfl
@[simp] theorem resetRegisters_outDim (s : State) : s.resetRegisters.outDim = State.reset.outDim := rfl
@[simp] theorem resetRegisters_lext (s : State) : s.resetRegisters.lext = State.reset.lext := rfl
@[simp] theorem resetRegisters_hdr24 (s : State) : s.resetRegisters.hdr24 = State.reset.hdr24 := rfl
@[simp] theorem resetRegisters_hdr16 (s : State) : s.resetRegisters.hdr16 = State.reset.hdr16 := rfl
@[simp] theorem resetRegisters_hdr8 (s : State) : s.resetRegisters.hdr8 = State.reset.hdr8 := rfl
@[simp] theorem resetRegisters_nibCount (s : State) : s.resetRegisters.nibCount = State.reset.nibCount := rfl

end Sys2Proof.Machine.State
end

