-- ==== Sys2Proof/Laws/Memory.lean ====
section
/-! SUPPORT. The laws of memory: what a write makes every address read as, and that every memory operation
keeps the canonical form and the stores' own shape. -/

namespace Sys2Proof.Machine

/-! ## One byte -/

theorem Memory.find_insert (m : Memory) (a : Nat) (b : Byte) (x : Nat) :
    (Memory.insert m a b).find x = if x = a then some b else Memory.find m x := by
  induction m with
  | nil => simp [Memory.insert, Memory.find]
  | cons c rest ih =>
    obtain ⟨k, v⟩ := c
    simp only [Memory.insert]
    split
    · next h => subst h; simp only [Memory.find]; split <;> rfl
    · split
      · simp only [Memory.find]
      · next h _ =>
        simp only [Memory.find, ih]
        by_cases hx : x = k
        · subst hx; simp [Ne.symm h]
        · simp [hx]

theorem Memory.find_put (m : Memory) (a : Nat) (b : Byte) (x : Nat) :
    (m.put a b).find x = if x = a then some (maskAt a b) else Memory.find m x :=
  Memory.find_insert m a (maskAt a b) x

@[simp] theorem maskAt_maskAt (a : Nat) (b : Byte) : maskAt a (maskAt a b) = maskAt a b := by
  unfold maskAt
  split
  · rw [BitVec.and_assoc]; rfl
  · rfl

theorem maskAt_of_not_inNib {a : Nat} (h : inNib a = false) (b : Byte) : maskAt a b = b := by
  simp [maskAt, h]

/-- The one law of a byte write. -/
theorem State.byte_put (s : State) (a : Nat) (b : Byte) (x : Nat) :
    State.byte { s with mem := s.mem.put a b } x = if x = a then maskAt a b else s.byte x := by
  by_cases h : x = a
  · subst h; simp [State.byte, Memory.find_put]
  · simp [State.byte, Memory.find_put, h, State.unlisted]

/-! ## Canonical form -/

theorem Memory.above_insert {k : Nat} {m : Memory} {a : Nat} {b : Byte} (hm : Memory.above k m = true)
    (ha : k < a) : Memory.above k (Memory.insert m a b) = true := by
  induction m with
  | nil => simp [Memory.insert, Memory.above, ha]
  | cons c rest ih =>
    obtain ⟨j, v⟩ := c
    simp only [Memory.above, Bool.and_eq_true, decide_eq_true_eq] at hm
    simp only [Memory.insert]
    split
    · simp [Memory.above, ha, hm.2]
    · split <;> simp [Memory.above, ha, hm.1, hm.2, ih hm.2]

theorem Memory.above_mono {j k : Nat} {m : Memory} (hm : Memory.above k m = true) (h : j ≤ k) :
    Memory.above j m = true := by
  induction m with
  | nil => rfl
  | cons c rest ih =>
    simp only [Memory.above, Bool.and_eq_true, decide_eq_true_eq] at hm ⊢
    exact ⟨by omega, ih hm.2⟩

theorem Memory.wf_insert {m : Memory} (hm : Memory.wf m = true) (a : Nat) (b : Byte) :
    Memory.wf (Memory.insert m a b) = true := by
  induction m with
  | nil => rfl
  | cons c rest ih =>
    obtain ⟨k, v⟩ := c
    simp only [Memory.wf, Bool.and_eq_true] at hm
    simp only [Memory.insert]
    split
    · next h => subst h; simp [Memory.wf, hm.1, hm.2]
    · split
      · next h =>
        simp only [Memory.wf, Memory.above, Bool.and_eq_true, decide_eq_true_eq]
        exact ⟨⟨h, Memory.above_mono hm.1 (by omega)⟩, hm.1, hm.2⟩
      · next h h' =>
        simp only [Memory.wf, Bool.and_eq_true]
        exact ⟨Memory.above_insert hm.1 (by omega), ih hm.2⟩

theorem Memory.all_insert {p : Host.Cell → Bool} {m : Memory} (hm : m.all p = true) {a : Nat} {b : Byte}
    (hb : p (a, b) = true) : (Memory.insert m a b).all p = true := by
  induction m with
  | nil => simp [Memory.insert, hb]
  | cons c rest ih =>
    obtain ⟨k, v⟩ := c
    simp only [List.all_cons, Bool.and_eq_true] at hm
    simp only [Memory.insert]
    split
    · simp [hb, hm.2]
    · split <;> simp [hb, hm.1, hm.2, ih hm.2]

/-- What every memory operation keeps: the canonical form, the stores' bounds, and nibbles in NIB. -/
structure Memory.Good (m : Memory) : Prop where
  sorted : m.wf = true
  inStores : m.inStores = true
  nibbles : m.nibbles = true

theorem Memory.good_nil : Memory.Good [] := ⟨rfl, rfl, rfl⟩

theorem Memory.good_put {m : Memory} (h : m.Good) {a : Nat} (ha : inStore a = true) (b : Byte) :
    (m.put a b).Good :=
  ⟨Memory.wf_insert h.sorted a _, Memory.all_insert h.inStores ha,
    Memory.all_insert h.nibbles (by simp)⟩

theorem Memory.wf_put {m : Memory} (h : m.wf = true) (a : Nat) (b : Byte) : (m.put a b).wf = true :=
  Memory.wf_insert h a _

theorem Memory.good_putBytes {m : Memory} (h : m.Good) {ws : List (Nat × Byte)}
    (hw : ∀ w ∈ ws, inStore w.1 = true) : (m.putBytes ws).Good := by
  induction ws generalizing m with
  | nil => exact h
  | cons w rest ih =>
    exact ih (Memory.good_put h (hw w List.mem_cons_self) w.2) fun v hv => hw v (List.mem_cons_of_mem _ hv)

/-! ## Bytes no longer listed -/

theorem Memory.find_forget (m : Memory) (ps : List Span) (x : Nat) :
    (m.forget ps).find x = if inSpans ps x then none else Memory.find m x := by
  induction m with
  | nil => simp [Memory.forget, Memory.find]
  | cons c rest ih =>
    obtain ⟨k, v⟩ := c
    simp only [Memory.forget] at ih
    by_cases hk : inSpans ps k
    · simp only [Memory.forget, List.filter_cons, hk, Bool.not_true, Bool.false_eq_true, if_false, ih,
        Memory.find]
      by_cases hx : x = k
      · subst hx; simp [hk]
      · simp [hx]
    · simp only [Memory.forget, List.filter_cons, hk, Bool.not_false, if_true, Memory.find, ih]
      by_cases hx : x = k
      · subst hx; simp [hk]
      · simp [hx]

theorem Memory.above_forget {k : Nat} {m : Memory} (h : Memory.above k m = true) (ps : List Span) :
    Memory.above k (m.forget ps) = true := by
  induction m with
  | nil => rfl
  | cons c rest ih =>
    simp only [Memory.above, Bool.and_eq_true] at h
    simp only [Memory.forget, List.filter_cons]
    split
    · simp only [Memory.above, Bool.and_eq_true]; exact ⟨h.1, ih h.2⟩
    · exact ih h.2

theorem Memory.wf_forget {m : Memory} (h : m.wf = true) (ps : List Span) : (m.forget ps).wf = true := by
  induction m with
  | nil => rfl
  | cons c rest ih =>
    simp only [Memory.wf, Bool.and_eq_true] at h
    simp only [Memory.forget, List.filter_cons]
    split
    · simp only [Memory.wf, Bool.and_eq_true]; exact ⟨Memory.above_forget h.1 ps, ih h.2⟩
    · exact ih h.2

theorem Memory.good_forget {m : Memory} (h : m.Good) (ps : List Span) : (m.forget ps).Good :=
  ⟨Memory.wf_forget h.sorted ps,
    List.all_eq_true.2 fun c hc => List.all_eq_true.1 h.inStores c (List.mem_filter.1 hc).1,
    List.all_eq_true.2 fun c hc => List.all_eq_true.1 h.nibbles c (List.mem_filter.1 hc).1⟩

/-! ## Several bytes -/

/-- A write of eight bytes is a write of a list of bytes. -/
theorem Memory.putF64_eq (m : Memory) (a : Nat) (x : F64) :
    m.putF64 a x = m.putBytes ((List.range 8).map fun i => (a + i, byteOf64 x i)) := by
  simp [Memory.putF64, Memory.putBytes, List.foldl_map]

theorem Memory.putWord_eq (m : Memory) (a : Nat) (x : Word) :
    m.putWord a x = m.putBytes ((List.range 4).map fun i => (a + i, byteOf32 x i)) := by
  simp [Memory.putWord, Memory.putBytes, List.foldl_map]

theorem Memory.putBytes_append (m : Memory) (us ws : List (Nat × Byte)) :
    m.putBytes (us ++ ws) = (m.putBytes us).putBytes ws := by
  simp [Memory.putBytes]

/-- The bytes that a list of binary64 writes makes, in order. -/
def f64Bytes (ws : List (Nat × F64)) : List (Nat × Byte) :=
  ws.flatMap fun w => (List.range 8).map fun i => (w.1 + i, byteOf64 w.2 i)

theorem Memory.putF64s_eq (m : Memory) (ws : List (Nat × F64)) :
    m.putF64s ws = m.putBytes (f64Bytes ws) := by
  induction ws generalizing m with
  | nil => rfl
  | cons w rest ih =>
    rw [f64Bytes, List.flatMap_cons, Memory.putBytes_append, ← Memory.putF64_eq]
    exact ih _

/-- The addresses of those bytes. -/
def bytesOfF64s (ws : List (Nat × F64)) : List Nat :=
  ws.flatMap fun w => (List.range 8).map fun i => w.1 + i

theorem map_fst_f64Bytes (ws : List (Nat × F64)) : (f64Bytes ws).map (·.1) = bytesOfF64s ws := by
  simp [f64Bytes, bytesOfF64s, List.map_flatMap, Function.comp_def]

theorem mem_bytesOfF64s {ws : List (Nat × F64)} {a : Nat} :
    a ∈ bytesOfF64s ws ↔ ∃ w ∈ ws, w.1 ≤ a ∧ a < w.1 + 8 := by
  simp only [bytesOfF64s, List.mem_flatMap, List.mem_map, List.mem_range]
  constructor
  · rintro ⟨w, hw, i, hi, rfl⟩; exact ⟨w, hw, by omega, by omega⟩
  · rintro ⟨w, hw, h1, h2⟩; exact ⟨w, hw, a - w.1, by omega, by omega⟩

/-- Outside the written addresses every byte reads as before. -/
theorem Memory.find_putBytes_of_not_mem {ws : List (Nat × Byte)} {x : Nat}
    (h : ∀ w ∈ ws, w.1 ≠ x) (m : Memory) : (m.putBytes ws).find x = Memory.find m x := by
  induction ws generalizing m with
  | nil => rfl
  | cons w rest ih =>
    rw [Memory.putBytes, List.foldl_cons, ← Memory.putBytes,
      ih fun v hv => h v (List.mem_cons_of_mem _ hv), Memory.find_put,
      if_neg (Ne.symm (h w List.mem_cons_self))]

/-- A written address reads as what the only write to it wrote. -/
theorem Memory.find_putBytes_of_mem {ws : List (Nat × Byte)} (hn : (ws.map (·.1)).Nodup) {x : Nat}
    {b : Byte} (h : (x, b) ∈ ws) (m : Memory) : (m.putBytes ws).find x = some (maskAt x b) := by
  induction ws generalizing m with
  | nil => cases h
  | cons w rest ih =>
    simp only [List.map_cons, List.nodup_cons] at hn
    rw [Memory.putBytes, List.foldl_cons, ← Memory.putBytes]
    rcases List.mem_cons.1 h with rfl | h
    · rw [Memory.find_putBytes_of_not_mem, Memory.find_put, if_pos rfl]
      intro v hv he
      exact hn.1 (List.mem_map.2 ⟨v, hv, he⟩)
    · exact ih hn.2 h _

theorem State.byte_putBytes_of_not_mem (s : State) {ws : List (Nat × Byte)} {x : Nat}
    (h : ∀ w ∈ ws, w.1 ≠ x) : State.byte { s with mem := s.mem.putBytes ws } x = s.byte x := by
  simp [State.byte, Memory.find_putBytes_of_not_mem h, State.unlisted]

theorem State.byte_putBytes_of_mem (s : State) {ws : List (Nat × Byte)} (hn : (ws.map (·.1)).Nodup)
    {x : Nat} {b : Byte} (h : (x, b) ∈ ws) :
    State.byte { s with mem := s.mem.putBytes ws } x = maskAt x b := by
  simp [State.byte, Memory.find_putBytes_of_mem hn h]

/-! ## Binary64 -/

theorem State.byte_putF64s_of_not_mem (s : State) {ws : List (Nat × F64)} {x : Nat}
    (h : ∀ w ∈ ws, ¬(w.1 ≤ x ∧ x < w.1 + 8)) :
    State.byte { s with mem := s.mem.putF64s ws } x = s.byte x := by
  rw [Memory.putF64s_eq]
  apply State.byte_putBytes_of_not_mem
  intro v hv he
  have : x ∈ bytesOfF64s ws := by
    rw [← map_fst_f64Bytes]; exact List.mem_map.2 ⟨v, hv, he⟩
  obtain ⟨w, hw, hx⟩ := mem_bytesOfF64s.1 this
  exact h w hw hx

/-- The eight bytes of an encoding, put together again. -/
theorem F64.of_bytes (x : F64) :
    (⟨(((byteOf64 x 7 ++ byteOf64 x 6) ++ (byteOf64 x 5 ++ byteOf64 x 4)) ++
      ((byteOf64 x 3 ++ byteOf64 x 2) ++ (byteOf64 x 1 ++ byteOf64 x 0)) : BitVec 64)⟩ : F64) = x := by
  obtain ⟨v⟩ := x
  congr 1
  apply BitVec.eq_of_getLsbD_eq
  intro i hi
  simp only [byteOf64, BitVec.getLsbD_append, BitVec.getLsbD_extractLsb']
  (repeat' split) <;> rw [decide_eq_true (by omega), Bool.true_and] <;> congr 1 <;> omega

/-- The four bytes of a word, put together again. -/
theorem word_of_bytes (x : Word) :
    (((byteOf32 x 3 ++ byteOf32 x 2) ++ (byteOf32 x 1 ++ byteOf32 x 0)) : BitVec 32) = x := by
  apply BitVec.eq_of_getLsbD_eq
  intro i hi
  simp only [byteOf32, BitVec.getLsbD_append, BitVec.getLsbD_extractLsb']
  (repeat' split) <;> rw [decide_eq_true (by omega), Bool.true_and] <;> congr 1 <;> omega

/-- The written bytes of binary64 values that lie eight apart are all different. -/
theorem nodup_bytesOfF64s {ws : List (Nat × F64)}
    (h : ws.Pairwise fun u v => u.1 + 8 ≤ v.1 ∨ v.1 + 8 ≤ u.1) : (bytesOfF64s ws).Nodup := by
  induction ws with
  | nil => exact List.nodup_nil
  | cons w rest ih =>
    rw [List.pairwise_cons] at h
    have : bytesOfF64s (w :: rest) = ((List.range 8).map fun i => w.1 + i) ++ bytesOfF64s rest := rfl
    rw [this, List.nodup_append]
    refine ⟨?_, ih h.2, ?_⟩
    · exact (List.nodup_range).map fun _ _ e => Nat.add_left_cancel e
    · intro a ha b hb e
      subst e
      obtain ⟨v, hv, h1, h2⟩ := mem_bytesOfF64s.1 hb
      simp only [List.mem_map, List.mem_range] at ha
      obtain ⟨i, hi, rfl⟩ := ha
      have := h.1 v hv
      omega

/-- Every binary64 written by a list of writes eight apart, outside NIB, reads back. -/
theorem State.f64_putF64s_of_mem (s : State) {ws : List (Nat × F64)}
    (hd : ws.Pairwise fun u v => u.1 + 8 ≤ v.1 ∨ v.1 + 8 ≤ u.1) {a : Nat} {x : F64} (h : (a, x) ∈ ws)
    (ha : 0x240 ≤ a) : State.f64 { s with mem := s.mem.putF64s ws } a = x := by
  have hb : ∀ i, i < 8 → State.byte { s with mem := s.mem.putF64s ws } (a + i) = byteOf64 x i := by
    intro i hi
    have hm : (a + i, byteOf64 x i) ∈ f64Bytes ws := by
      simp only [f64Bytes, List.mem_flatMap, List.mem_map, List.mem_range]
      exact ⟨(a, x), h, i, hi, rfl⟩
    rw [Memory.putF64s_eq, State.byte_putBytes_of_mem s _ hm]
    · exact maskAt_of_not_inNib (decide_eq_false (by simp only [nibBase]; omega)) _
    · rw [map_fst_f64Bytes]; exact nodup_bytesOfF64s hd
  have h0 := hb 0 (by omega)
  rw [Nat.add_zero] at h0
  rw [State.f64, h0, hb 1 (by omega), hb 2 (by omega), hb 3 (by omega), hb 4 (by omega), hb 5 (by omega),
    hb 6 (by omega), hb 7 (by omega)]
  exact F64.of_bytes x

/-- A binary64 none of whose bytes is written reads as before. -/
theorem State.f64_eq_of_bytes {s t : State} {a : Nat} (h : ∀ i, i < 8 → t.byte (a + i) = s.byte (a + i)) :
    t.f64 a = s.f64 a := by
  have h0 := h 0 (by omega)
  rw [Nat.add_zero] at h0
  rw [State.f64, State.f64, h0, h 1 (by omega), h 2 (by omega), h 3 (by omega), h 4 (by omega),
    h 5 (by omega), h 6 (by omega), h 7 (by omega)]

theorem Memory.good_putF64s {m : Memory} (h : m.Good) {ws : List (Nat × F64)}
    (hw : ∀ w ∈ ws, ∀ i, i < 8 → inStore (w.1 + i) = true) : (m.putF64s ws).Good := by
  rw [Memory.putF64s_eq]
  apply Memory.good_putBytes h
  intro v hv
  have : v.1 ∈ bytesOfF64s ws := by
    rw [← map_fst_f64Bytes]; exact List.mem_map.2 ⟨v, hv, rfl⟩
  obtain ⟨w, hm, h1, h2⟩ := mem_bytesOfF64s.1 this
  have := hw w hm (v.1 - w.1) (by omega)
  rwa [Nat.add_sub_cancel' h1] at this

theorem Memory.good_putWord {m : Memory} (h : m.Good) {a : Nat} (ha : ∀ i, i < 4 → inStore (a + i) = true)
    (x : Word) : (m.putWord a x).Good := by
  rw [Memory.putWord_eq]
  apply Memory.good_putBytes h
  intro v hv
  simp only [List.mem_map, List.mem_range] at hv
  obtain ⟨i, hi, rfl⟩ := hv
  exact ha i hi

/-- Every memory operation keeps the canonical form, wherever it writes. -/
theorem Memory.wf_putBytes {m : Memory} (h : m.wf = true) (ws : List (Nat × Byte)) :
    (m.putBytes ws).wf = true := by
  induction ws generalizing m with
  | nil => exact h
  | cons w rest ih => exact ih (Memory.wf_put h w.1 w.2)

theorem Memory.wf_putF64 {m : Memory} (h : m.wf = true) (a : Nat) (x : F64) : (m.putF64 a x).wf = true := by
  rw [Memory.putF64_eq]; exact Memory.wf_putBytes h _

theorem Memory.wf_putF64s {m : Memory} (h : m.wf = true) (ws : List (Nat × F64)) :
    (m.putF64s ws).wf = true := by
  rw [Memory.putF64s_eq]; exact Memory.wf_putBytes h _

theorem Memory.wf_putWord {m : Memory} (h : m.wf = true) (a : Nat) (x : Word) : (m.putWord a x).wf = true := by
  rw [Memory.putWord_eq]; exact Memory.wf_putBytes h _

end Sys2Proof.Machine
end

