-- ==== Sys2Proof/Laws/Operands.lean ====
section
/-! SUPPORT. The laws of the operand forms: which elements lie in which store, that different elements do
not overlap, and the bounds on counts. -/

namespace Sys2Proof.Machine

/-! ## Pixels -/

theorem mem_pixels {w h : Nat} {p : Nat × Nat} : p ∈ pixels w h ↔ p.1 < w ∧ p.2 < h := by
  obtain ⟨x, y⟩ := p
  simp only [pixels, List.mem_flatMap, List.mem_range, List.mem_map, Prod.mk.injEq]
  constructor
  · rintro ⟨y', hy, x', hx, rfl, rfl⟩; exact ⟨hx, hy⟩
  · rintro ⟨hx, hy⟩; exact ⟨y, hy, x, hx, rfl, rfl⟩

theorem nodup_pixels (w h : Nat) : (pixels w h).Nodup := by
  rw [pixels, List.nodup_flatMap]
  refine ⟨fun y _ => List.nodup_range.map fun a b e => (Prod.mk.inj e).1, ?_⟩
  refine List.Pairwise.imp ?_ (List.nodup_range (n := h))
  intro a b hab p hp hq
  simp only [List.mem_map] at hp hq
  obtain ⟨x, _, rfl⟩ := hp
  obtain ⟨x', _, e⟩ := hq
  exact hab (Prod.mk.inj e).2.symm

theorem Dim.inRange_iff {d : Dim} : d.inRange = true ↔
    1 ≤ d.w.toNat ∧ d.w.toNat ≤ 128 ∧ 1 ≤ d.h.toNat ∧ d.h.toNat ≤ 128 := by
  simp [Dim.inRange]

/-! ## Retained frequencies -/

theorem mem_pairs {nx ny : Nat} {p : Nat × Nat} : p ∈ pairs nx ny ↔
    p.1 < nx ∧ p.2 < ny ∧ p.1 * ny + p.2 * nx < nx * ny := by
  obtain ⟨cx, cy⟩ := p
  simp only [pairs, List.mem_flatMap, List.mem_range, List.mem_map, List.mem_filter, decide_eq_true_eq,
    Prod.mk.injEq]
  constructor
  · rintro ⟨y, hy, x, ⟨hx, hp⟩, rfl, rfl⟩; exact ⟨hx, hy, hp⟩
  · rintro ⟨hx, hy, hp⟩; exact ⟨cy, hy, cx, ⟨hx, hp⟩, rfl, rfl⟩

@[simp] theorem length_acPairs (nx ny : Nat) : (acPairs nx ny).length = countAc nx ny := by
  simp [acPairs, countAc]

theorem countAc_le {nx ny : Nat} (hx : nx ≤ 7) (hy : ny ≤ 7) : countAc nx ny ≤ 27 := by
  have : ∀ a < 8, ∀ b < 8, countAc a b ≤ 27 := by decide +kernel
  exact this nx (by omega) ny (by omega)

theorem Ext.nac_toNat {e : Ext} (hx : e.nx ≠ 0) (hy : e.ny ≠ 0) :
    e.nac.toNat = countAc e.nx.toNat e.ny.toNat := by
  rw [Ext.nac, if_pos ⟨hx, hy⟩, BitVec.toNat_ofNat, Nat.mod_eq_of_lt]
  have := countAc_le (nx := e.nx.toNat) (ny := e.ny.toNat) (by omega) (by omega)
  omega

theorem Params.floorValue_cases (p : Params) : p.floorValue = 1 ∨ p.floorValue = 3 := by
  unfold Sys2Proof.Params.floorValue
  cases p.floor <;> simp

theorem Params.floored_bounds {p : Params} {n : Nat} (h : n ≤ 7) :
    1 ≤ p.floored n ∧ n ≤ p.floored n ∧ p.floored n ≤ 7 := by
  unfold Sys2Proof.Params.floored
  rcases Params.floorValue_cases p with h' | h' <;> rw [h'] <;> omega

/-! ## Elements lie in their stores -/

theorem chanIndex_lt (c : Channel) : chanIndex c < 4 := by cases c <;> decide

theorem chanIndex_inj {c d : Channel} (h : chanIndex c = chanIndex d) : c = d := by
  cases c <;> cases d <;> simp [chanIndex] at h ⊢

theorem inStore_pix {i : Nat} (h : i < 65536) : inStore (pixAddr i) = true := by
  simp only [inStore, Bool.or_eq_true, decide_eq_true_eq]; simp only [pixAddr, pixBase]; omega

theorem inStore_hash {i : Nat} (h : i < 32) : inStore (hashAddr i) = true := by
  simp only [inStore, Bool.or_eq_true, decide_eq_true_eq]; simp only [hashAddr, hashBase]; omega

theorem inStore_nib {k : Nat} (h : k < 64) : inStore (nibAddr k) = true := by
  simp only [inStore, inNib, Bool.or_eq_true, decide_eq_true_eq]; simp only [nibAddr, nibBase]; omega

theorem planeAddr_bounds (c : Channel) {x y : Nat} (hx : x < 128) (hy : y < 128) :
    planeBase ≤ planeAddr c x y ∧ planeAddr c x y + 8 ≤ planeBase + 0x80000 := by
  have := chanIndex_lt c
  simp only [planeAddr, planeBase]; omega

theorem inStore_plane (c : Channel) {x y i : Nat} (hx : x < 128) (hy : y < 128) (hi : i < 8) :
    inStore (planeAddr c x y + i) = true := by
  have := planeAddr_bounds c hx hy
  simp only [inStore, Bool.or_eq_true, decide_eq_true_eq]; omega

/-- A byte of the record data: at an offset below 0x10, or from 0x20 to 0xF7. -/
theorem inStore_record (c : Channel) {o : Nat} (h : o < 0x10 ∨ (0x20 ≤ o ∧ o < 0xF8)) :
    inStore (recordAddr c + o) = true := by
  have := chanIndex_lt c
  have e : (recordAddr c + o - coefBase) % 0x100 = o := by simp only [recordAddr, coefBase]; omega
  simp only [inStore, inCoefData, e, Bool.or_eq_true, Bool.and_eq_true, decide_eq_true_eq]
  simp only [recordAddr, coefBase]
  omega

theorem inStore_dc (c : Channel) {i : Nat} (hi : i < 8) : inStore (dcAddr c + i) = true :=
  inStore_record c (by omega)

theorem inStore_scale (c : Channel) {i : Nat} (hi : i < 8) : inStore (scaleAddr c + i) = true := by
  have := inStore_record c (o := 8 + i) (by omega)
  rwa [← Nat.add_assoc] at this

theorem inStore_ac (c : Channel) {j i : Nat} (hj : j < 27) (hi : i < 8) :
    inStore (acAddr c j + i) = true := by
  have := inStore_record c (o := 0x20 + 8 * j + i) (by omega)
  rwa [← Nat.add_assoc, ← Nat.add_assoc] at this

/-- The elements of the planes do not overlap. -/
theorem planeAddr_apart {c d : Channel} {x y x' y' : Nat} (hx : x < 128) (hx' : x' < 128) (hy : y < 128)
    (hy' : y' < 128) (h : ¬(c = d ∧ x = x' ∧ y = y')) :
    planeAddr c x y + 8 ≤ planeAddr d x' y' ∨ planeAddr d x' y' + 8 ≤ planeAddr c x y := by
  have h' : ¬(chanIndex c = chanIndex d ∧ x = x' ∧ y = y') := fun e => h ⟨chanIndex_inj e.1, e.2⟩
  simp only [planeAddr]
  omega

/-! ## Lists of writes -/

theorem mem_acWrites {c : Channel} {vs : List F64} {w : Nat × F64} :
    w ∈ acWrites c vs ↔ ∃ j, vs[j]? = some w.2 ∧ w.1 = acAddr c j := by
  simp only [acWrites, List.mem_map, Prod.exists, List.mk_mem_zipIdx_iff_getElem?]
  constructor
  · rintro ⟨v, j, h, rfl⟩; exact ⟨j, h, rfl⟩
  · rintro ⟨j, h, e⟩; exact ⟨w.2, j, h, by rw [← e]⟩

theorem mem_nibWrites {ns : List Nat} {w : Nat × Byte} :
    w ∈ nibWrites ns ↔ ∃ k n, ns[k]? = some n ∧ w = (nibAddr k, BitVec.ofNat 8 n) := by
  simp only [nibWrites, List.mem_map, Prod.exists, List.mk_mem_zipIdx_iff_getElem?]
  constructor
  · rintro ⟨n, k, h, rfl⟩; exact ⟨k, n, h, rfl⟩
  · rintro ⟨k, n, h, rfl⟩; exact ⟨n, k, h, rfl⟩

theorem mem_hashWrites {bs : List Byte} {w : Nat × Byte} :
    w ∈ hashWrites bs ↔ ∃ i b, bs[i]? = some b ∧ w = (hashAddr i, b) := by
  simp only [hashWrites, List.mem_map, Prod.exists, List.mk_mem_zipIdx_iff_getElem?]
  constructor
  · rintro ⟨b, i, h, rfl⟩; exact ⟨i, b, h, rfl⟩
  · rintro ⟨i, b, h, rfl⟩; exact ⟨b, i, h, rfl⟩

end Sys2Proof.Machine
end

