-- ==== Sys2Proof/Laws/Units.lean ====
section
/-! SUPPORT. What a unit command can do, said once for all of them: it leaves alone every register that is
no output of a command, and it keeps the memory in its form. -/

namespace Sys2Proof.Machine

/-! ## Bounds on a hash -/

theorem layout_bounds (p : Params) (a l : Bool) {count : Nat} (h1 : 1 ≤ count) (h7 : count ≤ 7) :
    (layout p a count l).n ≤ 46 ∧ (layout p a count l).len ≤ 29 ∧ 13 ≤ (layout p a count l).len ∧
      1 ≤ (layout p a count l).lx ∧ (layout p a count l).lx ≤ 7 ∧
      1 ≤ (layout p a count l).ly ∧ (layout p a count l).ly ≤ 7 ∧ (layout p a count l).nL ≤ 27 := by
  have key : ∀ f ∈ [1, 3], ∀ a l : Bool, ∀ c < 8, 1 ≤ c →
      let e := extents a c l
      let nL := countAc (max f e.1) (max f e.2)
      let n := nL + 10 + if a then 14 else 0
      let len := (if a then 6 else 5) + ceilHalf n
      n ≤ 46 ∧ len ≤ 29 ∧ 13 ≤ len ∧ 1 ≤ e.1 ∧ e.1 ≤ 7 ∧ 1 ≤ e.2 ∧ e.2 ≤ 7 ∧ nL ≤ 27 := by decide +kernel
  have hf : p.floorValue ∈ [1, 3] := by
    rcases Params.floorValue_cases p with h | h <;> simp [h]
  exact key _ hf a l count (by omega) h1

theorem State.fieldLCount_le (s : State) : s.fieldLCount ≤ 7 := by
  unfold State.fieldLCount; omega

theorem State.hashCount_le (s : State) : s.hashCount ≤ 7 := by
  unfold State.hashCount; omega

theorem State.length_packBytes (s : State) : s.packBytes.length = s.packLayout.len := by
  simp only [State.packBytes, State.packHeader, State.packLayout, layout]
  cases s.fieldHasAlpha <;> simp <;> omega

theorem State.hashCheck_none {s : State} (h : s.hashCheck = none) :
    s.hashLen.toNat ≤ 32 ∧ 5 ≤ s.hashLen.toNat ∧ (s.hashAlpha = true → 6 ≤ s.hashLen.toNat) ∧
      1 ≤ s.hashCount ∧ s.hashLayout.len ≤ s.hashLen.toNat := by
  simp only [State.hashCheck] at h
  (repeat' split at h) <;> simp_all
  omega

/-! ## QUANT's checks -/

theorem State.hasExtents_iff {s : State} {c : Channel} {nx ny : Nat} :
    s.hasExtents c nx ny = true ↔ (s.ext.get c).nx.toNat = nx ∧ (s.ext.get c).ny.toNat = ny := by
  simp only [State.hasExtents, decide_eq_true_eq]

theorem State.recordsMatch_iff {s : State} : s.recordsMatch = true ↔
    ((s.ext.l.nx.toNat = s.params.floored s.lext.lx.toNat ∧
      s.ext.l.ny.toNat = s.params.floored s.lext.ly.toNat) ∧
    (s.ext.p.nx.toNat = 3 ∧ s.ext.p.ny.toNat = 3)) ∧ (s.ext.q.nx.toNat = 3 ∧ s.ext.q.ny.toNat = 3) ∧
    (s.lext.hasAlpha = true → s.ext.a.nx.toNat = 5 ∧ s.ext.a.ny.toNat = 5) := by
  simp only [State.recordsMatch, Bool.and_eq_true, State.hasExtents_iff, Bool.or_eq_true,
    Bool.not_eq_true', PerChannel.get]
  cases s.lext.hasAlpha <;> simp [and_assoc]

/-- The AC count of luminance with one extent at the limit (43_quant.md R184). -/
theorem State.countAc_lext_le {s : State} (h : s.lextEncodable = true) :
    countAc (s.params.floored s.lext.lx.toNat) (s.params.floored s.lext.ly.toNat) ≤
      if s.lext.hasAlpha then 22 else 27 := by
  have key : ∀ f ∈ [1, 3], ∀ x < 8, ∀ y < 8, ∀ a : Bool, x = limit a ∨ y = limit a →
      countAc (max f x) (max f y) ≤ if a then 22 else 27 := by decide +kernel
  have hf : s.params.floorValue ∈ [1, 3] := by
    rcases Params.floorValue_cases s.params with h | h <;> simp [h]
  refine key _ hf _ (by omega) _ (by omega) _ ?_
  simp only [State.lextEncodable, Bool.and_eq_true] at h
  obtain ⟨-, h⟩ := h
  split at h
  · exact .inl (of_decide_eq_true h)
  · exact .inr (of_decide_eq_true h)

/-- QUANT writes at most 46 nibbles (44_pack.md R202). -/
theorem State.length_quantNibbles_le {s : State} (he : s.lextEncodable = true) (h : s.recordsMatch = true) :
    s.quantNibbles.length ≤ 46 := by
  obtain ⟨⟨⟨hl, hl'⟩, hp, hp'⟩, ⟨hq, hq'⟩, ha⟩ := State.recordsMatch_iff.1 h
  have nac : ∀ e : Ext, e.nx.toNat ≠ 0 → e.ny.toNat ≠ 0 → e.nac.toNat = countAc e.nx.toNat e.ny.toNat :=
    fun e h1 h2 => Ext.nac_toNat (fun h => h1 (by simp [h])) (fun h => h2 (by simp [h]))
  have fl := (Params.floored_bounds (p := s.params) (n := s.lext.lx.toNat) (by omega))
  have fl' := (Params.floored_bounds (p := s.params) (n := s.lext.ly.toNat) (by omega))
  have bl : s.ext.l.nac.toNat ≤ if s.lext.hasAlpha then 22 else 27 := by
    rw [nac _ (by omega) (by omega), hl, hl']; exact State.countAc_lext_le he
  have bp : s.ext.p.nac.toNat = 5 := by
    rw [nac _ (by omega) (by omega), hp, hp']; decide
  have bq : s.ext.q.nac.toNat = 5 := by
    rw [nac _ (by omega) (by omega), hq, hq']; decide
  rw [State.quantNibbles, List.length_map, State.streamOrder, streamChannels]
  cases hh : s.lext.hasAlpha
  · simp [hh] at bl; simp [PerChannel.get, bp, bq]; omega
  · obtain ⟨ha, ha'⟩ := ha hh
    have ba : s.ext.a.nac.toNat = 14 := by
      rw [nac _ (by omega) (by omega), ha, ha']; decide
    simp [hh] at bl; simp [PerChannel.get, bp, bq, ba]; omega

/-! ## The frame of every unit command -/

/-- What no unit command touches, and what it keeps. -/
structure UnitFrame (s t : State) : Prop where
  params : t.params = s.params
  irqEn : t.irqEn = s.irqEn
  cmd : t.cmd = s.cmd
  pending : t.pending = s.pending
  status : t.status = s.status
  imgDim : t.imgDim = s.imgDim
  inLen : t.inLen = s.inLen
  outBase : t.outBase = s.outBase
  epoch : t.epoch = s.epoch
  abandoned : t.abandoned = s.abandoned
  draws : t.draws = s.draws
  agenda : t.agenda = s.agenda
  resp : t.resp = s.resp
  good : s.mem.Good → t.mem.Good

theorem UnitFrame.refl (s : State) : UnitFrame s s :=
  ⟨rfl, rfl, rfl, rfl, rfl, rfl, rfl, rfl, rfl, rfl, rfl, rfl, rfl, id⟩

theorem UnitFrame.trans {s t u : State} (h : UnitFrame s t) (k : UnitFrame t u) : UnitFrame s u :=
  ⟨k.params.trans h.params, k.irqEn.trans h.irqEn, k.cmd.trans h.cmd, k.pending.trans h.pending,
    k.status.trans h.status, k.imgDim.trans h.imgDim, k.inLen.trans h.inLen, k.outBase.trans h.outBase,
    k.epoch.trans h.epoch, k.abandoned.trans h.abandoned, k.draws.trans h.draws, k.agenda.trans h.agenda, k.resp.trans h.resp,
    fun g => k.good (h.good g)⟩

theorem inStore_acWrites {c : Channel} {vs : List F64} (h : vs.length ≤ 27) :
    ∀ w ∈ acWrites c vs, ∀ i, i < 8 → inStore (w.1 + i) = true := by
  intro w hw i hi
  obtain ⟨j, hj, e⟩ := mem_acWrites.1 hw
  have : j < vs.length := (List.getElem?_eq_some_iff.1 hj).1
  rw [e]
  exact inStore_ac c (by omega) hi

theorem State.inStore_fillWrites (s : State) (c : Channel) (dc scale : F64) (k : Nat) {n : Nat} (h : n ≤ 27) :
    ∀ w ∈ s.fillWrites c dc scale k n, ∀ i, i < 8 → inStore (w.1 + i) = true := by
  intro w hw i hi
  rcases List.mem_cons.1 hw with rfl | hw
  · exact inStore_dc c hi
  rcases List.mem_cons.1 hw with rfl | hw
  · exact inStore_scale c hi
  exact inStore_acWrites (by simpa using h) w hw i hi

theorem State.inStore_dctWrites (s : State) (c : Channel) {nx ny : Nat} (hx : nx ≤ 7) (hy : ny ≤ 7) :
    ∀ w ∈ s.dctWrites c nx ny, ∀ i, i < 8 → inStore (w.1 + i) = true := by
  intro w hw i hi
  simp only [State.dctWrites, List.mem_cons] at hw
  rcases hw with hw | hw | hw
  · rw [hw]; exact inStore_dc c hi
  · rw [hw]; exact inStore_scale c hi
  · refine inStore_acWrites ?_ w hw i hi
    simp only [List.length_map, State.rawAc, length_acPairs]
    exact countAc_le hx hy

theorem State.inStore_dequantWrites (s : State) :
    ∀ w ∈ s.dequantWrites, ∀ i, i < 8 → inStore (w.1 + i) = true := by
  intro w hw i hi
  have hx : s.dequantNx ≤ 7 := (Params.floored_bounds (by omega)).2.2
  have hy : s.dequantNy ≤ 7 := (Params.floored_bounds (by omega)).2.2
  have h3 : countAc 3 3 ≤ 27 := countAc_le (by omega) (by omega)
  have h5 : countAc 5 5 ≤ 27 := countAc_le (by omega) (by omega)
  simp only [State.dequantWrites, List.mem_append] at hw
  rcases hw with ((hw | hw) | hw) | hw
  · exact State.inStore_fillWrites s _ _ _ _ (countAc_le hx hy) w hw i hi
  · exact State.inStore_fillWrites s _ _ _ _ h3 w hw i hi
  · exact State.inStore_fillWrites s _ _ _ _ h3 w hw i hi
  · split at hw
    · exact State.inStore_fillWrites s _ _ _ _ h5 w hw i hi
    · cases hw

theorem State.inStore_forwardWrites {s : State} (h : s.imgDim.inRange = true) :
    ∀ w ∈ s.forwardWrites, ∀ i, i < 8 → inStore (w.1 + i) = true := by
  have hr := Dim.inRange_iff.1 h
  intro w hw i hi
  simp only [State.forwardWrites, List.mem_flatMap] at hw
  obtain ⟨p, hp, hw⟩ := hw
  have hp := mem_pixels.1 hp
  simp only [List.mem_cons, List.not_mem_nil, or_false] at hw
  rcases hw with rfl | rfl | rfl | rfl <;> exact inStore_plane _ (by omega) (by omega) hi

theorem State.inStore_planeWrites {s : State} (c : Channel) (h : s.outDim.inRange = true) :
    ∀ w ∈ s.planeWrites c, ∀ i, i < 8 → inStore (w.1 + i) = true := by
  have hr := Dim.inRange_iff.1 h
  intro w hw i hi
  simp only [State.planeWrites, List.mem_map] at hw
  obtain ⟨p, hp, rfl⟩ := hw
  have hp := mem_pixels.1 hp
  exact inStore_plane _ (by omega) (by omega) hi

theorem State.inStore_inverseWrites {s : State} (h : s.outDim.inRange = true) :
    ∀ w ∈ s.inverseWrites, inStore w.1 = true := by
  have hr := Dim.inRange_iff.1 h
  intro w hw
  simp only [State.inverseWrites, List.mem_flatMap] at hw
  obtain ⟨p, hp, hw⟩ := hw
  have hp := mem_pixels.1 hp
  have : p.2 * s.outDim.w.toNat + p.1 < 128 * 128 := by
    calc p.2 * s.outDim.w.toNat + p.1 < p.2 * s.outDim.w.toNat + s.outDim.w.toNat := by omega
      _ = (p.2 + 1) * s.outDim.w.toNat := by ring
      _ ≤ 128 * 128 := Nat.mul_le_mul (by omega) (by omega)
  simp only [List.mem_cons, List.not_mem_nil, or_false] at hw
  rcases hw with rfl | rfl | rfl | rfl <;> exact inStore_pix (by omega)

theorem inStore_nibWrites {ns : List Nat} (h : ns.length ≤ 64) :
    ∀ w ∈ nibWrites ns, inStore w.1 = true := by
  intro w hw
  obtain ⟨k, n, hk, rfl⟩ := mem_nibWrites.1 hw
  have := (List.getElem?_eq_some_iff.1 hk).1
  exact inStore_nib (by omega)

theorem State.inStore_packWrites {s : State} (h : s.fieldLCount ≠ 0) :
    ∀ w ∈ hashWrites s.packBytes, inStore w.1 = true := by
  intro w hw
  obtain ⟨i, b, hi, rfl⟩ := mem_hashWrites.1 hw
  have h1 := (List.getElem?_eq_some_iff.1 hi).1
  rw [State.length_packBytes] at h1
  have h2 := layout_bounds s.params s.fieldHasAlpha s.fieldLandscape (Nat.one_le_iff_ne_zero.2 h)
    s.fieldLCount_le
  exact inStore_hash (by simp only [State.packLayout] at h1; omega)

theorem State.hashLayout_n_le {s : State} (h : s.hashCheck = none) : s.hashLayout.n ≤ 46 :=
  (layout_bounds s.params s.hashAlpha s.hashLand (State.hashCheck_none h).2.2.2.1 s.hashCount_le).1

/-! ## Each unit command, where it does not raise -/

theorem unitCscFwd_ok {s t : State} (h : unitCscFwd s = .ok t) :
    s.inputSizeWrong = false ∧ s.imgDim.inRange = true ∧
      t = { s with mem := s.mem.putF64s s.forwardWrites, lext := s.forwardLext } := by
  simp only [unitCscFwd] at h
  split at h
  · cases h
  split at h
  · cases h
  exact ⟨by simp_all, by simp_all, (Except.ok.inj h).symm⟩

theorem unitDctFwd_ok {c : Channel} {nx ny : BitVec 3} {s t : State} (h : unitDctFwd c nx ny s = .ok t) :
    s.imgDim.inRange = true ∧ nx ≠ 0 ∧ ny ≠ 0 ∧
      t = { s with ext := s.ext.set c ⟨nx, ny⟩, mem := s.mem.putF64s (s.dctWrites c nx.toNat ny.toNat) } := by
  simp only [unitDctFwd] at h
  split at h
  · cases h
  split at h
  · cases h
  next h1 h2 => exact ⟨by simp_all, fun e => h2 (.inl e), fun e => h2 (.inr e), (Except.ok.inj h).symm⟩

theorem unitDctInv_ok {c : Channel} {s t : State} (h : unitDctInv c s = .ok t) :
    s.outDim.inRange = true ∧ (s.ext.get c).nx ≠ 0 ∧ (s.ext.get c).ny ≠ 0 ∧
      t = { s with mem := s.mem.putF64s (s.planeWrites c) } := by
  simp only [unitDctInv] at h
  split at h
  · cases h
  split at h
  · cases h
  next h1 h2 => exact ⟨by simp_all, fun e => h2 (.inl e), fun e => h2 (.inr e), (Except.ok.inj h).symm⟩

theorem unitQuant_ok {s t : State} (h : unitQuant s = .ok t) :
    s.lextEncodable = true ∧ s.recordsMatch = true ∧
      t = { s with
        hdr24 := s.quantHdr24
        hdr16 := s.quantHdr16
        hdr8 := s.quantHdr8
        nibCount := BitVec.ofNat 6 s.quantNibbles.length
        mem := s.mem.putBytes (nibWrites s.quantNibbles) } := by
  simp only [unitQuant] at h
  split at h
  · cases h
  split at h
  · cases h
  exact ⟨by simp_all, by simp_all, (Except.ok.inj h).symm⟩

theorem unitDequant_ok {s t : State} (h : unitDequant s = .ok t) :
    s.lext.lx ≠ 0 ∧ s.lext.ly ≠ 0 ∧
      t = { s with ext := s.dequantExt, mem := s.mem.putF64s s.dequantWrites } := by
  simp only [unitDequant] at h
  split at h
  · cases h
  next h1 => exact ⟨fun e => h1 (.inl e), fun e => h1 (.inr e), (Except.ok.inj h).symm⟩

theorem unitPack_ok {s t : State} (h : unitPack s = .ok t) :
    s.fieldLCount ≠ 0 ∧
      t = { s with
        mem := s.mem.putBytes (hashWrites s.packBytes)
        hashLen := BitVec.ofNat 6 s.packLayout.len
        nibCount := BitVec.ofNat 6 s.packLayout.n } := by
  simp only [unitPack] at h
  split at h
  · cases h
  next h1 => exact ⟨h1, (Except.ok.inj h).symm⟩

theorem unitUnpack_ok {s t : State} (h : unitUnpack s = .ok t) :
    s.hashCheck = none ∧
      t = { s with
        hdr24 := s.hash 2 ++ s.hash 1 ++ s.hash 0
        hdr16 := s.hash 4 ++ s.hash 3
        hdr8 := if s.hashAlpha then s.hash 5 else 0
        nibCount := BitVec.ofNat 6 s.hashLayout.n
        lext := s.unpackLext
        mem := s.mem.putBytes
          (nibWrites ((List.range s.hashLayout.n).map (s.unpackNibble s.hashLayout.hb))) } := by
  simp only [unitUnpack] at h
  split at h
  · cases h
  next h1 => exact ⟨h1, (Except.ok.inj h).symm⟩

theorem unitSize_ok {s t : State} (h : unitSize s = .ok t) :
    s.fieldLCount ≠ 0 ∧ s.baseInRange = true ∧
      t = { s with outDim := ⟨BitVec.ofNat 16 s.sizeResult.1, BitVec.ofNat 16 s.sizeResult.2⟩ } := by
  simp only [unitSize] at h
  split at h
  · cases h
  split at h
  · cases h
  next h1 h2 => exact ⟨h1, by simpa using h2, (Except.ok.inj h).symm⟩

theorem unitCscInv_ok {s t : State} (h : unitCscInv s = .ok t) :
    s.outDim.inRange = true ∧ t = { s with mem := s.mem.putBytes s.inverseWrites } := by
  simp only [unitCscInv] at h
  split at h
  · cases h
  exact ⟨by simp_all, (Except.ok.inj h).symm⟩

/-- The fields no unit command writes, and the form of the memory. -/
theorem UnitFrame.intro {s : State} {hashLen : BitVec 6} {outDim : Dim} {lext : Lext} {hdr24 : BitVec 24}
    {hdr16 : BitVec 16} {hdr8 : BitVec 8} {nibCount : BitVec 6} {ext : PerChannel Ext} {mem : Memory}
    (hm : s.mem.Good → mem.Good) :
    UnitFrame s { s with
      hashLen := hashLen
      outDim := outDim
      lext := lext
      hdr24 := hdr24
      hdr16 := hdr16
      hdr8 := hdr8
      nibCount := nibCount
      ext := ext
      mem := mem } :=
  ⟨rfl, rfl, rfl, rfl, rfl, rfl, rfl, rfl, rfl, rfl, rfl, rfl, rfl, hm⟩

/-- The frame of every unit command. -/
theorem runUnit_frame {u : UnitCmd} {s t : State} (h : runUnit u s = .ok t) : UnitFrame s t := by
  cases u with
  | cscFwd =>
    obtain ⟨_, hr, rfl⟩ := unitCscFwd_ok h
    exact UnitFrame.intro fun g => Memory.good_putF64s g (State.inStore_forwardWrites hr)
  | dctFwd c nx ny =>
    obtain ⟨_, _, _, rfl⟩ := unitDctFwd_ok h
    exact UnitFrame.intro fun g => Memory.good_putF64s g (State.inStore_dctWrites s c (by omega) (by omega))
  | quant =>
    obtain ⟨he, hr, rfl⟩ := unitQuant_ok h
    exact UnitFrame.intro fun g => Memory.good_putBytes g
      (inStore_nibWrites (by have := State.length_quantNibbles_le he hr; omega))
  | pack =>
    obtain ⟨hc, rfl⟩ := unitPack_ok h
    exact UnitFrame.intro fun g => Memory.good_putBytes g (State.inStore_packWrites hc)
  | unpack =>
    obtain ⟨hc, rfl⟩ := unitUnpack_ok h
    exact UnitFrame.intro fun g => Memory.good_putBytes g
      (inStore_nibWrites (by have := State.hashLayout_n_le hc; simp; omega))
  | dequant =>
    obtain ⟨_, _, rfl⟩ := unitDequant_ok h
    exact UnitFrame.intro fun g => Memory.good_putF64s g (State.inStore_dequantWrites s)
  | size =>
    obtain ⟨_, _, rfl⟩ := unitSize_ok h
    exact UnitFrame.intro id
  | dctInv c =>
    obtain ⟨hr, _, _, rfl⟩ := unitDctInv_ok h
    exact UnitFrame.intro fun g => Memory.good_putF64s g (State.inStore_planeWrites c hr)
  | cscInv =>
    obtain ⟨hr, rfl⟩ := unitCscInv_ok h
    exact UnitFrame.intro fun g => Memory.good_putBytes g (State.inStore_inverseWrites hr)

theorem runUnits_frame {us : List UnitCmd} {s t : State} (h : runUnits us s = .ok t) : UnitFrame s t := by
  induction us generalizing s with
  | nil => cases h; exact UnitFrame.refl _
  | cons u rest ih =>
    simp only [runUnits] at h
    split at h
    · cases h
    · next hu => exact (runUnit_frame hu).trans (ih h)

theorem unitEncode_frame {s t : State} (h : unitEncode s = .ok t) : UnitFrame s t := by
  simp only [unitEncode] at h
  split at h
  · cases h
  split at h
  · cases h
  split at h
  · cases h
  · next hu => exact (runUnit_frame hu).trans (runUnits_frame h)

theorem unitDecode_frame {s t : State} (h : unitDecode s = .ok t) : UnitFrame s t := by
  simp only [unitDecode] at h
  split at h
  · cases h
  split at h
  · cases h
  split at h
  · cases h
  · next hu => exact (runUnit_frame hu).trans (runUnits_frame h)

end Sys2Proof.Machine
end

