-- ==== Sys2Proof/Laws/Exec.lean ====
section
/-! SUPPORT. The engine step said once: a command's result, completed. -/

namespace Sys2Proof.Machine

/-- What a command computes or raises, without its completion. -/
def commandResult (i : Instr) (s : State) : Except CmdError State :=
  match i with
  | .nop => .ok s
  | .encode => unitEncode s
  | .decode => unitDecode s
  | .cscFwd => unitCscFwd s
  | .dctFwd c nx ny => unitDctFwd c (BitVec.ofNat 3 nx) (BitVec.ofNat 3 ny) s
  | .quant => unitQuant s
  | .pack => unitPack s
  | .unpack => unitUnpack s
  | .dequant => unitDequant s
  | .size => unitSize s
  | .dctInv c => unitDctInv c s
  | .cscInv => unitCscInv s

/-- Every meaning is the completion of its command's result. -/
theorem exec_eq (i : Instr) (s : State) : exec i s = .next (s.complete (commandResult i s)) := by
  cases i <;> rfl

theorem commandResult_frame {i : Instr} {s t : State} (h : commandResult i s = .ok t) : UnitFrame s t := by
  cases i with
  | nop => cases h; exact UnitFrame.refl _
  | encode => exact unitEncode_frame h
  | decode => exact unitDecode_frame h
  | cscFwd => exact runUnit_frame (u := .cscFwd) h
  | dctFwd c nx ny => exact runUnit_frame (u := .dctFwd c _ _) h
  | quant => exact runUnit_frame (u := .quant) h
  | pack => exact runUnit_frame (u := .pack) h
  | unpack => exact runUnit_frame (u := .unpack) h
  | dequant => exact runUnit_frame (u := .dequant) h
  | size => exact runUnit_frame (u := .size) h
  | dctInv c => exact runUnit_frame (u := .dctInv c) h
  | cscInv => exact runUnit_frame (u := .cscInv) h

/-- The two ways an engine step ends. -/
theorem exec_cases {i : Instr} {s t : State} (h : exec i s = .next t) :
    (∃ t', commandResult i s = .ok t' ∧ t = t'.finish none) ∨
      (∃ e, commandResult i s = .error e ∧ t = s.finish (some e)) := by
  rw [exec_eq] at h
  injection h with h
  cases hr : commandResult i s with
  | ok t' => rw [hr] at h; exact .inl ⟨t', rfl, h.symm⟩
  | error e => rw [hr] at h; exact .inr ⟨e, rfl, h.symm⟩

@[simp] theorem complete_ok (s t : State) : s.complete (.ok t) = t.finish none := rfl

@[simp] theorem complete_error (s : State) (e : CmdError) : s.complete (.error e) = s.finish (some e) := rfl

theorem exec_of_ok {i : Instr} {s t : State} (h : commandResult i s = .ok t) :
    exec i s = .next (t.finish none) := by
  rw [exec_eq, h, complete_ok]

theorem exec_of_error {i : Instr} {s : State} {e : CmdError} (h : commandResult i s = .error e) :
    exec i s = .next (s.finish (some e)) := by
  rw [exec_eq, h, complete_error]

theorem Status.completed_legal (e : Option CmdError) : (Status.completed e).legal = true := by
  cases e with
  | none => rfl
  | some e => cases e <;> rfl

end Sys2Proof.Machine
end

