-- ==== Sys2Proof/Laws/Float64.lean ====
section
/-! SUPPORT. The binary64 operations said once: the fields of an encoding, the classes of values, what
rounding to an integer leaves, and which encoding `round` gives. -/

namespace Sys2Proof.F64

theorem mag_lt (x : F64) : x.mag < 2 ^ 63 := (x.bits.extractLsb' 0 63).isLt

theorem fracField_lt (x : F64) : x.fracField < 2 ^ 52 := (x.bits.extractLsb' 0 52).isLt

theorem expField_lt (x : F64) : x.expField < 2 ^ 11 := (x.bits.extractLsb' 52 11).isLt

/-- The magnitude bits are the exponent field over the fraction field. -/
theorem mag_eq (x : F64) : x.mag = x.expField * 2 ^ 52 + x.fracField := by
  simp only [mag, expField, fracField, BitVec.extractLsb'_toNat, Nat.shiftRight_eq_div_pow]
  omega

theorem expField_eq (x : F64) : x.expField = x.mag / 2 ^ 52 := by
  have := x.fracField_lt
  rw [mag_eq]; omega

theorem fracField_eq (x : F64) : x.fracField = x.mag % 2 ^ 52 := by
  have := x.fracField_lt
  rw [mag_eq]; omega

@[simp] theorem mag_ofSignMag (b : Bool) {m : Nat} (h : m < 2 ^ 63) : (ofSignMag b m).mag = m := by
  simp only [mag, ofSignMag, BitVec.extractLsb'_toNat, Nat.shiftRight_zero, BitVec.toNat_ofNat]
  cases b <;> simp <;> omega

@[simp] theorem neg?_ofSignMag (b : Bool) {m : Nat} (h : m < 2 ^ 63) : (ofSignMag b m).neg? = b := by
  simp only [neg?, ofSignMag, BitVec.msb_eq_decide, BitVec.toNat_ofNat]
  cases b <;> simp <;> omega

/-- A value is the encoding of its sign and its magnitude bits. -/
theorem ofSignMag_eta (x : F64) : ofSignMag x.neg? x.mag = x := by
  obtain ⟨b⟩ := x
  have h := b.isLt
  simp only [ofSignMag, neg?, mag, BitVec.msb_eq_decide, BitVec.extractLsb'_toNat, Nat.shiftRight_zero]
  congr 1
  apply BitVec.eq_of_toNat_eq
  simp only [BitVec.toNat_ofNat]
  split <;> simp_all <;> omega

theorem isNaN_iff (x : F64) : x.isNaN = true ↔ 2047 * 2 ^ 52 < x.mag := by
  have := x.mag_lt
  simp only [isNaN, Bool.and_eq_true, beq_iff_eq, bne_iff_ne, expField_eq, fracField_eq]
  omega

theorem isInf_iff (x : F64) : x.isInf = true ↔ x.mag = 2047 * 2 ^ 52 := by
  have := x.mag_lt
  simp only [isInf, Bool.and_eq_true, beq_iff_eq, expField_eq, fracField_eq]
  omega

theorem isFinite_iff (x : F64) : x.isFinite = true ↔ x.mag < 2047 * 2 ^ 52 := by
  have := x.mag_lt
  simp only [isFinite, bne_iff_ne, expField_eq]
  omega

@[simp] theorem isNaN_nanOf (op : ArithOp) (x y : F64) : (nanOf op x y).isNaN = true := by
  rw [isNaN_iff]
  unfold nanOf
  generalize (Config.nanChoice op x y).bits = c
  simp only [mag]
  split
  · next h =>
    have h' : (c ||| 0x7FF0000000000000#64).extractLsb' 0 52 = 0#52 := BitVec.eq_of_toNat_eq (by simpa using h)
    have : ((c ||| 0x7FF0000000000000#64) ||| 1#64).extractLsb' 0 63 = 0x7FF0000000000001#63 := by
      apply BitVec.eq_of_getLsbD_eq
      intro i hi
      have hc : i < 52 → c.getLsbD i = false := by
        intro hi52
        have := congrArg (fun v => v.getLsbD i) h'
        simp [hi52] at this
        exact this.1
      simp only [BitVec.getLsbD_extractLsb', hi, decide_true, Nat.zero_add, BitVec.getLsbD_or, Bool.true_and]
      by_cases hi52 : i < 52
      · rw [hc hi52]; interval_cases i <;> rfl
      · have : 52 ≤ i := by omega
        have hi' : i < 63 := hi
        have e : (0x7FF0000000000000#64).getLsbD i = true := by interval_cases i <;> rfl
        rw [e]; interval_cases i <;> simp
    rw [this]; decide
  · next h =>
    set b := c ||| 0x7FF0000000000000#64 with hb
    have e : b.extractLsb' 52 11 = 0x7FF#11 := by
      apply BitVec.eq_of_getLsbD_eq
      intro i hi
      have hi' : i < 11 := hi
      rw [hb]
      simp only [BitVec.getLsbD_extractLsb', hi, decide_true, BitVec.getLsbD_or, Bool.true_and]
      have : (0x7FF0000000000000#64).getLsbD (52 + i) = true := by interval_cases i <;> rfl
      have r : (0x7FF#11).getLsbD i = true := by interval_cases i <;> rfl
      rw [this, r]; simp
    have m := mag_eq ⟨b⟩
    simp only [mag, expField, fracField, e] at m
    rw [m]
    have : (0x7FF#11).toNat = 2047 := rfl
    omega

@[simp] theorem mag_negate (x : F64) : x.negate.mag = x.mag := by
  simp only [mag, negate]
  congr 1
  apply BitVec.eq_of_getLsbD_eq
  intro i hi
  have hi' : i < 63 := hi
  have : (0x8000000000000000#64).getLsbD i = false := by interval_cases i <;> rfl
  simp [this]

@[simp] theorem neg?_negate (x : F64) : x.negate.neg? = !x.neg? := by
  simp only [neg?, negate, BitVec.msb_xor]
  have : (0x8000000000000000#64).msb = true := rfl
  rw [this]; simp

@[simp] theorem mag_abs (x : F64) : x.abs.mag = x.mag := by
  simp only [mag, abs]
  congr 1
  apply BitVec.eq_of_getLsbD_eq
  intro i hi
  have hi' : i < 63 := hi
  have : (0x7FFFFFFFFFFFFFFF#64).getLsbD i = true := by interval_cases i <;> rfl
  simp [this]

@[simp] theorem neg?_abs (x : F64) : x.abs.neg? = false := by
  simp only [neg?, abs, BitVec.msb_and]
  have : (0x7FFFFFFFFFFFFFFF#64).msb = false := rfl
  rw [this]; simp

theorem mant_lt (x : F64) : x.mant < 2 ^ 53 := by
  have := x.fracField_lt
  unfold mant; split <;> omega

/-- `shiftRoundEven` is exact where no bit falls away. -/
theorem shiftRoundEven_of_nonpos (m : Nat) {k : Int} (h : k ≤ 0) :
    shiftRoundEven m k = m * 2 ^ (-k).toNat := by simp [shiftRoundEven, h]

/-- `shiftRoundEven` is nearest: twice its error is at most the unit. -/
theorem shiftRoundEven_near (m : Nat) {k : Int} (h : 0 < k) :
    2 * m ≤ 2 * (shiftRoundEven m k * 2 ^ k.toNat) + 2 ^ k.toNat ∧
      2 * (shiftRoundEven m k * 2 ^ k.toNat) ≤ 2 * m + 2 ^ k.toNat := by
  have hk : ¬k ≤ 0 := by omega
  have hu : 0 < 2 ^ k.toNat := Nat.two_pow_pos _
  have hd := Nat.div_add_mod m (2 ^ k.toNat)
  have hr := Nat.mod_lt m hu
  simp only [shiftRoundEven, hk, if_false]
  generalize m / 2 ^ k.toNat = d at *
  generalize m % 2 ^ k.toNat = r at *
  generalize 2 ^ k.toNat = u at *
  rw [Nat.mul_comm] at hd
  split <;> rename_i hc
  · rw [Nat.add_mul]; omega
  · omega

/-- A larger number rounds to no smaller one. -/
theorem shiftRoundEven_mono {m n : Nat} (h : m ≤ n) (k : Int) : shiftRoundEven m k ≤ shiftRoundEven n k := by
  by_cases hk : k ≤ 0
  · simp only [shiftRoundEven, hk, if_true]; exact Nat.mul_le_mul_right _ h
  · have hu : 0 < 2 ^ k.toNat := Nat.two_pow_pos _
    have hdm := Nat.div_add_mod m (2 ^ k.toNat)
    have hdn := Nat.div_add_mod n (2 ^ k.toNat)
    have hrm := Nat.mod_lt m hu
    have hrn := Nat.mod_lt n hu
    have hle : m / 2 ^ k.toNat ≤ n / 2 ^ k.toNat := Nat.div_le_div_right h
    simp only [shiftRoundEven, hk, if_false]
    rcases Nat.lt_or_eq_of_le hle with hlt | heq
    · split <;> split <;> omega
    · rw [← heq] at hdn ⊢
      generalize m / 2 ^ k.toNat = d at *
      generalize m % 2 ^ k.toNat = r at *
      generalize n % 2 ^ k.toNat = r' at *
      generalize 2 ^ k.toNat = u at *
      have : r ≤ r' := by omega
      split <;> split <;> omega

/-- The value `round` gives is never a NaN, and keeps the sign. -/
theorem round_class (s : Bool) (m : Nat) (e : Int) :
    (round s m e).neg? = s ∧ (round s m e).mag ≤ 2047 * 2 ^ 52 := by
  unfold round
  split
  · simp
  · dsimp only
    generalize (max (e + (Nat.log2 m : Int) - 52) (-1074) + 1074).toNat * 2 ^ 52 + _ = g
    have : min g (2047 * 2 ^ 52) < 2 ^ 63 := by omega
    rw [neg?_ofSignMag _ this, mag_ofSignMag _ this]
    exact ⟨rfl, Nat.min_le_right _ _⟩

@[simp] theorem isNaN_round (s : Bool) (m : Nat) (e : Int) : (round s m e).isNaN = false := by
  have := (round_class s m e).2
  rw [← Bool.not_eq_true, isNaN_iff]; omega

/-- A sum of finite values is no NaN. -/
theorem isNaN_addFinite (x y : F64) : (addFinite x y).isNaN = false := by
  simp only [addFinite]
  split
  · rw [← Bool.not_eq_true, isNaN_iff, mag_ofSignMag _ (by omega)]; omega
  · simp

@[simp] theorem isNaN_ofNat (n : Nat) : (ofNat n).isNaN = false := isNaN_round _ _ _

/-- The order of the reals on values that are no NaN. -/
theorem lt_iff {x y : F64} (hx : x.isNaN = false) (hy : y.isNaN = false) :
    x.lt y = true ↔ x.key < y.key := by simp [lt, hx, hy]

theorem lt_nan {x y : F64} (h : x.isNaN = true ∨ y.isNaN = true) : x.lt y = false := by
  rcases h with h | h <;> simp [lt, h]

@[simp] theorem cos_zero : zero.cos = one := by simp [cos]

end Sys2Proof.F64
end

