-- ==== Sys2Proof/Laws/PerInstr.lean ====
section
/-! SUPPORT. Families of statements made for every command: `SelectsRow` says that the words of a command
select its row of the opcode table and no other (30_encoding.md R104). -/

namespace Sys2Proof.Laws.SelectsRow

/-- The command's word selects its own row of the opcode table, and only that row. -/
def Statement (i : Instr) : Prop := opcodeTable.filter (·.selects (encode i)) = [tableRow i]

theorem nop : Statement .nop := by unfold Statement; decide
theorem encode : Statement .encode := by unfold Statement; decide
theorem decode : Statement .decode := by unfold Statement; decide
theorem cscFwd : Statement .cscFwd := by unfold Statement; decide
theorem quant : Statement .quant := by unfold Statement; decide
theorem pack : Statement .pack := by unfold Statement; decide
theorem unpack : Statement .unpack := by unfold Statement; decide
theorem dequant : Statement .dequant := by unfold Statement; decide
theorem size : Statement .size := by unfold Statement; decide
theorem cscInv : Statement .cscInv := by unfold Statement; decide

theorem dctInv (ch : Channel) : Statement (.dctInv ch) := by cases ch <;> (unfold Statement; decide)

theorem dctFwd (ch : Channel) (nx ny : Nat) : Statement (.dctFwd ch nx ny) := by
  have key : ∀ c : Channel, ∀ x : Fin 8, ∀ y : Fin 8,
      opcodeTable.filter (·.selects (commandWord 0x11 c.field (.ofFin x) (.ofFin y))) =
        [tableRow (.dctFwd .L 0 0)] := by
    intro c; cases c <;> decide +kernel
  exact key ch (BitVec.ofNat 3 nx).toFin (BitVec.ofNat 3 ny).toFin

end Sys2Proof.Laws.SelectsRow
end

