-- ==== Sys2Proof/Laws/Port.lean ====
section
/-! SUPPORT. What a soft reset and a host transaction can do, said once. -/

namespace Sys2Proof.Machine

/-! ## What making elements unspecified does -/

/-- A byte of the footprint is a free value of the new draw, every other byte is as before. -/
theorem State.byte_unspecify (s : State) (f : Footprint) (a : Nat) :
    (s.unspecify f).byte a =
      if inSpans f.spans a then maskAt a (Config.unspecifiedByte s.draws a) else s.byte a := by
  by_cases h : inSpans f.spans a <;>
    simp [State.byte, State.unlisted, State.unspecify, Memory.find_forget, drawAt, h]

/-- So are the extents of a record. -/
theorem State.ext_unspecify (s : State) (f : Footprint) (c : Channel) :
    (s.unspecify f).ext.get c = if c ∈ f.exts then unspecifiedExt s.draws c else s.ext.get c := by
  simp only [State.unspecify]
  generalize f.exts = cs
  generalize s.ext = e
  induction cs generalizing e with
  | nil => simp
  | cons x xs ih =>
    rw [List.foldl_cons, ih]
    by_cases h : c ∈ xs
    · simp [h]
    · cases c <;> cases x <;> simp_all [PerChannel.get, PerChannel.set]

/-- Every operation of a soft reset keeps the form of the memory. -/
theorem State.good_softReset {s : State} (h : s.mem.Good) : s.softReset.mem.Good := by
  simp only [State.softReset, State.resetRegisters_mem, State.abandon]
  split
  · exact Memory.good_forget h _
  · exact h

/-! ## The elements a rule can write -/

theorem inSpans_append (ps qs : List Span) (a : Nat) : inSpans (ps ++ qs) a = (inSpans ps a || inSpans qs a) :=
  List.any_append

/-- The outputs of a sequence are those of its unit commands. -/
theorem mem_outputsOfAll {ts : List UnitCmd} {a : Nat} {c : Channel} :
    (inSpans (outputsOfAll ts).spans a = true ↔ ∃ t ∈ ts, inSpans (outputsOf t).spans a = true) ∧
      (c ∈ (outputsOfAll ts).exts ↔ ∃ t ∈ ts, c ∈ (outputsOf t).exts) := by
  induction ts with
  | nil => simp [outputsOfAll, Footprint.none, inSpans]
  | cons t rest ih =>
    have e : outputsOfAll (t :: rest) = (outputsOf t).union (outputsOfAll rest) := rfl
    simp only [e, Footprint.union, inSpans_append, Bool.or_eq_true, ih.1, List.mem_append, ih.2, List.mem_cons,
      exists_eq_or_imp, and_self]

/-! ## The address map -/

/-- An aligned word that starts in a store lies in it. -/
theorem inStore_word {a i : Nat} (h : inStore a = true) (h4 : a % 4 = 0) (hi : i < 4) :
    inStore (a + i) = true := by
  simp only [inStore, inNib, inCoefData, Bool.or_eq_true, Bool.and_eq_true, decide_eq_true_eq] at h ⊢
  simp only [hashBase, nibBase, coefBase, pixBase, planeBase] at h ⊢
  omega

theorem target_store {a : Nat} (h : target a = some .store) : inStore a = true := by
  simp only [target] at h
  split at h
  · simp [Option.map_eq_some_iff] at h
  · split at h
    · simp at h
    · split at h
      · assumption
      · cases h

theorem reached_store {a : Addr} (h : reached a = some .store) :
    a.toNat % 4 = 0 ∧ inStore a.toNat = true := by
  simp only [reached] at h
  split at h
  · next h4 => exact ⟨h4, target_store h⟩
  · cases h

/-! ## Transactions -/

theorem State.transact_unmapped {s : State} {a : Addr} (h : reached a = none) (w : Word) :
    s.transact (.read a) = s.refuseRead ∧ s.transact (.write a w) = s.refuseWrite := by
  simp [State.transact, State.hostRead, State.hostWrite, h]

/-- A read of a target that may be read. -/
theorem State.transact_read {s : State} {a : Addr} {t : Target} (h : reached a = some t)
    (hb : s.busy = false ∨ t.readableBusy = true) :
    s.transact (.read a) = s.answer ⟨some (s.readTarget a.toNat t), .okay⟩ := by
  rcases hb with hb | hb <;> simp [State.transact, State.hostRead, h, hb]

/-- A write to a target that may be written. -/
theorem State.transact_write {s : State} {a : Addr} {t : Target} (h : reached a = some t)
    (hb : s.busy = false ∨ t.writableBusy = true) (w : Word) :
    s.transact (.write a w) = (s.writeTarget a.toNat w t).answer ⟨none, .okay⟩ := by
  rcases hb with hb | hb <;> simp [State.transact, State.hostWrite, h, hb]

/-- A write that BUSY = 1 turns away. -/
theorem State.transact_write_busy {s : State} {a : Addr} {t : Target} (h : reached a = some t)
    (hb : s.busy = true) (ht : t.writableBusy = false) (w : Word) :
    s.transact (.write a w) = s.refuseWrite := by
  simp [State.transact, State.hostWrite, h, hb, ht]

/-- What a read changes: the answer and, while BUSY = 1, the count of draws. -/
theorem State.hostRead_eq (s : State) (a : Addr) :
    ∃ r d, s.hostRead a = { s with resp := some r, draws := d } ∧ s.draws ≤ d := by
  simp only [State.hostRead]
  split
  · exact ⟨⟨some 0, .error⟩, s.draws, rfl, le_refl _⟩
  · split
    · exact ⟨_, s.draws + 1, rfl, by omega⟩
    · exact ⟨_, s.draws, rfl, le_refl _⟩

/-- The outcomes of a write: refused, or performed on its target. -/
theorem State.hostWrite_cases (s : State) (a : Addr) (w : Word) :
    (s.hostWrite a w = s.refuseWrite) ∨
      (∃ t, reached a = some t ∧ (s.busy = true → t.writableBusy = true) ∧
        s.hostWrite a w = (s.writeTarget a.toNat w t).answer ⟨none, .okay⟩) := by
  simp only [State.hostWrite]
  split
  · exact .inl rfl
  · next t h =>
    split
    · exact .inl rfl
    · next hb => exact .inr ⟨t, h, by simpa using hb, rfl⟩

end Sys2Proof.Machine
end

