-- ==== Sys2Proof/Laws/Step.lean ====
section
/-! SUPPORT. What a step can do, said once. -/

namespace Sys2Proof.Machine

/-- What the engine step can do. -/
theorem engineStep_cases {s t : State} (h : engineStep s = .next t) :
    (s.pending = none ∧ t = s) ∨
      (∃ w e, s.pending = some w ∧ decodeWord w = .error e ∧ t = s.finish (some .badOpcode)) ∨
      (∃ w i, s.pending = some w ∧ decodeWord w = .ok i ∧ exec i s = .next t) := by
  simp only [engineStep] at h
  split at h
  · next hp => injection h with h; exact .inl ⟨hp, h.symm⟩
  · next w hp =>
    split at h
    · next e hd => injection h with h; exact .inr (.inl ⟨w, e, hp, hd, h.symm⟩)
    · next i hd => exact .inr (.inr ⟨w, i, hp, hd, h⟩)

/-- What a step can do. -/
theorem step_cases {s t : State} (h : step s = .next t) :
    (s.agenda = [] ∧ engineStep s = .next t) ∨
      (∃ rest, s.agenda = .engine :: rest ∧ engineStep { s with agenda := rest } = .next t) ∨
      (∃ r rest, s.agenda = .host r :: rest ∧ t = { s with agenda := rest }.transact r) ∨
      (∃ rest, s.agenda = .powerOn :: rest ∧ t = { s with agenda := rest }.powerOn) := by
  simp only [step] at h
  split at h
  · next ha => exact .inl ⟨ha, h⟩
  · next a rest ha =>
    cases a with
    | engine => exact .inr (.inl ⟨rest, ha, h⟩)
    | host r => simp only [act] at h; injection h with h; exact .inr (.inr (.inl ⟨r, rest, ha, h.symm⟩))
    | powerOn => simp only [act] at h; injection h with h; exact .inr (.inr (.inr ⟨rest, ha, h.symm⟩))

end Sys2Proof.Machine
end

