-- ==== Sys2Proof/Laws/Value.lean ====
section
/-! SUPPORT. The value of a binary64 said once: its magnitude rises with the low 63 bits, comparison is the
order of the values, and the floor and the rounding of a value are those of `ℚ`. -/

namespace Sys2Proof.F64

theorem value_eq (x : F64) : x.value = (if x.neg? then -1 else 1) * ((x.mant : ℚ) * 2 ^ x.expo) := by
  rw [value, mul_assoc]

theorem abs_value (x : F64) : |x.value| = (x.mant : ℚ) * 2 ^ x.expo := by
  have h : (0 : ℚ) ≤ (x.mant : ℚ) * 2 ^ x.expo := by positivity
  rw [value_eq]; split <;> simp [abs_of_nonneg h]

/-- Only the two zeros have the value 0. -/
theorem value_eq_zero (x : F64) : x.value = 0 ↔ x.mag = 0 := by
  have hm : x.mant = 0 ↔ x.mag = 0 := by
    have := x.fracField_lt
    rw [mag_eq, mant]; split <;> omega
  have h2 : (2 : ℚ) ^ x.expo ≠ 0 := by positivity
  rw [← hm, ← abs_eq_zero, abs_value]
  simp [h2]

/-! ## The magnitude as a function of the low 63 bits -/

/-- The magnitude of an encoding with the low 63 bits `m`. -/
def magValue (m : Nat) : ℚ :=
  ((if m / 2 ^ 52 = 0 then m % 2 ^ 52 else 2 ^ 52 + m % 2 ^ 52 : Nat) : ℚ) *
    2 ^ (((max (m / 2 ^ 52) 1 : Nat) : ℤ) - 1075)

theorem abs_value_eq (x : F64) : |x.value| = magValue x.mag := by
  rw [abs_value, magValue, mant, expo, expField_eq, fracField_eq]

theorem value_of_mag (x : F64) : x.value = if x.neg? then -magValue x.mag else magValue x.mag := by
  rw [value_eq, ← abs_value_eq, abs_value]; split <;> ring

@[simp] theorem magValue_zero : magValue 0 = 0 := by simp [magValue]

/-- The next encoding is the next larger magnitude: one more in the last place, or the carry into the
exponent. -/
theorem magValue_strictMono : StrictMono magValue := by
  apply strictMono_nat_of_lt_succ
  intro m
  have hd := Nat.div_add_mod m (2 ^ 52)
  have hm := Nat.mod_lt m (show 0 < 2 ^ 52 by norm_num)
  unfold magValue
  rcases Nat.lt_or_ge (m % 2 ^ 52 + 1) (2 ^ 52) with h | h
  · have e1 : (m + 1) / 2 ^ 52 = m / 2 ^ 52 := by omega
    have e2 : (m + 1) % 2 ^ 52 = m % 2 ^ 52 + 1 := by omega
    rw [e1, e2]
    apply mul_lt_mul_of_pos_right _ (by positivity)
    split <;> push_cast <;> linarith
  · have e1 : (m + 1) / 2 ^ 52 = m / 2 ^ 52 + 1 := by omega
    have e2 : (m + 1) % 2 ^ 52 = 0 := by omega
    have e3 : m % 2 ^ 52 = 2 ^ 52 - 1 := by omega
    rw [e1, e2, e3, if_neg (Nat.succ_ne_zero _)]
    generalize m / 2 ^ 52 = d
    rcases Nat.eq_zero_or_pos d with rfl | hp
    · simp only [if_true]
      norm_num
    · have : ((d + 1 : Nat) : ℤ) - 1075 = ((d : ℤ) - 1075) + 1 := by push_cast; ring
      rw [if_neg (by omega), max_eq_left hp, max_eq_left (by omega), this, zpow_add₀ (by norm_num)]
      have hpos : (0 : ℚ) < 2 ^ ((d : ℤ) - 1075) := by positivity
      generalize (2 : ℚ) ^ ((d : ℤ) - 1075) = z at hpos
      norm_num
      nlinarith

theorem magValue_lt_iff {a b : Nat} : magValue a < magValue b ↔ a < b := magValue_strictMono.lt_iff_lt

theorem magValue_nonneg (m : Nat) : 0 ≤ magValue m := by
  rw [← magValue_zero]; exact magValue_strictMono.monotone (Nat.zero_le _)

/-! ## Order -/

theorem key_lt_iff (x y : F64) : x.key < y.key ↔ x.value < y.value := by
  have hx := magValue_nonneg x.mag
  have hy := magValue_nonneg y.mag
  have hx0 : 0 < magValue x.mag ↔ 0 < x.mag := by rw [← magValue_zero, magValue_lt_iff]
  have hy0 : 0 < magValue y.mag ↔ 0 < y.mag := by rw [← magValue_zero, magValue_lt_iff]
  have hx1 : x.mag = 0 → magValue x.mag = 0 := fun h => by rw [h, magValue_zero]
  have hy1 : y.mag = 0 → magValue y.mag = 0 := fun h => by rw [h, magValue_zero]
  rw [value_of_mag, value_of_mag]
  unfold key
  cases x.neg? <;> cases y.neg? <;>
    simp only [if_true, if_false, Bool.false_eq_true, neg_lt_neg_iff, magValue_lt_iff]
  · omega
  · exact ⟨fun h => by omega, fun h => by linarith⟩
  · constructor
    · intro h
      rcases (show 0 < x.mag ∨ 0 < y.mag by omega) with h | h
      · have := hx0.2 h; linarith
      · have := hy0.2 h; linarith
    · intro h
      by_contra hn
      have := hx1 (by omega)
      have := hy1 (by omega)
      linarith
  · omega

/-- Of values that are no NaN `lt` is the order; an infinity has the value of an encoding above all finite
ones. -/
theorem lt_iff_value {x y : F64} (hx : x.isNaN = false) (hy : y.isNaN = false) :
    x.lt y = true ↔ x.value < y.value := by rw [lt_iff hx hy, key_lt_iff]

/-! ## Rounding to an integer, and the parts of a sum -/

theorem floorMag_eq {x : F64} (h : 0 ≤ x.value) : (x.floorMag : ℤ) = ⌊x.value⌋ := by
  rw [show x.value = (x.mant : ℚ) * 2 ^ x.expo by rw [← abs_value, abs_of_nonneg h], floorMag]
  split
  · next he =>
    obtain ⟨n, hn⟩ := Int.eq_ofNat_of_zero_le he
    rw [hn, Int.toNat_natCast, zpow_natCast]
    have : (x.mant : ℚ) * 2 ^ n = (((x.mant * 2 ^ n : Nat) : ℤ) : ℚ) := by push_cast; ring
    rw [this, Int.floor_intCast]
  · next he =>
    obtain ⟨n, hn⟩ := Int.eq_ofNat_of_zero_le (show 0 ≤ -x.expo by omega)
    rw [hn, show x.expo = -(n : ℤ) by omega, zpow_neg, zpow_natCast, Int.toNat_natCast, ← div_eq_mul_inv,
      show (2 : ℚ) ^ n = ((2 ^ n : Nat) : ℚ) by push_cast; ring, Rat.floor_natCast_div_natCast]
    norm_cast

theorem roundMag_eq {x : F64} (h : 0 ≤ x.value) : (x.roundMag : ℤ) = ⌊x.value + 1 / 2⌋ := by
  rw [show x.value = (x.mant : ℚ) * 2 ^ x.expo by rw [← abs_value, abs_of_nonneg h], roundMag]
  split
  · next he =>
    obtain ⟨n, hn⟩ := Int.eq_ofNat_of_zero_le he
    rw [hn, Int.toNat_natCast, zpow_natCast]
    have : (x.mant : ℚ) * 2 ^ n = (((x.mant * 2 ^ n : Nat) : ℤ) : ℚ) := by push_cast; ring
    rw [this, Int.floor_intCast_add]; norm_num
  · next he =>
    obtain ⟨n, hn⟩ := Int.eq_ofNat_of_zero_le (show 0 ≤ -x.expo by omega)
    have h2 : (x.mant : ℚ) / 2 ^ n + 1 / 2 = ((2 * x.mant + 2 ^ n : Nat) : ℚ) / ((2 ^ (n + 1) : Nat) : ℚ) := by
      push_cast; field_simp; ring
    rw [hn, show x.expo = -(n : ℤ) by omega, zpow_neg, zpow_natCast, Int.toNat_natCast, ← div_eq_mul_inv, h2,
      Rat.floor_natCast_div_natCast]
    norm_cast

/-- The significand at a smaller exponent stands for the same value. -/
theorem value_scaledTo (x : F64) {e : Int} (h : e ≤ x.expo) : (x.scaledTo e : ℚ) * 2 ^ e = x.value := by
  obtain ⟨n, hn⟩ := Int.eq_ofNat_of_zero_le (show 0 ≤ x.expo - e by omega)
  simp only [scaledTo, hn, Int.toNat_natCast]
  rw [value_eq, show x.expo = n + e by omega, zpow_add₀ (by norm_num), zpow_natCast]
  split <;> push_cast <;> ring

theorem value_negate (x : F64) : x.negate.value = -x.value := by
  rw [value_of_mag, value_of_mag, mag_negate, neg?_negate]; cases x.neg? <;> simp

end Sys2Proof.F64
end

