-- ==== Sys2Proof/Laws/Writes.lean ====
section
/-! SUPPORT. The writes of each command lie apart, so that every element written reads back what was
written there (`State.f64_putF64s_of_mem`, `State.byte_putBytes_of_mem`). -/

namespace Sys2Proof.Machine

/-- Two binary64 elements that share no byte. -/
def Apart (u v : Nat × F64) : Prop := u.1 + 8 ≤ v.1 ∨ v.1 + 8 ≤ u.1

theorem apart_acWrites (c : Channel) (vs : List F64) : (acWrites c vs).Pairwise Apart := by
  rw [acWrites, List.pairwise_map]
  rw [List.pairwise_iff_getElem]
  intro i j hi hj hij
  simp only [List.getElem_zipIdx, Apart, acAddr]
  omega

/-- Where a record's AC values are written. -/
theorem acWrites_bounds {c : Channel} {vs : List F64} {w : Nat × F64} (h : w ∈ acWrites c vs) :
    acAddr c 0 ≤ w.1 ∧ w.1 + 8 ≤ acAddr c vs.length := by
  obtain ⟨j, hj, he⟩ := mem_acWrites.1 h
  have hl := (List.getElem?_eq_some_iff.1 hj).1
  simp only [he, acAddr]
  omega

/-- The writes of one record: DC, SCALE and the AC values. -/
theorem apart_record (c : Channel) (dc scale : F64) (vs : List F64) :
    ((dcAddr c, dc) :: (scaleAddr c, scale) :: acWrites c vs).Pairwise Apart := by
  refine List.Pairwise.cons ?_ (List.Pairwise.cons ?_ (apart_acWrites c vs))
  · intro w hw
    rcases List.mem_cons.1 hw with rfl | hw
    · simp only [Apart, dcAddr, scaleAddr]; omega
    · have := acWrites_bounds hw
      simp only [Apart, dcAddr, acAddr] at *; omega
  · intro w hw
    have := acWrites_bounds hw
    simp only [Apart, scaleAddr, acAddr] at *; omega

/-- Every write of a record lies in it, at most 27 AC values given. -/
theorem record_bounds {c : Channel} {dc scale : F64} {vs : List F64} (hn : vs.length ≤ 27) {w : Nat × F64}
    (h : w ∈ (dcAddr c, dc) :: (scaleAddr c, scale) :: acWrites c vs) :
    recordAddr c ≤ w.1 ∧ w.1 + 8 ≤ recordAddr c + 0x100 := by
  rcases List.mem_cons.1 h with rfl | h
  · simp only [dcAddr]; omega
  rcases List.mem_cons.1 h with rfl | h
  · simp only [scaleAddr]; omega
  have := acWrites_bounds h
  simp only [acAddr] at this; omega

theorem apart_dctWrites (s : State) (c : Channel) (nx ny : Nat) : (s.dctWrites c nx ny).Pairwise Apart :=
  apart_record c _ _ _

theorem length_fillValues (s : State) (scale : F64) (k n : Nat) :
    ((List.range n).map fun j => dequantAc scale (s.nib (k + j))).length = n := by simp

/-- The writes of two different records lie apart. -/
theorem apart_records {c d : Channel} (h : chanIndex c ≠ chanIndex d) {u v : Nat × F64}
    (hu : recordAddr c ≤ u.1 ∧ u.1 + 8 ≤ recordAddr c + 0x100)
    (hv : recordAddr d ≤ v.1 ∧ v.1 + 8 ≤ recordAddr d + 0x100) : Apart u v := by
  simp only [recordAddr, Apart] at *
  omega

theorem apart_dequantWrites (s : State) : s.dequantWrites.Pairwise Apart := by
  have hx : s.dequantNx ≤ 7 := (Params.floored_bounds (p := s.params) (n := s.lext.lx.toNat) (by omega)).2.2
  have hy : s.dequantNy ≤ 7 := (Params.floored_bounds (p := s.params) (n := s.lext.ly.toNat) (by omega)).2.2
  have hl := countAc_le hx hy
  have h3 : countAc 3 3 = 5 := by decide
  have h5 : countAc 5 5 = 14 := by decide
  have bnd : ∀ {c : Channel} {dc scale : F64} {k n : Nat} {w : Nat × F64}, n ≤ 27 →
      w ∈ s.fillWrites c dc scale k n → recordAddr c ≤ w.1 ∧ w.1 + 8 ≤ recordAddr c + 0x100 :=
    fun hn hw => record_bounds (by rw [length_fillValues]; exact hn) hw
  simp only [State.dequantWrites, h3, h5]
  rw [List.pairwise_append, List.pairwise_append, List.pairwise_append]
  refine ⟨⟨⟨apart_record .L _ _ _, apart_record .P _ _ _, ?_⟩, apart_record .Q _ _ _, ?_⟩, ?_, ?_⟩
  · intro u hu v hv
    exact apart_records (by decide) (bnd hl hu) (bnd (by omega) hv)
  · intro u hu v hv
    rcases List.mem_append.1 hu with hu | hu
    · exact apart_records (by decide) (bnd hl hu) (bnd (by omega) hv)
    · exact apart_records (by decide) (bnd (by omega) hu) (bnd (by omega) hv)
  · split
    · exact apart_record .A _ _ _
    · exact List.Pairwise.nil
  · intro u hu v hv
    split at hv
    · rcases List.mem_append.1 hu with hu | hu
      · rcases List.mem_append.1 hu with hu | hu
        · exact apart_records (by decide) (bnd hl hu) (bnd (by omega) hv)
        · exact apart_records (by decide) (bnd (by omega) hu) (bnd (by omega) hv)
      · exact apart_records (by decide) (bnd (by omega) hu) (bnd (by omega) hv)
    · cases hv

/-! ## Planes -/

theorem apart_planeWrites {s : State} (c : Channel) (h : s.outDim.inRange = true) :
    (s.planeWrites c).Pairwise Apart := by
  obtain ⟨_, hw, _, hh⟩ := Dim.inRange_iff.1 h
  simp only [State.planeWrites]
  rw [List.pairwise_map]
  refine (nodup_pixels _ _).imp_of_mem ?_
  intro p q hp hq hne
  have hp := mem_pixels.1 hp
  have hq := mem_pixels.1 hq
  exact planeAddr_apart (by omega) (by omega) (by omega) (by omega)
    fun e => hne (Prod.ext e.2.1 e.2.2)

theorem apart_forwardWrites {s : State} (h : s.imgDim.inRange = true) : s.forwardWrites.Pairwise Apart := by
  obtain ⟨_, hw, _, hh⟩ := Dim.inRange_iff.1 h
  simp only [State.forwardWrites]
  rw [List.pairwise_flatMap]
  constructor
  · intro p hp
    have hp := mem_pixels.1 hp
    simp only [List.pairwise_cons, List.mem_cons, List.not_mem_nil, or_false, forall_eq_or_imp, forall_eq,
      false_implies, implies_true, List.Pairwise.nil, and_true]
    refine ⟨⟨?_, ?_, ?_⟩, ⟨?_, ?_⟩, ?_⟩ <;>
      exact planeAddr_apart (by omega) (by omega) (by omega) (by omega) (by simp)
  · refine (nodup_pixels _ _).imp_of_mem ?_
    intro p q hp hq hne u hu v hv
    have hp := mem_pixels.1 hp
    have hq := mem_pixels.1 hq
    have key : ∀ c d : Channel, ∀ a b : F64,
        Apart (planeAddr c p.1 p.2, a) (planeAddr d q.1 q.2, b) := fun c d a b =>
      planeAddr_apart (by omega) (by omega) (by omega) (by omega) fun e => hne (Prod.ext e.2.1 e.2.2)
    simp only [List.mem_cons, List.not_mem_nil, or_false] at hu hv
    rcases hu with rfl | rfl | rfl | rfl <;> rcases hv with rfl | rfl | rfl | rfl <;> exact key _ _ _ _

/-! ## Bytes -/

theorem nodup_nibWrites (ns : List Nat) : ((nibWrites ns).map (·.1)).Nodup := by
  simp only [nibWrites, List.map_map, Function.comp_def]
  rw [List.Nodup, List.pairwise_map, List.pairwise_iff_getElem]
  intro i j hi hj hij
  simp only [List.getElem_zipIdx, nibAddr]
  omega

theorem nodup_hashWrites (bs : List Byte) : ((hashWrites bs).map (·.1)).Nodup := by
  simp only [hashWrites, List.map_map, Function.comp_def]
  rw [List.Nodup, List.pairwise_map, List.pairwise_iff_getElem]
  intro i j hi hj hij
  simp only [List.getElem_zipIdx, hashAddr]
  omega

theorem nodup_inverseWrites (s : State) : (s.inverseWrites.map (·.1)).Nodup := by
  simp only [State.inverseWrites, List.map_flatMap, List.map_cons, List.map_nil]
  rw [List.Nodup, List.pairwise_flatMap]
  constructor
  · intro p _
    simp [pixAddr]
  · refine (nodup_pixels _ _).imp_of_mem ?_
    intro p q hp hq hne u hu v hv
    have hp := (mem_pixels.1 hp).1
    have hq := (mem_pixels.1 hq).1
    have hi : p.2 * s.outDim.w.toNat + p.1 ≠ q.2 * s.outDim.w.toNat + q.1 := by
      intro e
      have h1 := congrArg (· % s.outDim.w.toNat) e
      have h2 := congrArg (· / s.outDim.w.toNat) e
      have hw : 0 < s.outDim.w.toNat := by omega
      simp only [Nat.mul_add_mod_self_right, Nat.mod_eq_of_lt hp, Nat.mod_eq_of_lt hq] at h1
      simp only [Nat.mul_comm _ s.outDim.w.toNat, Nat.mul_add_div hw, Nat.div_eq_of_lt hp,
        Nat.div_eq_of_lt hq, Nat.add_zero] at h2
      exact hne (Prod.ext h1 h2)
    simp only [List.mem_cons, List.not_mem_nil, or_false, pixAddr] at hu hv
    omega

end Sys2Proof.Machine
end

