-- ==== Sys2Proof/Tests/Slice0.lean ====
section
/-! SUPPORT. The model's own tests: ill-formed commands, words decoded, single steps whose results the spec
gives (95_test_vectors.md, by its vector ids, or hand calculation from the rules), and for each statement with
hypotheses a state and operands that meet them. -/

namespace Sys2Proof.Tests

open Sys2Proof.Machine

set_option Elab.async false

/-! ## Helpers -/

/-- The state that a command leaves. -/
def after (i : Instr) (s : State) : State :=
  match exec i s with
  | .next t => t
  | .fault _ => s
  | .refused _ => s

theorem exec_after (i : Instr) (s : State) : exec i s = .next (after i s) := by
  simp [after, exec_eq]

/-- The state that a step leaves. -/
def stepped (s : State) : State :=
  match step s with
  | .next t => t
  | .fault _ => s
  | .refused _ => s

/-- A state after reset with an input size and length. -/
def sized (w h : BitVec 16) (len : Word) : State := { State.reset with imgDim := ⟨w, h⟩, inLen := len }

/-- A state after reset with an output size. -/
def outSized (w h : BitVec 16) : State := { State.reset with outDim := ⟨w, h⟩ }

/-- A state with the pixels of a `w` by `h` image, as PIXBUF words. -/
def image (w h : BitVec 16) (px : List Word) : State :=
  { sized w h (BitVec.ofNat 32 (4 * px.length)) with
    mem := px.zipIdx.foldl (fun m p => m.putWord (pixAddr (4 * p.2)) p.1) [] }

/-- A state with a hash in HASHBUF and a length in HASH_LEN. -/
def hashed (len : BitVec 6) (bs : List Byte) : State :=
  { State.reset with hashLen := len, mem := Memory.putBytes [] (hashWrites bs) }

/-- A state with header registers and an output base. -/
def headed (hdr24 : BitVec 24) (hdr16 : BitVec 16) (base : BitVec 8) : State :=
  { State.reset with hdr24 := hdr24, hdr16 := hdr16, outBase := base }

/-- A state with a command pending. -/
def launched (s : State) (w : Word) : State := s.launch w

/-- -1.0, -0.2, 0.25, 0.5, 1/3 rounded, a NaN and the infinities. -/
def minusOne : F64 := ⟨0xBFF0000000000000#64⟩
def quarter : F64 := ⟨0x3FD0000000000000#64⟩
def third : F64 := ⟨0x3FD5555555555555#64⟩
def someNaN : F64 := ⟨0x7FF8000000000000#64⟩
def infinity : F64 := ⟨0x7FF0000000000000#64⟩

/-! ## WellFormed -/

theorem test_wf_refuses_nx : (Instr.dctFwd .L 8 1).wf = false := by decide
theorem test_wf_refuses_ny : (Instr.dctFwd .A 1 8).wf = false := by decide
theorem test_wf_takes_extents : (Instr.dctFwd .Q 7 0).wf = true := by decide
theorem test_fits_extent_field : fitsExtentField 7 = true ∧ fitsExtentField 8 = false := by decide

/-! ## Decoding: words written bit by bit from 30_encoding.md R100, NY [18:16], NX [14:12], CH [9:8], OP -/

theorem test_decode_nop : decodeWord 0b0000000000000_000_0_000_00_00_00000000 = .ok .nop := by decide
theorem test_decode_encode : decodeWord 0b0000000000000_000_0_000_00_00_00000001 = .ok .encode := by decide
theorem test_decode_decode : decodeWord 0b0000000000000_000_0_000_00_00_00000010 = .ok .decode := by decide
theorem test_decode_cscFwd : decodeWord 0b0000000000000_000_0_000_00_00_00010000 = .ok .cscFwd := by decide
theorem test_decode_dctFwd :
    decodeWord 0b0000000000000_100_0_111_00_10_00010001 = .ok (.dctFwd .Q 7 4) := by decide
theorem test_decode_quant : decodeWord 0b0000000000000_000_0_000_00_00_00010010 = .ok .quant := by decide
theorem test_decode_pack : decodeWord 0b0000000000000_000_0_000_00_00_00010011 = .ok .pack := by decide
theorem test_decode_unpack : decodeWord 0b0000000000000_000_0_000_00_00_00011000 = .ok .unpack := by decide
theorem test_decode_dequant : decodeWord 0b0000000000000_000_0_000_00_00_00011001 = .ok .dequant := by decide
theorem test_decode_size : decodeWord 0b0000000000000_000_0_000_00_00_00011010 = .ok .size := by decide
theorem test_decode_dctInv :
    decodeWord 0b0000000000000_000_0_000_00_11_00011011 = .ok (.dctInv .A) := by decide
theorem test_decode_cscInv : decodeWord 0b0000000000000_000_0_000_00_00_00011100 = .ok .cscInv := by decide

/-- V-E19 to V-E26: unknown OP, reserved bits 10, 11, 15, 19 and 31, unread CH and NX. -/
theorem test_decode_illegal :
    decodeWord 0x00000003 = .error .unknownOp ∧ decodeWord 0x00000020 = .error .unknownOp ∧
    decodeWord 0x00087011 = .error .reservedBit ∧ decodeWord 0x00000C11 = .error .reservedBit ∧
    decodeWord 0x0000801B = .error .reservedBit ∧ decodeWord 0x80000001 = .error .reservedBit ∧
    decodeWord 0x00000110 = .error .unreadField ∧ decodeWord 0x0000101B = .error .unreadField := by decide

theorem test_decodeTableWord :
    decodeTableWord 32 0x00047011 = some (.dctFwd .L 7 4) ∧ decodeTableWord 32 0x1F = none := by decide

theorem test_encode : encode (.dctFwd .P 3 3) = 0x00033111 := by decide

/-- The step after withFetchWord runs the word it was given, the first after reset. -/
theorem test_withFetchWord :
    (stepped (State.reset.withFetchWord 32 0x0000001A)).status = ⟨true, true, 2⟩ ∧
    (stepped (State.reset.withFetchWord 32 0x00000003)).status = ⟨true, true, 4⟩ := by decide

/-! ## Arithmetic -/

/-- 0.1 + 0.2 is the value above 0.3 (IEEE 754 by hand). -/
theorem test_add_rounds :
    (F64.add ⟨0x3FB999999999999A#64⟩ ⟨0x3FC999999999999A#64⟩) = ⟨0x3FD3333333333334#64⟩ := by
  decide +kernel

/-- 1 ÷ 3 and 2 ÷ 3, TWO_THIRDS (00_scope.md R11). -/
theorem test_div_rounds :
    F64.one.div F64.three = third ∧ F64.twoThirds = ⟨0x3FE5555555555555#64⟩ := by decide +kernel

/-- 95_test_vectors.md 1.4: ties away from zero, clamps, and the three that are not finite. -/
theorem test_quantize :
    (F64.thirtyOne.mul F64.half).quantize 5 = 16 ∧ (F64.fifteen.mul F64.half).quantize 4 = 8 ∧
    (F64.fifteen.mul ⟨0x3FDFFFFFFFFFFFFF#64⟩).quantize 4 = 7 ∧
    someNaN.quantize 4 = 0 ∧ infinity.quantize 4 = 15 ∧ infinity.negate.quantize 4 = 0 := by decide +kernel

/-! ## The commands -/

theorem test_nop : (after .nop (launched State.reset 0)).statusWord = 0x00000002 := by decide

/-- V-S1 and V-S6: 32 by 18, and 3 by 3 with the landscape flag of a portrait size. -/
theorem test_size_landscape : (after .size (headed 0 0x8004 32)).outDim = ⟨32, 18⟩ := by decide +kernel
theorem test_size_alpha : (after .size (headed 0x800000 0x8006 3)).outDim = ⟨3, 3⟩ := by decide +kernel

/-- V-C4: (51, 102, 204, 255). -/
theorem test_cscFwd_planes :
    let t := after .cscFwd (image 1 1 [0xFFCC6633])
    t.plane .P 0 0 = ⟨0xBFE0000000000000#64⟩ ∧ t.plane .Q 0 0 = ⟨0xBFC999999999999A#64⟩ ∧
    t.plane .A 0 0 = F64.one := by decide +kernel

/-- V-C6: a transparent pixel takes the average; LEXT 0x335. -/
theorem test_cscFwd_transparent :
    let t := after .cscFwd (image 2 1 [0xFF0000FF, 0x00FF0000])
    t.lext.toWord = 0x335 ∧ t.plane .P 1 0 = F64.half ∧ t.plane .Q 1 0 = F64.one ∧
    t.plane .A 1 0 = F64.zero := by decide +kernel

/-- V-I6 and V-I8 in one row: (0.7, 0.9, -0.8) and a NaN. -/
theorem test_cscInv_clamps :
    let t := after .cscInv { outSized 2 1 with
      mem := Memory.putF64s []
        [(planeAddr .L 0 0, ⟨0x3FE6666666666666#64⟩), (planeAddr .P 0 0, ⟨0x3FECCCCCCCCCCCCD#64⟩),
         (planeAddr .Q 0 0, ⟨0xBFE999999999999A#64⟩), (planeAddr .L 1 0, someNaN),
         (planeAddr .P 1 0, F64.zero), (planeAddr .Q 1 0, F64.zero)] }
    t.word (pixAddr 0) = 0xFF19FF98 ∧ t.pix 7 = 255 := by decide +kernel

/-- V-I4 with P_PIXCONV = ROUND: 127.5 gives 128. -/
theorem test_cscInv_round :
    (after .cscInv { outSized 1 1 with
      params := ⟨.one, .round, .unit⟩
      mem := Memory.putF64s [] [(planeAddr .L 0 0, F64.half), (planeAddr .P 0 0, F64.zero),
        (planeAddr .Q 0 0, F64.zero)] }).word (pixAddr 0) = 0xFF808080 := by decide +kernel

/-- V-D3. -/
theorem test_dctFwd_one :
    let t := after (.dctFwd .L 1 1) { sized 1 1 4 with mem := Memory.putF64s [] [(planeAddr .L 0 0, quarter)] }
    t.dc .L = quarter ∧ t.scale .L = F64.zero ∧ (t.ext.get .L).toWord = 0x11 := by decide +kernel

/-- V-D1, the part that no cosine enters: DC 0.5, NX 2, NY 1, NAC 1. -/
theorem test_dctFwd_dc :
    let t := after (.dctFwd .L 2 1) { sized 2 1 8 with
      mem := Memory.putF64s [] [(planeAddr .L 0 0, F64.one), (planeAddr .L 1 0, F64.zero)] }
    t.dc .L = F64.half ∧ (t.ext.get .L).toWord = 0x112 := by decide +kernel

/-- V-D11. -/
theorem test_dctInv_one :
    (after (.dctInv .L) { outSized 1 1 with
      ext := State.reset.ext.set .L ⟨1, 1⟩
      mem := Memory.putF64s [] [(dcAddr .L, quarter)] }).plane .L 0 0 = quarter := by decide +kernel

/-- V-D14 and V-D15: the output size is checked before the record. -/
theorem test_dctInv_errors :
    (after (.dctInv .L) (outSized 1 1)).status.errCode = 5 ∧
    (after (.dctInv .L) (outSized 0 0)).status.errCode = 3 := by decide

/-- The records of an encoded 7 by 1 image: DC 1.0, 0.0 and -1.0, scale 0.5, the chroma scales 0. -/
def quantState : State :=
  { State.reset with
    lext := ⟨7, 1, false, true⟩
    ext := ⟨⟨7, 1⟩, ⟨3, 3⟩, ⟨3, 3⟩, ⟨0, 0⟩⟩
    mem := Memory.putF64s []
      [(dcAddr .L, F64.one), (scaleAddr .L, F64.half), (dcAddr .P, F64.zero), (scaleAddr .P, F64.zero),
       (dcAddr .Q, minusOne), (scaleAddr .Q, F64.zero), (acAddr .P 0, F64.half)] }

/-- 95_test_vectors.md 1.4: L_DC 63, P_DC 32, Q_DC 0, L_SCALE 16; the first P nibble, 8, follows the six of
L. -/
theorem test_quant_fields :
    let t := after .quant quantState
    t.hdr24 = 0x40083F ∧ t.hdr16 = 0x8001 ∧ t.nibCount = 16 ∧ t.nib 6 = 8 := by decide +kernel

/-- V-Q2, V-Q3 and an extent of a record that differs. -/
theorem test_quant_errors :
    (after .quant State.reset).status.errCode = 5 ∧
    (after .quant { quantState with lext := ⟨5, 5, false, false⟩ }).status.errCode = 5 ∧
    (after .quant { quantState with ext := ⟨⟨7, 2⟩, ⟨3, 3⟩, ⟨3, 3⟩, ⟨0, 0⟩⟩ }).status.errCode = 5 := by decide

/-- V-Q8: 32/63, 16/31, AC[0] = ((13/7.5) - 1)·(16/31), P DC 32/31.5 - 1. -/
theorem test_dequant :
    let t := after .dequant { headed 0x420820 0x8004 32 with
      lext := ⟨7, 4, false, true⟩
      mem := Memory.putBytes [] [(nibAddr 0, 13)] }
    (t.ext.get .L).toWord = 0x1247 ∧ t.dc .L = ⟨0x3FE0410410410410#64⟩ ∧
    t.scale .L = ⟨0x3FE0842108421084#64⟩ ∧ t.dc .P = ⟨0x3F90410410410400#64⟩ := by decide +kernel

/-- 95_test_vectors.md 2.6: nibbles 0 and 15 with scale s = 31/31 give -s and s. -/
theorem test_dequant_ends :
    let t := after .dequant { headed 0x7C0000 0 32 with
      lext := ⟨1, 1, false, false⟩
      params := ⟨.three, .trunc, .unit⟩
      mem := Memory.putBytes [] [(nibAddr 0, 0), (nibAddr 1, 15)] }
    t.ac .L 0 = minusOne ∧ t.ac .L 1 = F64.one ∧ (t.ext.get .L).toWord = 0x533 := by decide +kernel

/-- V-P1, the hash of image A: the first stream byte, the last with its padding, the length. -/
theorem test_pack :
    let t := after .pack { headed 0x05D7DF 0x042F 32 with
      mem := Memory.putBytes [] (nibWrites [0, 1, 6, 8, 6, 10, 5, 3, 5, 11, 7, 6, 4, 2, 9, 8, 4, 8, 7, 8, 7, 6,
        5, 10, 6, 12, 8, 0, 6, 6, 3, 9, 5, 0, 7, 3, 3]) }
    (List.range 6).map t.hash = [0xDF, 0xD7, 0x05, 0x2F, 0x04, 0x10] ∧ t.hash 6 = 0x86 ∧ t.hash 23 = 0x03 ∧
    t.hashLen = 24 := by decide +kernel

/-- V-P2. -/
theorem test_pack_count : (after .pack State.reset).status.errCode = 2 := by decide

/-- V-P10 and V-P12 in the fields that they give. -/
theorem test_unpack :
    let t := after .unpack (hashed 29 [0x00, 0x00, 0x80, 0x07, 0x80, 0x00, 0x21])
    t.lext.toWord = 0x375 ∧ t.nibCount = 46 ∧ t.nib 0 = 1 ∧ t.nib 1 = 2 ∧ t.hdr24 = 0x800000 := by
  decide +kernel

/-- V-P6, V-P7, V-P8, V-P9, V-P11. -/
theorem test_unpack_errors :
    (after .unpack (hashed 4 [])).status.errCode = 2 ∧ (after .unpack (hashed 33 [])).status.errCode = 3 ∧
    (after .unpack (hashed 5 [0, 0, 0x80, 1, 0])).status.errCode = 2 ∧
    (after .unpack (hashed 13 [0, 0, 0, 0, 0])).status.errCode = 2 ∧
    (after .unpack (hashed 12 [0, 0, 0, 1, 0])).status.errCode = 2 := by decide +kernel

/-- What ENCODE runs after CSC_FWD on the images of V-C5, with P_FLOOR 3 as well, and V-C6. -/
theorem test_encode_sequence :
    let wb := image 2 1 [0xFFFFFFFF, 0xFF000000]
    (after .cscFwd wb).encodeTail =
      [.dctFwd .L 7 4, .dctFwd .P 3 3, .dctFwd .Q 3 3, .quant, .pack] ∧
    (after .cscFwd { image 7 1 (List.replicate 7 0xFF000000) with params := ⟨.three, .trunc, .unit⟩ }).encodeTail =
      [.dctFwd .L 7 3, .dctFwd .P 3 3, .dctFwd .Q 3 3, .quant, .pack] ∧
    (after .cscFwd (image 2 1 [0xFF0000FF, 0x00FF0000])).encodeTail =
      [.dctFwd .L 5 3, .dctFwd .P 3 3, .dctFwd .Q 3 3, .dctFwd .A 5 5, .quant, .pack] := by decide +kernel

/-- P5 and V-C12 by ENCODE: the size check comes first. -/
theorem test_encode_errors :
    (after .encode (sized 2 2 15)).statusWord = 0x00000016 ∧
    (after .encode (sized 200 1 4)).statusWord = 0x00000016 ∧
    (after .encode (sized 200 1 800)).statusWord = 0x00000036 := by decide

/-- The minimal hash of V-P10 decoded at base 1: one pixel, its alpha 255 (41_color.md R152). -/
theorem test_decode_minimal :
    let t := after .decode { hashed 13 [0, 0, 0, 1, 0, 0, 0, 0, 0, 0, 0, 0, 0] with outBase := 1 }
    t.status = ⟨true, false, 0⟩ ∧ t.outDim = ⟨1, 1⟩ ∧ t.pix 3 = 255 := by decide +kernel

/-- P4, and the hash checked before the base (45_orchestrator.md R224). -/
theorem test_decode_errors :
    (after .decode { hashed 4 [] with outBase := 0 }).statusWord = 0x00000026 ∧
    (after .decode { hashed 13 [0, 0, 0, 1, 0] with outBase := 0 }).statusWord = 0x00000036 := by
  decide +kernel

/-! ## Hypotheses that can be met, one theorem for each statement that has any -/

theorem witness_DecodeOfEncode : (Instr.dctFwd .A 7 7).wf = true ∧ (Instr.dctFwd .L 0 0).wf = true := by decide

theorem witness_EncodeOfDecode : decodeWord 0x00077311 = .ok (.dctFwd .A 7 7) := by decide

theorem witness_DecodeFollowsProcedure :
    decodeWord 0x00077311 = .ok (.dctFwd .A 7 7) ∧ decodeWord 0x0000031B = .ok (.dctInv .A) ∧
    0x00000003#32 &&& 0xFF#32 = 3 ∧ decodeWord 0x00000003 = .error .unknownOp := by decide

theorem witness_StepRunsDecodedCommand :
    let s := launched State.reset 0x0000001A
    decodeWord 0x0000001A = .ok .size ∧ s.pending = some 0x0000001A ∧ s.agenda = [] ∧
    { s with agenda := [.engine] }.agenda = .engine :: [] := by decide

theorem witness_IllegalWordCompletesWithBadOpcode :
    let s := { State.reset with agenda := [.host (.write 0x0000C 3), .engine] }
    decodeWord 3 = .error .unknownOp ∧ s.pending = none ∧
    s.agenda = .host (.write 0x0000C 3) :: .engine :: [] := by decide

theorem witness_StepKeepsInvariant : State.reset.Inv ∧ step State.reset = .next State.reset := by
  refine ⟨⟨rfl, rfl, rfl, rfl, ?_, by decide, by decide⟩, rfl⟩
  intro w h
  cases h

theorem witness_PendingCommandIsUndisturbed :
    let s := launched State.reset 0x0000001A
    let rs : List Request := [.write 0x00008 1, .write 0x00010 6, .read 0x9FFFC, .write 0x0000C 0]
    s.busy = true ∧ (∀ r ∈ rs, r.noSoftReset = true) ∧ exec .size s = .next (after .size s) := by
  refine ⟨by decide, by decide, exec_after _ _⟩

theorem witness_PendingCommandCompletes :
    let r : Request := .write 0x00008 1
    let s := { launched State.reset 0x0000001A with agenda := [.host r] }
    s.busy = true ∧ (∀ a ∈ s.agenda, ∃ r, a = .host r ∧ r.noSoftReset = true) := by
  refine ⟨by decide, fun a ha => ⟨.write 0x00008 1, by simpa using ha, by decide⟩⟩

theorem witness_NoPartialResult :
    exec .size State.reset = .next (after .size State.reset) ∧
    (after .size State.reset).status.err = true := ⟨exec_after _ _, by decide⟩

theorem witness_CommandsLeaveHostRegisters :
    exec .cscFwd (sized 1 1 4) = .next (after .cscFwd (sized 1 1 4)) ∧
    (after .cscFwd (sized 1 1 4)).status.err = false := ⟨exec_after _ _, by decide⟩

/-- The three clauses, the range of the base at both ends from inside and outside. -/
theorem witness_SizeComputesOutDim :
    (headed 0 0 0).hdr16.extractLsb' 0 3 = 0 ∧
    (∀ b ∈ [0#8, 129#8], (headed 0 1 b).hdr16.extractLsb' 0 3 ≠ 0 ∧
      ((headed 0 1 b).outBase.toNat < 1 ∨ (headed 0 1 b).outBase.toNat > 128)) ∧
    (∀ b ∈ [1#8, 128#8], (headed 0 7 b).hdr16.extractLsb' 0 3 ≠ 0 ∧
      1 ≤ (headed 0 7 b).outBase.toNat ∧ (headed 0 7 b).outBase.toNat ≤ 128) := by decide

/-- The clauses on IMG_DIM and IN_LEN that CSC_FWD and ENCODE share, at the ends of the range. -/
theorem witness_CscFwdConverts :
    let len : State → Prop := fun s => s.inLen.toNat = s.imgDim.w.toNat * s.imgDim.h.toNat * 4
    let inside : State → Prop := fun s => 1 ≤ s.imgDim.w.toNat ∧ s.imgDim.w.toNat ≤ 128 ∧
      1 ≤ s.imgDim.h.toNat ∧ s.imgDim.h.toNat ≤ 128
    ¬len (sized 2 2 15) ∧ (len (sized 0 5 0) ∧ ¬inside (sized 0 5 0)) ∧
    (len (sized 129 1 516) ∧ ¬inside (sized 129 1 516)) ∧
    (len (sized 1 129 516) ∧ ¬inside (sized 1 129 516)) ∧
    (len (sized 1 1 4) ∧ inside (sized 1 1 4)) ∧
    (len (sized 128 128 65536) ∧ inside (sized 128 128 65536)) := by decide

theorem witness_EncodeIsItsSequence :
    (sized 128 128 65536).inLen.toNat = 128 * 128 * 4 ∧ (sized 128 128 65536).imgDim.w.toNat = 128 ∧
    (sized 128 128 65536).imgDim.h.toNat = 128 := by decide

/-- The clauses on OUT_DIM that CSC_INV and DCT_INV share. -/
theorem witness_CscInvConverts :
    let inside : State → Prop := fun s => 1 ≤ s.outDim.w.toNat ∧ s.outDim.w.toNat ≤ 128 ∧
      1 ≤ s.outDim.h.toNat ∧ s.outDim.h.toNat ≤ 128
    ¬inside (outSized 0 1) ∧ ¬inside (outSized 129 1) ∧ ¬inside (outSized 1 129) ∧
    inside (outSized 1 1) ∧ inside (outSized 128 128) := by decide

theorem witness_HasAlphaIffSomePixelTransparent : (1 : Nat) ≤ 16384 ∧ (16384 : Nat) ≤ 16384 := by decide

theorem witness_BasisIsCosineOfArgument : 1 ≤ 128 ∧ (128 : Nat) ≤ 128 ∧ 127 < 128 ∧ 0 < 1 ∧ (6 : Nat) ≤ 6 := by decide

theorem witness_RetainedPairsInOrder : (0, 0) ∈ pairs 1 1 ∧ (6, 0) ∈ pairs 7 7 ∧ (4, 2) ∈ pairs 7 7 := by decide

theorem witness_DctFwdTransforms :
    (sized 0 1 0).imgDim.w.toNat < 1 ∧ (sized 1 129 0).imgDim.h.toNat > 128 ∧
    (1 ≤ (sized 128 1 0).imgDim.w.toNat ∧ (sized 128 1 0).imgDim.w.toNat ≤ 128 ∧
      1 ≤ (sized 128 1 0).imgDim.h.toNat ∧ (sized 128 1 0).imgDim.h.toNat ≤ 128) ∧
    (Instr.dctFwd .A 7 7).wf = true ∧ 0 < 1 := by decide

theorem witness_RenormalizedInUnitInterval :
    (∀ g ∈ [F64.half, minusOne], g.isFinite = true) ∧ minusOne ∈ [F64.half, minusOne] ∧
    F64.zero.lt (scaleOf [F64.half, minusOne]) = true := by decide +kernel

theorem witness_DctInvTransforms :
    let s := { outSized 128 1 with ext := ⟨⟨7, 7⟩, ⟨0, 3⟩, ⟨3, 0⟩, ⟨1, 1⟩⟩ }
    (1 ≤ s.outDim.w.toNat ∧ s.outDim.w.toNat ≤ 128 ∧ 1 ≤ s.outDim.h.toNat ∧ s.outDim.h.toNat ≤ 128) ∧
    (s.ext.get .P).nx.toNat < 1 ∧ (s.ext.get .Q).ny.toNat < 1 ∧
    (1 ≤ (s.ext.get .L).nx.toNat ∧ 1 ≤ (s.ext.get .L).ny.toNat) ∧
    (1 ≤ (s.ext.get .A).nx.toNat ∧ 1 ≤ (s.ext.get .A).ny.toNat) := by decide

theorem witness_QuantizeClamps :
    F64.one.isFinite = true ∧ (infinity.isInf = true ∧ infinity.neg? = false) ∧
    (infinity.negate.isInf = true ∧ infinity.negate.neg? = true) ∧ someNaN.isNaN = true := by decide

theorem witness_QuantQuantizes :
    quantState.lextEncodable = true ∧ quantState.recordsMatch = true ∧
    State.reset.lextEncodable = false ∧
    { quantState with lext := ⟨6, 1, false, true⟩ }.lextEncodable = false ∧
    { quantState with ext := ⟨⟨7, 2⟩, ⟨3, 3⟩, ⟨3, 3⟩, ⟨0, 0⟩⟩ }.recordsMatch = false ∧
    { quantState with lext := ⟨5, 1, true, true⟩, ext := ⟨⟨5, 1⟩, ⟨3, 3⟩, ⟨3, 3⟩, ⟨5, 5⟩⟩ }.recordsMatch = true ∧
    { quantState with lext := ⟨5, 1, true, true⟩, ext := ⟨⟨5, 1⟩, ⟨3, 3⟩, ⟨3, 3⟩, ⟨5, 4⟩⟩ }.recordsMatch = false := by
  decide

theorem witness_DequantDequantizes :
    State.reset.lext.lx.toNat < 1 ∧ 1 ≤ quantState.lext.lx.toNat ∧ 1 ≤ quantState.lext.ly.toNat ∧
    (headed 0x800000 0 32).hdr24.getLsbD 23 = true := by decide

theorem witness_PackWritesHash :
    ((headed 0 0 32).hdr16.extractLsb' 0 3).toNat = 0 ∧ ((headed 0x800000 7 32).hdr16.extractLsb' 0 3).toNat ≠ 0 := by
  decide

/-- Each check of R204 at its boundary, one less than passes, and a hash that passes with nothing to spare. -/
theorem witness_UnpackReadsHash :
    (hashed 33 []).hashLen.toNat > 32 ∧ (hashed 4 []).hashLen.toNat < 5 ∧
    ((hashed 5 [0, 0, 0x80, 1, 0]).hash 2).getLsbD 7 = true ∧
    (((hashed 13 [0, 0, 0, 0, 0]).hash 3).extractLsb' 0 3).toNat = 0 ∧
    (hashed 12 [0, 0, 0, 1, 0]).hashLayout.len = 13 ∧
    (hashed 13 [0, 0, 0, 1, 0]).hashCheck = none ∧
    (hashed 29 [0, 0, 0x80, 7, 0x80, 0]).hashCheck = none ∧
    (hashed 32 [0, 0, 0x80, 7, 0x80, 0]).hashCheck = none := by decide +kernel

theorem witness_UnpackOfPack :
    (headed 0 1 32).fieldLCount ≠ 0 ∧ ((headed 0 1 32).fieldHasAlpha = false → (headed 0 1 32).hdr8 = 0) ∧
    (headed 0x800000 7 32).fieldLCount ≠ 0 ∧ (headed 0x800000 7 32).fieldHasAlpha = true := by decide

theorem witness_HeaderGivesExtentsBack :
    let t := after .quant quantState
    exec .quant quantState = .next t ∧ t.status.err = false ∧ exec .pack t = .next (after .pack t) ∧
    exec .unpack (after .pack t) = .next (after .unpack (after .pack t)) :=
  ⟨exec_after _ _, by decide, exec_after _ _, exec_after _ _⟩

/-- A hash that passes with the base at both ends from inside and outside, and one that does not pass. -/
theorem witness_DecodeIsItsSequence :
    (hashed 4 []).hashCheck = some .malformedHash ∧ (hashed 33 []).hashCheck = some .paramRange ∧
    [0#8, 1#8, 128#8, 129#8].all (fun b =>
      { hashed 13 [0, 0, 0, 1, 0] with outBase := b }.hashCheck = none) = true := by decide +kernel

theorem witness_DecodeOfEncodeSucceeds :
    ∀ b ∈ [1#8, 128#8],
      let s := { sized 128 1 512 with outBase := b }
      s.inLen.toNat = s.imgDim.w.toNat * s.imgDim.h.toNat * 4 ∧ 1 ≤ s.imgDim.w.toNat ∧
      s.imgDim.w.toNat ≤ 128 ∧ 1 ≤ s.imgDim.h.toNat ∧ s.imgDim.h.toNat ≤ 128 ∧
      1 ≤ s.outBase.toNat ∧ s.outBase.toNat ≤ 128 := by decide

/-- Two states that differ outside the inputs; the image has one pixel. -/
theorem witness_EncodeIsPure :
    let s := image 1 1 [0xFF0000FF]
    let s' := { s with hashLen := 9, hdr24 := 5, epoch := 3 }
    s.hashLen ≠ s'.hashLen ∧ s.params = s'.params ∧ s.imgDim = s'.imgDim ∧ s.inLen = s'.inLen ∧
    (∀ i, i < 4 * (s.imgDim.w.toNat * s.imgDim.h.toNat) → s.pix i = s'.pix i) ∧
    exec .encode s = .next (after .encode s) ∧ exec .encode s' = .next (after .encode s') :=
  ⟨by decide, by decide, by decide, by decide, by decide +kernel, exec_after _ _, exec_after _ _⟩

theorem witness_DecodeIsPure :
    let s := hashed 13 [0, 0, 0, 1, 0, 0, 0, 0, 0, 0, 0, 0, 0]
    let s' := { s with lext := ⟨7, 7, true, true⟩, epoch := 3 }
    s.lext ≠ s'.lext ∧ s.params = s'.params ∧ s.hashLen = s'.hashLen ∧ s.outBase = s'.outBase ∧
    (∀ i, i < s.hashLen.toNat → s.hash i = s'.hash i) ∧
    exec .decode s = .next (after .decode s) ∧ exec .decode s' = .next (after .decode s') :=
  ⟨by decide, by decide, by decide, by decide, by decide +kernel, exec_after _ _, exec_after _ _⟩

/-- Finite operands with finite results, the divisor not 0. -/
theorem witness_ArithmeticIsCorrectlyRounded :
    (third.isFinite = true ∧ F64.three.isFinite = true ∧ F64.one.isFinite = true) ∧
    (third.add F64.three).isFinite = true ∧ (third.sub F64.three).isFinite = true ∧
    (third.mul F64.three).isFinite = true ∧ (third.div F64.three).isFinite = true ∧ F64.three.mant ≠ 0 := by
  decide +kernel

theorem witness_RoundsHalvesAwayFromZero :
    F64.half.isFinite = true ∧ F64.half.roundInt = 1 ∧ F64.half.negate.roundInt = -1 := by decide +kernel

/-- A NaN, the infinities of like and unlike sign, a zero of either sign, and finite values that sum to 0. -/
theorem witness_SpecialResults :
    someNaN.isNaN = true ∧ infinity.isInf = true ∧ infinity.negate.isInf = true ∧
    infinity.neg? ≠ infinity.negate.neg? ∧ F64.one.isFinite = true ∧ F64.zero.isFinite = true ∧
    F64.zero.negate.isFinite = true ∧ F64.zero.value = 0 ∧ F64.zero.negate.value = 0 ∧ F64.one.value ≠ 0 ∧
    F64.one.value + minusOne.value = 0 ∧ F64.zero.value = F64.zero.negate.value := by
  have hz : F64.zero.value = 0 := (F64.value_eq_zero _).2 (by decide)
  have hn : F64.zero.negate.value = 0 := (F64.value_eq_zero _).2 (by decide)
  have hm : minusOne.value = -F64.one.value := by rw [← F64.value_negate]; rfl
  refine ⟨by decide, by decide, by decide, by decide, by decide, by decide, by decide, hz, hn, ?_, ?_, ?_⟩
  · rw [Ne, F64.value_eq_zero]; decide
  · rw [hm]; ring
  · rw [hz, hn]

/-- Both zeros, 0.0 + 0.0 and its three kin, and the sign of an underflowing product (IEEE 754 by hand). -/
theorem test_zero_signs :
    F64.zero.add F64.zero.negate = F64.zero ∧ F64.zero.negate.add F64.zero.negate = F64.zero.negate ∧
    F64.one.sub F64.one = F64.zero ∧ F64.zero.negate.sub F64.zero = F64.zero.negate ∧
    (F64.mul ⟨0x0000000000000001⟩ ⟨0x8000000000000001⟩) = F64.zero.negate ∧
    infinity.negate.mul infinity = infinity.negate ∧ F64.zero.sub infinity = infinity.negate := by
  decide +kernel

theorem witness_ConvertStaysInByte : F64.half.isFinite = true ∧ 0 ≤ F64.half.value :=
  ⟨by decide, by rw [F64.value_of_mag, if_neg (by decide)]; exact F64.magValue_nonneg _⟩

/-- One operand of each class, the two infinities among them. -/
theorem witness_ComparesAndTakesMagnitudes :
    someNaN.isNaN = true ∧ F64.one.isFinite = true ∧ minusOne.isFinite = true ∧ infinity.isInf = true ∧
    infinity.negate.isInf = true ∧ minusOne.lt F64.one = true ∧ minusOne.abs = F64.one := by decide

theorem witness_ConstantsHaveTheirValues :
    F64.twoThirds.isFinite = true ∧ F64.pi.isFinite = true ∧ third.isFinite = true := by decide +kernel

theorem witness_PowerOnResets :
    { State.reset with agenda := [.powerOn] }.agenda = .powerOn :: [] := by decide

/-- SRST is bit 1; with a command pending and without. A pending CSC_FWD of one pixel can write every plane to
its last byte and no PIX, a DCT_FWD of L the record L. -/
theorem witness_SoftResetAbandons :
    (2 : Word).getLsbD 1 = true ∧ State.reset.busy = false ∧
    (launched (sized 1 1 4) 0x10).busy = true ∧
    inSpans (launched (sized 1 1 4) 0x10).pendingFootprint.spans 0x9FFFF = true ∧
    inSpans (launched (sized 1 1 4) 0x10).pendingFootprint.spans 0x1FFFF = false ∧
    Channel.L ∈ (launched (sized 1 1 4) 0x11011).pendingFootprint.exts ∧
    Channel.P ∉ (launched (sized 1 1 4) 0x11011).pendingFootprint.exts := by decide

/-- R283 by hand: after a host write of PIX and HASH, a soft reset of a PACK that its check would refuse leaves
HASH[0] to HASH[28] unlisted and keeps HASH[29] and PIX; without a command pending it keeps all. -/
theorem test_softReset_footprint :
    let s := { State.reset with mem := [(0x100, 1), (0x11C, 2), (0x11D, 3), (0x10000, 4)] }
    ((launched s 0x13).transact (.write 0x00008 2)).mem = [(0x11D, 3), (0x10000, 4)] ∧
    ((launched s 0x13).transact (.write 0x00008 2)).pending = none ∧
    (s.transact (.write 0x00008 2)).mem = s.mem := by decide

/-- DCT_FWD P, 3, 3 can write AC[0..4] of record P and never AC[5..26]; DCT_FWD A, 5, 5 up to AC[13]; DCT_FWD
L, 7, 7 all 27 slots (10_state.md R50 and the table of 42_dct.md R162). -/
theorem test_footprint_dctFwd :
    [0x500, 0x50F, 0x520, 0x547].all (inSpans (footprint (.dctFwd .P 3 3)).spans) = true ∧
    [0x510, 0x548, 0x5F7, 0x420].all (fun a => !inSpans (footprint (.dctFwd .P 3 3)).spans a) = true ∧
    inSpans (footprint (.dctFwd .A 5 5)).spans 0x78F = true ∧
    inSpans (footprint (.dctFwd .A 5 5)).spans 0x790 = false ∧
    inSpans (footprint (.dctFwd .L 7 7)).spans 0x4F7 = true := by decide

/-- ENCODE, refused or not and with alpha or not, can write COEF[A] and PLANE[A], and of the records what its
DCT_FWD lines write (45_orchestrator.md R223); DECODE can write PIX. -/
theorem test_footprint_composites :
    [0x4F7, 0x547, 0x647, 0x700, 0x78F, 0x80000, 0x9FFFF, 0x22D, 0x11C].all
      (inSpans (footprint .encode).spans) = true ∧
    [0x548, 0x648, 0x790, 0x710, 0x7F8, 0x10000, 0x22E, 0x11D].all
      (fun a => !inSpans (footprint .encode).spans a) = true ∧
    [0x700, 0x78F, 0x80000, 0x10000, 0x1FFFF, 0x22D].all (inSpans (footprint .decode).spans) = true ∧
    [0x790, 0x548, 0x100].all (fun a => !inSpans (footprint .decode).spans a) = true := by decide

theorem witness_CommandsWriteOnlyTheirFootprint :
    exec .cscFwd (sized 1 1 4) = .next (after .cscFwd (sized 1 1 4)) := exec_after _ _

/-- Both sides of each edge of the map. -/
theorem witness_AddressMap :
    [0x00000#20, 0x00038, 0x00100, 0x0011C, 0x00200, 0x0023C, 0x00400, 0x00410, 0x00420, 0x004F4, 0x007F4,
      0x10000, 0x1FFFC, 0x20000, 0x9FFFC].all (fun a => (reached a).isSome) = true ∧
    [0x00001#20, 0x00002, 0x0003C, 0x000FC, 0x00120, 0x001FC, 0x00240, 0x003FC, 0x00414, 0x0041C, 0x004F8,
      0x007FC, 0x00800, 0x0FFFC, 0xA0000, 0xFFFFC].all (fun a => (reached a).isNone) = true := by decide

theorem witness_BusyAccess :
    (launched State.reset 0).busy = true ∧ reached 0x00008 = some (.reg .ctrl) ∧
    reached 0x00010 = some (.reg .status) ∧ reached 0x0000C = some (.reg .cmd) ∧
    reached 0x00014 = some (.reg .imgDim) ∧ reached 0x00710 = some (.size .A) ∧
    reached 0x10000 = some .store := by decide

theorem witness_ReadsHaveNoSideEffect : State.reset.busy = false := by decide

theorem witness_RegisterWriteReadsBack :
    State.reset.busy = false ∧ (1 : Word).getLsbD 1 = false ∧ reached 0x00000 = some (.reg .id) ∧
    reached 0x00010 = some (.reg .status) ∧ reached 0x00038 = some (.reg .nibCount) ∧
    reached 0x0003C = none := by decide

/-- Idle, the last offset; busy, the last of the five that read as they are. -/
theorem witness_RegistersReadTheirFields :
    State.reset.busy = false ∧ (0x038#20).toNat ≥ 0x14 ∧ (launched State.reset 0).busy = true ∧
    (0x010#20).toNat < 0x14 := by decide

/-- Words written out by hand from 10_state.md R35, R38, R41 and R54. -/
theorem test_register_reads :
    let s := { State.reset with status := ⟨true, true, 5⟩, lext := ⟨7, 3, true, true⟩ }
    (s.transact (.read 0x00010)).resp = some ⟨some 0x56, .okay⟩ ∧
    ((s.transact (.write 0x00010 0x4)).transact (.read 0x00010)).resp = some ⟨some 0x02, .okay⟩ ∧
    (s.transact (.read 0x00028)).resp = some ⟨some 0x337, .okay⟩ ∧
    ((s.transact (.write 0x0001C 0x100)).transact (.read 0x0001C)).resp = some ⟨some 0, .okay⟩ := by decide

theorem witness_StoreWordReadsBack :
    State.reset.busy = false ∧ [0x00100#20, 0x00200, 0x0023C, 0x004F4, 0x1FFFC, 0x9FFFC].map reached =
      List.replicate 6 (some .store) := by decide

theorem witness_Binary64InTwoWords :
    State.reset.busy = false ∧ (127 : Nat) < 128 ∧ (26 : Nat) < 27 ∧
    [0x20000 + 0x20000 * chanIndex .A + 8 * (127 * 128 + 127), 0x400 + 0x100 * chanIndex .L,
      0x408 + 0x100 * chanIndex .P, 0x420 + 0x100 * chanIndex .Q + 8 * 26].map
        (fun a => reached (BitVec.ofNat 20 a + 4)) = List.replicate 4 (some .store) := by decide

theorem witness_RecordSizeWord :
    State.reset.busy = false ∧ ((0x77#32).extractLsb' 0 3).toNat = 7 ∧ ((0x77#32).extractLsb' 4 3).toNat = 7 ∧
    ((0x11#32).extractLsb' 0 3).toNat = 1 ∧ ((0#32).extractLsb' 0 3).toNat = 0 := by decide

theorem witness_CmdWriteLaunches :
    exec .nop State.reset = .next (after .nop State.reset) ∧
    State.reset.pending = none ∧ (launched State.reset 0).pending ≠ none :=
  ⟨exec_after _ _, by decide, by decide⟩

theorem witness_StatusWriteAcknowledges : State.reset.busy = false := by decide

theorem witness_InterruptFollowsDone :
    (2 : Word).getLsbD 1 = true ∧ (1 : Word).getLsbD 1 = false ∧ State.reset.busy = false := by decide

end Sys2Proof.Tests
end

section
/-! PROOF. Facts about one value: its class, its rounding to an integer, comparison and magnitude, and the
quantizer (00_scope.md R11, R12, R14). -/

namespace Sys2Proof.F64

/-! ## The classes of values exclude each other -/

theorem isNaN_eq_false_of_isFinite {x : F64} (h : x.isFinite = true) : x.isNaN = false := by
  rw [isFinite_iff] at h
  rw [← Bool.not_eq_true, isNaN_iff]
  omega

theorem isInf_eq_false_of_isFinite {x : F64} (h : x.isFinite = true) : x.isInf = false := by
  rw [isFinite_iff] at h
  rw [← Bool.not_eq_true, isInf_iff]
  omega

theorem isNaN_eq_false_of_isInf {x : F64} (h : x.isInf = true) : x.isNaN = false := by
  rw [isInf_iff] at h
  rw [← Bool.not_eq_true, isNaN_iff]
  omega

/-! ## Sign and magnitude -/

theorem value_of_abs (x : F64) : x.value = if x.neg? then -|x.value| else |x.value| := by
  rw [abs_value_eq, ← value_of_mag]

theorem value_abs (x : F64) : x.abs.value = |x.value| := by
  rw [value_of_mag, abs_value_eq, neg?_abs, mag_abs, if_neg Bool.false_ne_true]

/-! ## Rounding to an integer -/

theorem roundMag_abs (x : F64) : x.abs.roundMag = x.roundMag := by
  have he : x.abs.expField = x.expField := by rw [expField_eq, expField_eq, mag_abs]
  have hf : x.abs.fracField = x.fracField := by rw [fracField_eq, fracField_eq, mag_abs]
  unfold roundMag mant expo
  rw [he, hf]

/-- `roundMag_eq` for a value of either sign. -/
theorem roundMag_eq_floor_abs (x : F64) : (x.roundMag : ℤ) = ⌊|x.value| + 1 / 2⌋ := by
  rw [← roundMag_abs, ← value_abs]
  exact roundMag_eq (by rw [value_abs]; exact abs_nonneg _)

/-- The error of rounding the magnitude: above `-1/2`, and at most `1/2`. -/
theorem roundMag_bounds (x : F64) :
    |x.value| - 1 / 2 < x.roundMag ∧ (x.roundMag : ℚ) ≤ |x.value| + 1 / 2 := by
  have h : ((x.roundMag : ℤ) : ℚ) = (⌊|x.value| + 1 / 2⌋ : ℚ) := by rw [roundMag_eq_floor_abs]
  have hle := Int.floor_le (|x.value| + 1 / 2)
  have hlt := Int.lt_floor_add_one (|x.value| + 1 / 2)
  push_cast at h
  constructor <;> linarith

theorem abs_roundInt (x : F64) : |(x.roundInt : ℚ)| = x.roundMag := by
  unfold roundInt
  split <;> simp

/-- Rounding keeps the sign, so its error is that of rounding the magnitude. -/
theorem abs_roundInt_sub_value (x : F64) :
    |(x.roundInt : ℚ) - x.value| = |(x.roundMag : ℚ) - (|x.value|)| := by
  have hv := x.value_of_abs
  unfold roundInt
  cases hs : x.neg? <;> simp only [hs, if_true, Bool.false_eq_true, if_false] at hv ⊢
  · rw [← hv, Int.cast_natCast]
  · rw [← abs_neg, show |x.value| = -x.value by linarith]
    push_cast
    ring_nf

/-- A negative encoding of a value of at least 0 is -0.0, which rounds to 0. -/
theorem roundInt_of_nonneg {x : F64} (h : 0 ≤ x.value) : x.roundInt = x.roundMag := by
  have hr := x.roundMag_eq_floor_abs
  have hv := x.value_of_abs
  unfold roundInt
  split
  · next hs =>
    rw [if_pos hs] at hv
    rw [show |x.value| = 0 by linarith [abs_nonneg x.value]] at hr
    norm_num at hr
    omega
  · rfl

/-! ## Comparison with an infinity -/

theorem key_of_isInf {x : F64} (h : x.isInf = true) :
    x.key = if x.neg? then -(2047 * 2 ^ 52) else 2047 * 2 ^ 52 := by
  rw [isInf_iff] at h
  simp only [key, h]
  rfl

theorem key_bounds_of_isFinite {x : F64} (h : x.isFinite = true) :
    -(2047 * 2 ^ 52) < x.key ∧ x.key < 2047 * 2 ^ 52 := by
  rw [isFinite_iff] at h
  unfold key
  split <;> omega

theorem lt_eq_decide {x y : F64} (hx : x.isNaN = false) (hy : y.isNaN = false) :
    x.lt y = decide (x.key < y.key) := by simp [lt, hx, hy]

/-- An infinity is above or below every finite value, by its sign. -/
theorem lt_of_isInf_of_isFinite {x y : F64} (hx : x.isInf = true) (hy : y.isFinite = true) :
    x.lt y = x.neg? ∧ y.lt x = !x.neg? := by
  have hxn := isNaN_eq_false_of_isInf hx
  have hyn := isNaN_eq_false_of_isFinite hy
  obtain ⟨hlo, hhi⟩ := key_bounds_of_isFinite hy
  rw [lt_eq_decide hxn hyn, lt_eq_decide hyn hxn, key_of_isInf hx]
  cases x.neg? <;> simp <;> omega

/-- Of two infinities only -inf is below +inf. -/
theorem lt_of_isInf {x y : F64} (hx : x.isInf = true) (hy : y.isInf = true) :
    x.lt y = (x.neg? && !y.neg?) := by
  rw [lt_eq_decide (isNaN_eq_false_of_isInf hx) (isNaN_eq_false_of_isInf hy), key_of_isInf hx, key_of_isInf hy]
  cases x.neg? <;> cases y.neg? <;> rfl

/-! ## What a change of the sign leaves -/

theorem isFinite_negate {x : F64} (h : x.isFinite = true) : x.negate.isFinite = true := by
  rwa [isFinite_iff, mag_negate, ← isFinite_iff]

theorem isFinite_abs {x : F64} (h : x.isFinite = true) : x.abs.isFinite = true := by
  rwa [isFinite_iff, mag_abs, ← isFinite_iff]

theorem isNaN_abs {x : F64} (h : x.isNaN = true) : x.abs.isNaN = true := by
  rwa [isNaN_iff, mag_abs, ← isNaN_iff]

theorem abs_of_isInf {x : F64} (h : x.isInf = true) : x.abs = ⟨0x7FF0000000000000⟩ := by
  rw [← ofSignMag_eta x.abs, neg?_abs, mag_abs, (isInf_iff x).1 h]
  rfl

/-! ## The quantizer -/

theorem quantize_of_isFinite {x : F64} (h : x.isFinite = true) (k : Nat) :
    x.quantize k = min (2 ^ k - 1) (max 0 x.roundInt).toNat := by
  simp [quantize, isNaN_eq_false_of_isFinite h, isInf_eq_false_of_isFinite h]

theorem quantize_of_isInf {x : F64} (h : x.isInf = true) (k : Nat) :
    x.quantize k = if x.neg? then 0 else 2 ^ k - 1 := by
  simp [quantize, isNaN_eq_false_of_isInf h, h]

theorem quantize_of_isNaN {x : F64} (h : x.isNaN = true) (k : Nat) : x.quantize k = 0 := by
  simp [quantize, h]

theorem quantize_le (x : F64) (k : Nat) : x.quantize k ≤ 2 ^ k - 1 := by
  unfold quantize
  split
  · exact Nat.zero_le _
  · split
    · split
      · exact Nat.zero_le _
      · exact le_rfl
    · exact min_le_left _ _

/-- The clamp at the upper end is the same in the naturals and in the integers. -/
theorem min_toNat_eq_toNat_min (k : Nat) (r : ℤ) :
    min (2 ^ k - 1) (max 0 r).toNat = (min (2 ^ k - 1) (max 0 r)).toNat := by
  have h : ((2 ^ k - 1 : ℕ) : ℤ) = 2 ^ k - 1 := by
    rw [Nat.cast_sub Nat.one_le_two_pow]
    push_cast
    rfl
  rw [← h]
  omega

end Sys2Proof.F64

namespace Sys2Proof

open F64

/-- Settles O40: the magnitude rounds to `⌊|v| + 1/2⌋`, and rounding keeps the sign. -/
theorem roundsHalvesAwayFromZero : Obligations.RoundsHalvesAwayFromZero := by
  intro x _
  obtain ⟨hlo, hhi⟩ := x.roundMag_bounds
  rw [abs_roundInt_sub_value, abs_roundInt]
  refine ⟨abs_le.2 ⟨by linarith, by linarith⟩, fun h => ?_, fun h => ?_⟩
  · rcases (abs_eq (by norm_num)).1 h with h | h <;> linarith
  · rw [roundInt_of_nonneg h, roundMag_eq h]

/-- Settles O26, one class of values after the other. -/
theorem quantizeClamps : Obligations.QuantizeClamps := by
  intro k v
  refine ⟨fun h => ?_, fun h hs => ?_, fun h hs => ?_, fun h => quantize_of_isNaN h k, v.quantize_le k⟩
  · rw [quantize_of_isFinite h, min_toNat_eq_toNat_min]
  · rw [quantize_of_isInf h, if_neg (by simp [hs])]
  · rw [quantize_of_isInf h, if_pos hs]

/-- Settles O58: the low 63 bits order the magnitudes of finite values and infinities alike. -/
theorem comparesAndTakesMagnitudes : Obligations.ComparesAndTakesMagnitudes :=
  ⟨fun _ _ => ⟨lt_nan,
      fun hx hy => lt_iff_value (isNaN_eq_false_of_isFinite hx) (isNaN_eq_false_of_isFinite hy),
      lt_of_isInf_of_isFinite, lt_of_isInf⟩,
    fun x => ⟨x.neg?_abs, fun h => ⟨isFinite_abs h, x.value_abs⟩, abs_of_isInf, isNaN_abs⟩⟩

end Sys2Proof
end

section
/-! PROOF. Correct rounding (00_scope.md R7, R11). The encodings of the magnitudes in rising order are the
naturals, so nearest-even is said of a natural `g` and a magnitude `a`, without signs and without overflow:
`NearestEven g a`. The integer rounding of the model gives such a `g`; `ofSignMag` with the clamp at the
infinity then gives the correctly rounded value. -/

namespace Sys2Proof.F64

/-- The low 63 bits of the infinities. -/
def infMag : ℕ := 2047 * 2 ^ 52

/-- The encoding `r` is the exact result `v` rounded to nearest, ties to even, an infinity from the overflow
threshold on. -/
def CorrectlyRounds (r : F64) (v : ℚ) : Prop :=
  (r.isFinite = true ↔ |v| < 2 ^ 1024 - 2 ^ 970) ∧
  (r.isFinite = false → r.isInf = true ∧ (r.neg? = true ↔ v < 0)) ∧
  (r.isFinite = true → ∀ z : F64, z.isFinite = true →
    |r.value - v| ≤ |z.value - v| ∧
    (|z.value - v| = |r.value - v| → z.value ≠ r.value → r.bits.getLsbD 0 = false))

/-- No magnitude is nearer to `a` than that of `g`, and none other as near unless `g` is even; here the range
has no upper end. -/
def NearestEven (g : ℕ) (a : ℚ) : Prop :=
  ∀ h : ℕ, |magValue g - a| ≤ |magValue h - a| ∧
    (|magValue h - a| = |magValue g - a| → h ≠ g → Even g)

/-! ## Nearest-even among the magnitudes -/

theorem nearestEven_magValue (g : ℕ) : NearestEven g (magValue g) := by
  intro h
  rw [sub_self, abs_zero]
  refine ⟨abs_nonneg _, fun heq hne => absurd ?_ hne⟩
  exact magValue_strictMono.injective (sub_eq_zero.1 (abs_eq_zero.1 heq))

/-- The distance of any magnitude from a number between two neighbours. -/
theorem abs_magValue_sub {g : ℕ} {a : ℚ} (hlo : magValue g ≤ a) (hhi : a ≤ magValue (g + 1)) (h : ℕ) :
    magValue h ≤ magValue g ∧ |magValue h - a| = a - magValue h ∨
      magValue (g + 1) ≤ magValue h ∧ |magValue h - a| = magValue h - a := by
  rcases le_or_gt h g with hle | hgt
  · have hh : magValue h ≤ magValue g := magValue_strictMono.monotone hle
    exact .inl ⟨hh, by rw [abs_of_nonpos (by linarith), neg_sub]⟩
  · have hh : magValue (g + 1) ≤ magValue h := magValue_strictMono.monotone hgt
    exact .inr ⟨hh, abs_of_nonneg (by linarith)⟩

/-- Not above the midpoint of two neighbours the lower one is nearest, at the midpoint if it is even. -/
theorem nearestEven_lower {g : ℕ} {a : ℚ} (hlo : magValue g ≤ a)
    (hmid : 2 * a ≤ magValue g + magValue (g + 1)) (hev : 2 * a = magValue g + magValue (g + 1) → Even g) :
    NearestEven g a := by
  intro h
  rw [abs_of_nonpos (sub_nonpos.2 hlo)]
  rcases abs_magValue_sub hlo (by linarith) h with ⟨hh, hd⟩ | ⟨hh, hd⟩ <;> rw [hd]
  · refine ⟨by linarith, fun heq hne => absurd ?_ hne⟩
    exact magValue_strictMono.injective (by linarith)
  · exact ⟨by linarith, fun heq _ => hev (by linarith)⟩

/-- Not below the midpoint of two neighbours the upper one is nearest, at the midpoint if it is even. -/
theorem nearestEven_upper {g : ℕ} {a : ℚ} (hhi : a ≤ magValue (g + 1))
    (hmid : magValue g + magValue (g + 1) ≤ 2 * a) (hev : 2 * a = magValue g + magValue (g + 1) → Even (g + 1)) :
    NearestEven (g + 1) a := by
  intro h
  rw [abs_of_nonneg (sub_nonneg.2 hhi)]
  rcases abs_magValue_sub (by linarith) hhi h with ⟨hh, hd⟩ | ⟨hh, hd⟩ <;> rw [hd]
  · exact ⟨by linarith, fun heq _ => hev (by linarith)⟩
  · refine ⟨by linarith, fun heq hne => absurd ?_ hne⟩
    exact magValue_strictMono.injective (by linarith)

/-! ## The magnitudes of a binade, and the overflow threshold -/

/-- A significand of at most `2^53` over the exponent of a binade; `2^53` itself carries into the next. -/
theorem magValue_binade {n c : ℕ} (hlo : n = 0 ∨ 2 ^ 52 ≤ c) (hhi : c ≤ 2 ^ 53) :
    magValue (n * 2 ^ 52 + c) = c * 2 ^ ((n : ℤ) - 1074) := by
  unfold magValue
  rcases lt_or_ge c (2 ^ 52) with hc | hc
  · obtain rfl : n = 0 := by omega
    have h1 : (0 * 2 ^ 52 + c) / 2 ^ 52 = 0 := by omega
    have h2 : (0 * 2 ^ 52 + c) % 2 ^ 52 = c := by omega
    rw [h1, h2]
    norm_num
  · rcases lt_or_eq_of_le hhi with hc' | rfl
    · have h1 : (n * 2 ^ 52 + c) / 2 ^ 52 = n + 1 := by omega
      have h2 : (n * 2 ^ 52 + c) % 2 ^ 52 = c - 2 ^ 52 := by omega
      rw [h1, h2, if_neg (by omega), Nat.add_sub_cancel' hc, max_eq_left (by omega)]
      congr 2
      push_cast
      ring
    · have h1 : (n * 2 ^ 52 + 2 ^ 53) / 2 ^ 52 = n + 2 := by omega
      have h2 : (n * 2 ^ 52 + 2 ^ 53) % 2 ^ 52 = 0 := by omega
      have h3 : ((n + 2 : ℕ) : ℤ) - 1075 = ((n : ℤ) - 1074) + 1 := by push_cast; ring
      rw [h1, h2, if_neg (by omega), max_eq_left (by omega), h3, zpow_add₀ (by norm_num)]
      push_cast
      ring

theorem magValue_infMag : magValue infMag = 2 ^ 1024 := by
  rw [show infMag = 2046 * 2 ^ 52 + 2 ^ 52 by decide, magValue_binade (.inr le_rfl) (by norm_num),
    show ((2046 : ℕ) : ℤ) - 1074 = (972 : ℕ) by norm_num, zpow_natCast, Nat.cast_pow, Nat.cast_ofNat, ← pow_add]

theorem magValue_maxFinite : magValue (infMag - 1) = 2 ^ 1024 - 2 ^ 971 := by
  rw [show infMag - 1 = 2045 * 2 ^ 52 + (2 ^ 53 - 1) by decide, magValue_binade (.inr (by norm_num)) (by norm_num),
    show ((2045 : ℕ) : ℤ) - 1074 = (971 : ℕ) by norm_num, zpow_natCast, Nat.cast_sub (by norm_num), Nat.cast_pow,
    Nat.cast_ofNat, Nat.cast_one, sub_mul, one_mul, ← pow_add]

/-- The nearest magnitude lies at or below an odd `m` exactly when `a` lies below the midpoint of `m` and the
next. -/
theorem NearestEven.le_odd_iff {g m : ℕ} {a : ℚ} (hn : NearestEven g a) (hodd : Odd m) :
    g ≤ m ↔ 2 * a < magValue m + magValue (m + 1) := by
  have hstep := magValue_lt_iff.2 (Nat.lt_succ_self m)
  constructor
  · intro hg
    by_contra hmid
    have hgm : magValue g ≤ magValue m := magValue_strictMono.monotone hg
    obtain rfl : g = m := by
      have hnear := (hn m).1
      rw [abs_of_nonpos (by linarith), abs_of_nonpos (by linarith)] at hnear
      exact magValue_strictMono.injective (by linarith)
    obtain ⟨hnear, htie⟩ := hn (g + 1)
    rw [abs_of_nonpos (show magValue g - a ≤ 0 by linarith)] at hnear htie
    rcases le_total a (magValue (g + 1)) with ha | ha
    · rw [abs_of_nonneg (by linarith)] at hnear htie
      exact Nat.not_even_iff_odd.2 hodd (htie (by linarith) (by omega))
    · rw [abs_of_nonpos (by linarith)] at hnear
      linarith
  · intro hmid
    by_contra hg
    have hmg : magValue (m + 1) ≤ magValue g := magValue_strictMono.monotone (by omega)
    have hnear := (hn m).1
    rw [abs_of_nonneg (by linarith)] at hnear
    rcases abs_cases (magValue m - a) with ⟨h, -⟩ | ⟨h, -⟩ <;> linarith

/-- The overflow threshold is the midpoint of the largest finite magnitude and `2^1024`. -/
theorem NearestEven.lt_infMag_iff {g : ℕ} {a : ℚ} (hn : NearestEven g a) :
    g < infMag ↔ a < 2 ^ 1024 - 2 ^ 970 := by
  have hmid : magValue (infMag - 1) + magValue (infMag - 1 + 1) = 2 * (2 ^ 1024 - 2 ^ 970) := by
    rw [magValue_maxFinite, show infMag - 1 + 1 = infMag from rfl, magValue_infMag, mul_sub,
      two_mul, ← pow_succ', sub_add_eq_add_sub]
  rw [show g < infMag ↔ g ≤ infMag - 1 by unfold infMag; omega, hn.le_odd_iff (by decide), hmid]
  exact mul_lt_mul_iff_right₀ two_pos

/-! ## From the magnitudes to the encodings -/

theorem even_mag_iff (x : F64) : x.bits.getLsbD 0 = false ↔ Even x.mag := by
  rw [Nat.even_iff, mag, BitVec.extractLsb'_toNat, Nat.shiftRight_zero, ← Bool.not_eq_true]
  simp only [BitVec.getLsbD, Nat.testBit_zero, decide_eq_true_eq]
  omega

/-- The rational with this sign and this magnitude. -/
def signed (s : Bool) (a : ℚ) : ℚ := if s then -a else a

theorem value_eq_signed (x : F64) : x.value = signed x.neg? (magValue x.mag) := value_of_mag x

theorem value_eq_signed_mant (x : F64) : x.value = signed x.neg? (x.mant * 2 ^ x.expo) := by
  rw [value_eq, signed]
  split <;> ring

theorem signed_natAbs (v : ℤ) : signed (decide (v < 0)) v.natAbs = v := by
  rw [Nat.cast_natAbs, Int.cast_abs]
  by_cases h : v < 0
  · have : (v : ℚ) < 0 := Int.cast_lt_zero.2 h
    simp [signed, h, abs_of_neg this]
  · have : (0 : ℚ) ≤ v := Int.cast_nonneg (not_lt.1 h)
    simp [signed, h, abs_of_nonneg this]

theorem signed_mul (s : Bool) (a b : ℚ) : signed s (a * b) = signed s a * b := by
  cases s <;> simp [signed]

theorem signed_mul_signed (s t : Bool) (a b : ℚ) : signed s a * signed t b = signed (s != t) (a * b) := by
  cases s <;> cases t <;> simp [signed]

theorem signed_div_signed (s t : Bool) (a b : ℚ) : signed s a / signed t b = signed (s != t) (a / b) := by
  cases s <;> cases t <;> simp [signed, neg_div, div_neg]

@[simp] theorem signed_zero (s : Bool) : signed s 0 = 0 := by cases s <;> simp [signed]

theorem abs_signed (s : Bool) (a : ℚ) : |signed s a| = |a| := by cases s <;> simp [signed]

theorem signed_neg_iff (s : Bool) {a : ℚ} (ha : 0 < a) : signed s a < 0 ↔ s = true := by
  cases s <;> simp [signed, ha, ha.le]

theorem abs_signed_sub_signed (s : Bool) (a b : ℚ) : |signed s b - signed s a| = |b - a| := by
  cases s
  · rfl
  · rw [← abs_neg]
    simp only [signed, if_true]
    congr 1
    ring

theorem abs_signed_sub_signed_of_ne {s t : Bool} (h : t ≠ s) (a b : ℚ) :
    |signed t b - signed s a| = |b + a| := by
  obtain rfl : t = !s := Bool.eq_not.2 h
  cases s
  · rw [← abs_neg]
    simp [signed, add_comm]
  · simp [signed]

/-- The sign cannot bring two values nearer than their magnitudes are. -/
theorem abs_sub_le_abs_signed_sub {s t : Bool} {a b : ℚ} (ha : 0 ≤ a) (hb : 0 ≤ b) :
    |b - a| ≤ |signed t b - signed s a| := by
  have h := abs_abs_sub_abs_le (signed t b) (signed s a)
  rwa [abs_signed, abs_signed, abs_of_nonneg ha, abs_of_nonneg hb] at h

theorem NearestEven.eq_zero {g : ℕ} (hn : NearestEven g 0) : g = 0 := by
  have h := (hn 0).1
  rw [magValue_zero, sub_zero, sub_zero, abs_zero] at h
  rw [← magValue_strictMono.injective.eq_iff, magValue_zero]
  exact abs_eq_zero.1 (le_antisymm h (abs_nonneg _))

/-- No value of either sign is nearer to `± a` than the nearest-even magnitude with the sign of `± a`, and
none other as near unless that magnitude is even. -/
theorem NearestEven.signed_near {g : ℕ} {a : ℚ} (hn : NearestEven g a) (ha : 0 ≤ a) (s t : Bool) (h : ℕ) :
    |signed s (magValue g) - signed s a| ≤ |signed t (magValue h) - signed s a| ∧
    (|signed t (magValue h) - signed s a| = |signed s (magValue g) - signed s a| →
      signed t (magValue h) ≠ signed s (magValue g) → Even g) := by
  obtain ⟨hnear, htie⟩ := hn h
  have hle := abs_sub_le_abs_signed_sub (s := s) (t := t) ha (magValue_nonneg h)
  rw [abs_signed_sub_signed]
  refine ⟨hnear.trans hle, fun heq hne => ?_⟩
  by_cases hg : h = g
  · subst hg
    have hts : t ≠ s := fun hts => hne (by rw [hts])
    have h0 := magValue_nonneg h
    rw [abs_signed_sub_signed_of_ne hts, abs_of_nonneg (by linarith)] at heq
    have hz : magValue h = 0 ∨ a = 0 := by
      rcases abs_cases (magValue h - a) with ⟨hc, -⟩ | ⟨hc, -⟩
      · right; linarith
      · left; linarith
    rcases hz with hz | rfl
    · exact absurd (by rw [hz, signed_zero, signed_zero]) hne
    · rw [hn.eq_zero]
      exact Even.zero
  · exact htie (le_antisymm (hle.trans heq.le) hnear) hg

/-- A nearest-even magnitude, clamped at the infinity, is the correct rounding for either sign. -/
theorem correctlyRounds_of_nearestEven (s : Bool) {g : ℕ} {a : ℚ} (ha : 0 ≤ a) (hn : NearestEven g a) :
    CorrectlyRounds (ofSignMag s (min g infMag)) (signed s a) := by
  have hlt : min g infMag < 2 ^ 63 := lt_of_le_of_lt (min_le_right _ _) (by decide)
  have hfin : (ofSignMag s (min g infMag)).isFinite = true ↔ g < infMag := by
    rw [isFinite_iff, mag_ofSignMag s hlt]
    exact min_lt_iff.trans (or_iff_left (lt_irrefl _))
  refine ⟨?_, fun h => ?_, fun h z _ => ?_⟩
  · rw [hfin, abs_signed, abs_of_nonneg ha, hn.lt_infMag_iff]
  · have hg : ¬g < infMag := by rw [← hfin, h]; exact Bool.false_ne_true
    have hpos : 0 < a := by
      refine lt_of_le_of_ne ha ?_
      rintro rfl
      exact hg (by rw [hn.eq_zero]; decide)
    rw [isInf_iff, mag_ofSignMag s hlt, neg?_ofSignMag s hlt, signed_neg_iff s hpos]
    exact ⟨min_eq_right (not_lt.1 hg), Iff.rfl⟩
  · rw [even_mag_iff, value_eq_signed (ofSignMag _ _), value_eq_signed z, mag_ofSignMag s hlt,
      neg?_ofSignMag s hlt, min_eq_left (hfin.1 h).le]
    exact hn.signed_near ha s z.neg? z.mag

end Sys2Proof.F64
end

section
/-! PROOF. `round` gives a nearest-even magnitude, also for a significand that stands for an exact number it
differs from in a sticky last bit; so the four operations and `f64(n)` are correctly rounded (00_scope.md R7,
R11). -/

namespace Sys2Proof.F64

/-! ## The parts of `round` -/

/-- The exponent of the last place of `m · 2^e` rounded. -/
def lastPlace (m : ℕ) (e : ℤ) : ℤ := max (e + (Nat.log2 m : ℤ) - 52) (-1074)

/-- The low 63 bits that `round` gives, before the clamp at the infinity. -/
def roundedMag (m : ℕ) (e : ℤ) : ℕ :=
  (lastPlace m e + 1074).toNat * 2 ^ 52 + shiftRoundEven m (lastPlace m e - e)

theorem round_zero (s : Bool) (e : ℤ) : round s 0 e = ofSignMag s 0 := if_pos rfl

theorem round_of_ne_zero (s : Bool) {m : ℕ} (hm : m ≠ 0) (e : ℤ) :
    round s m e = ofSignMag s (min (roundedMag m e) infMag) := if_neg hm

/-- `shiftRoundEven` compares the number with the midpoint of its two neighbours. -/
theorem shiftRoundEven_succ (m k : ℕ) :
    shiftRoundEven m (k + 1 : ℕ) =
      let d := m / 2 ^ (k + 1)
      if (2 * d + 1) * 2 ^ k < m ∨ (2 * d + 1) * 2 ^ k = m ∧ d % 2 = 1 then d + 1 else d := by
  have hk : ¬((k + 1 : ℕ) : ℤ) ≤ 0 := by omega
  have hdm := Nat.div_add_mod m (2 ^ (k + 1))
  have hmid : (2 * (m / 2 ^ (k + 1)) + 1) * 2 ^ k = 2 ^ (k + 1) * (m / 2 ^ (k + 1)) + 2 ^ k := by ring
  have hu : 2 ^ (k + 1) = 2 * 2 ^ k := by ring
  simp only [shiftRoundEven, hk, if_false, Int.toNat_natCast, hmid]
  congr 1
  rw [eq_iff_iff]
  omega

/-! ## A significand with a sticky bit -/

/-- In a rounding that drops `k` bits `m` stands for the exact number `t`: it is `t`, or its last bit is sticky
and says that `t` lies strictly between the even numbers beside `m`. -/
def StandsFor (m : ℕ) (t : ℚ) (k : ℤ) : Prop :=
  t = m ∨ 2 ≤ k ∧ Odd m ∧ (m : ℚ) - 1 < t ∧ t < m + 1

/-- A number that the bits dropped cannot tell from `m` compares with `t` as with `m`. -/
theorem StandsFor.compare {m w : ℕ} {t : ℚ} {k : ℤ} (h : StandsFor m t k) (hw : 2 ≤ k → Even w) :
    (t < w ↔ m < w) ∧ ((w : ℚ) < t ↔ w < m) := by
  rcases h with rfl | ⟨hk, ⟨i, hi⟩, hlo, hhi⟩
  · exact ⟨Nat.cast_lt, Nat.cast_lt⟩
  · obtain ⟨j, hj⟩ := hw hk
    have hup (hmw : m < w) : t < w := by
      have : ((m + 1 : ℕ) : ℚ) ≤ w := Nat.cast_le.2 hmw
      push_cast at this
      linarith
    have hdown (hwm : w < m) : (w : ℚ) < t := by
      have : ((w + 1 : ℕ) : ℚ) ≤ m := Nat.cast_le.2 hwm
      push_cast at this
      linarith
    rcases lt_or_gt_of_ne (show m ≠ w by omega) with hmw | hwm
    · exact ⟨iff_of_true (hup hmw) hmw, iff_of_false (hup hmw).not_gt hmw.not_gt⟩
    · exact ⟨iff_of_false (hdown hwm).not_gt hwm.not_gt, iff_of_true (hdown hwm) hwm⟩

/-- So `t` lies between the neighbours of `m` when `k + 1` bits are dropped, and on the same side of their
midpoint. -/
theorem StandsFor.compare_neighbours {m k : ℕ} {t : ℚ} (h : StandsFor m t (k + 1 : ℕ)) :
    let d := m / 2 ^ (k + 1)
    (d : ℚ) * (2 * 2 ^ k) ≤ t ∧ t < (d + 1) * (2 * 2 ^ k) ∧
      (t < (2 * d + 1) * 2 ^ k ↔ m < (2 * d + 1) * 2 ^ k) ∧
      ((2 * d + 1) * 2 ^ k < t ↔ (2 * d + 1) * 2 ^ k < m) := by
  have hlo : m / 2 ^ (k + 1) * 2 ^ (k + 1) ≤ m := Nat.div_mul_le_self _ _
  have hhi : m < 2 ^ (k + 1) * (m / 2 ^ (k + 1) + 1) := Nat.lt_mul_div_succ m (by positivity)
  dsimp only
  generalize m / 2 ^ (k + 1) = d at *
  rw [pow_succ] at hlo hhi
  have hcmp (c : ℕ) : (t < (c * 2 ^ k : ℕ) ↔ m < c * 2 ^ k) ∧ (((c * 2 ^ k : ℕ) : ℚ) < t ↔ c * 2 ^ k < m) :=
    h.compare fun hk => (Nat.even_pow.2 ⟨even_two, by omega⟩).mul_left c
  have htlo : ¬t < (2 * d * 2 ^ k : ℕ) := fun ht => by linarith [(hcmp (2 * d)).1.1 ht]
  have hthi : t < (2 * (d + 1) * 2 ^ k : ℕ) := (hcmp (2 * (d + 1))).1.2 (by linarith)
  have hmid := hcmp (2 * d + 1)
  push_cast at htlo hthi hmid
  exact ⟨by linarith, by linarith, hmid⟩

theorem StandsFor.eq_of_le_one {m : ℕ} {t : ℚ} {k : ℤ} (h : StandsFor m t k) (hk : k ≤ 1) : t = m := by
  rcases h with h | ⟨hk', -⟩
  · exact h
  · omega

/-! ## The magnitude that `round` gives is nearest-even -/

/-- The last place as the binade `n`, which is the lowest one or that of the leading bit of `m`. -/
theorem exists_binade (m : ℕ) (e : ℤ) : ∃ n : ℕ, lastPlace m e = (n : ℤ) - 1074 ∧
    e + (Nat.log2 m : ℤ) - 52 ≤ lastPlace m e ∧ (n = 0 ∨ lastPlace m e = e + (Nat.log2 m : ℤ) - 52) := by
  refine ⟨(lastPlace m e + 1074).toNat, ?_⟩
  unfold lastPlace
  omega

/-- Where no bit is dropped the rounded magnitude is exact. -/
theorem magValue_roundedMag {m : ℕ} (hm : m ≠ 0) {e : ℤ} (hk : lastPlace m e ≤ e) :
    magValue (roundedMag m e) = m * 2 ^ e := by
  obtain ⟨n, hP, hge, hn⟩ := exists_binade m e
  obtain ⟨j, hj⟩ := Int.eq_ofNat_of_zero_le (show 0 ≤ e - lastPlace m e by omega)
  have hlow : 2 ^ Nat.log2 m ≤ m := Nat.log2_self_le hm
  have hhigh : m < 2 ^ (Nat.log2 m + 1) := Nat.lt_log2_self
  have hc : m * 2 ^ j ≤ 2 ^ 53 := calc
    m * 2 ^ j ≤ 2 ^ (Nat.log2 m + 1) * 2 ^ j := Nat.mul_le_mul_right _ hhigh.le
    _ = 2 ^ (Nat.log2 m + 1 + j) := (pow_add _ _ _).symm
    _ ≤ 2 ^ 53 := Nat.pow_le_pow_right two_pos (by omega)
  have hc' : n = 0 ∨ 2 ^ 52 ≤ m * 2 ^ j := by
    refine hn.imp_right fun hP' => ?_
    calc 2 ^ 52 = 2 ^ Nat.log2 m * 2 ^ j := by rw [← pow_add]; congr 1; omega
      _ ≤ m * 2 ^ j := Nat.mul_le_mul_right _ hlow
  rw [roundedMag, shiftRoundEven_of_nonpos m (by omega), hP, show (n : ℤ) - 1074 + 1074 = n by ring,
    Int.toNat_natCast, show -((n : ℤ) - 1074 - e) = j by omega, Int.toNat_natCast, magValue_binade hc' hc,
    show e = j + ((n : ℤ) - 1074) by omega, zpow_add₀ two_ne_zero, zpow_natCast]
  push_cast
  ring

/-- Where `k + 1` bits are dropped: the rounded magnitude, and the two encodings it is chosen from. -/
theorem roundedMag_neighbours {m : ℕ} (hm : m ≠ 0) {e : ℤ} {k : ℕ} (hk : lastPlace m e = e + (k + 1 : ℕ)) :
    ∃ n : ℕ, roundedMag m e = n * 2 ^ 52 + shiftRoundEven m (k + 1 : ℕ) ∧
      magValue (n * 2 ^ 52 + m / 2 ^ (k + 1)) = (m / 2 ^ (k + 1) : ℕ) * (2 * 2 ^ k * 2 ^ e) ∧
      magValue (n * 2 ^ 52 + m / 2 ^ (k + 1) + 1) = ((m / 2 ^ (k + 1) : ℕ) + 1) * (2 * 2 ^ k * 2 ^ e) := by
  obtain ⟨n, hP, hge, hn⟩ := exists_binade m e
  have hlow : 2 ^ Nat.log2 m ≤ m := Nat.log2_self_le hm
  have hhigh : m < 2 ^ (Nat.log2 m + 1) := Nat.lt_log2_self
  have hd : m / 2 ^ (k + 1) < 2 ^ 53 := by
    rw [Nat.div_lt_iff_lt_mul (by positivity), ← pow_add]
    exact hhigh.trans_le (Nat.pow_le_pow_right two_pos (by omega))
  have hd' : n = 0 ∨ 2 ^ 52 ≤ m / 2 ^ (k + 1) := by
    refine hn.imp_right fun hP' => ?_
    rw [Nat.le_div_iff_mul_le (by positivity), ← pow_add]
    exact (Nat.pow_le_pow_right two_pos (by omega)).trans hlow
  have hunit : (2 : ℚ) ^ ((n : ℤ) - 1074) = 2 * 2 ^ k * 2 ^ e := by
    rw [← hP, hk, zpow_add₀ two_ne_zero, zpow_natCast, pow_succ]
    ring
  refine ⟨n, ?_, ?_, ?_⟩
  · rw [roundedMag, hP, show (n : ℤ) - 1074 + 1074 = n by ring, Int.toNat_natCast,
      show (n : ℤ) - 1074 - e = (k + 1 : ℕ) by omega]
  · rw [magValue_binade hd' hd.le, hunit]
  · rw [add_assoc, magValue_binade (hd'.imp_right Nat.le_succ_of_le) hd, hunit]
    push_cast
    rfl

/-- `round` picks of the two neighbours the nearer one: it compares `m` with the midpoint, and `t` compares
alike. -/
theorem nearestEven_roundedMag {m : ℕ} (hm : m ≠ 0) {e : ℤ} {t : ℚ} (ht : StandsFor m t (lastPlace m e - e)) :
    NearestEven (roundedMag m e) (t * 2 ^ e) := by
  rcases le_or_gt (lastPlace m e) e with hk | hk
  · rw [ht.eq_of_le_one (by omega), ← magValue_roundedMag hm hk]
    exact nearestEven_magValue _
  obtain ⟨k, hk'⟩ := Int.eq_ofNat_of_zero_le (show 0 ≤ lastPlace m e - e - 1 by omega)
  obtain ⟨n, hg, hlo, hhi⟩ := roundedMag_neighbours hm (e := e) (k := k) (by omega)
  rw [show lastPlace m e - e = (k + 1 : ℕ) by omega] at ht
  obtain ⟨htlo, hthi, hlt, hgt⟩ := ht.compare_neighbours
  rw [hg, shiftRoundEven_succ]
  dsimp only
  generalize m / 2 ^ (k + 1) = d at *
  have h2e : (0 : ℚ) < 2 ^ e := by positivity
  have hle_lo := mul_le_mul_of_nonneg_right htlo h2e.le
  have hle_hi := mul_le_mul_of_nonneg_right hthi.le h2e.le
  have hsum : magValue (n * 2 ^ 52 + d) + magValue (n * 2 ^ 52 + d + 1) = 2 * ((2 * d + 1) * 2 ^ k * 2 ^ e) := by
    rw [hlo, hhi]
    ring
  have htie (h : 2 * (t * 2 ^ e) = 2 * ((2 * d + 1) * 2 ^ k * 2 ^ e)) : (2 * d + 1) * 2 ^ k = m := by
    have ht' : t = (2 * d + 1) * 2 ^ k := mul_right_cancel₀ h2e.ne' (by linarith)
    exact le_antisymm (not_lt.1 (mt hlt.2 ht'.not_lt)) (not_lt.1 (mt hgt.2 ht'.not_gt))
  split
  · next hup =>
    have hmid : (2 * d + 1) * 2 ^ k ≤ t := not_lt.1 (mt hlt.1 (by omega))
    rw [← add_assoc]
    refine nearestEven_upper (by linarith) ?_ fun h => ?_
    · linarith [mul_le_mul_of_nonneg_right hmid h2e.le]
    · have := htie (h.trans hsum)
      rw [Nat.even_iff]
      omega
  · next hdown =>
    have hmid : t ≤ (2 * d + 1) * 2 ^ k := not_lt.1 (mt hgt.1 (by omega))
    refine nearestEven_lower (by linarith) ?_ fun h => ?_
    · linarith [mul_le_mul_of_nonneg_right hmid h2e.le]
    · have := htie (h.trans hsum)
      rw [Nat.even_iff]
      omega

/-! ## The operations -/

/-- `round` is correct rounding of `± t · 2^e`, where `m` is `t` or stands for it. -/
theorem correctlyRounds_round (s : Bool) {m : ℕ} {e : ℤ} {t : ℚ} (hzero : m = 0 → t = 0) (ht0 : 0 ≤ t)
    (ht : StandsFor m t (lastPlace m e - e)) : CorrectlyRounds (round s m e) (signed s (t * 2 ^ e)) := by
  by_cases hm : m = 0
  · have h := correctlyRounds_of_nearestEven s le_rfl (magValue_zero ▸ nearestEven_magValue 0)
    rwa [hm, round_zero, hzero hm, zero_mul]
  · rw [round_of_ne_zero s hm]
    exact correctlyRounds_of_nearestEven s (by positivity) (nearestEven_roundedMag hm ht)

theorem correctlyRounds_round_exact (s : Bool) (m : ℕ) (e : ℤ) :
    CorrectlyRounds (round s m e) (signed s (m * 2 ^ e)) :=
  correctlyRounds_round s (fun h => by rw [h, Nat.cast_zero]) m.cast_nonneg (.inl rfl)

theorem correctlyRounds_zero (s : Bool) : CorrectlyRounds (ofSignMag s 0) 0 := by
  simpa [round_zero] using correctlyRounds_round_exact s 0 0

theorem addWith_of_isFinite (nan : F64) {x y : F64} (hx : x.isFinite = true) (hy : y.isFinite = true) :
    addWith nan x y = addFinite x y := by
  simp [addWith, isNaN_eq_false_of_isFinite hx, isNaN_eq_false_of_isFinite hy, isInf_eq_false_of_isFinite hx,
    isInf_eq_false_of_isFinite hy]

/-- At the smaller of the two exponents both significands are integers, and so is their exact sum. -/
theorem correctlyRounds_addFinite (x y : F64) : CorrectlyRounds (addFinite x y) (x.value + y.value) := by
  have hv : ((x.scaledTo (min x.expo y.expo) + y.scaledTo (min x.expo y.expo) : ℤ) : ℚ) *
      2 ^ min x.expo y.expo = x.value + y.value := by
    rw [Int.cast_add, add_mul, value_scaledTo x (min_le_left _ _), value_scaledTo y (min_le_right _ _)]
  rw [addFinite, ← hv]
  generalize x.scaledTo (min x.expo y.expo) + y.scaledTo (min x.expo y.expo) = v
  split
  · next h => rw [h, Int.cast_zero, zero_mul]; exact correctlyRounds_zero _
  · have h := correctlyRounds_round_exact (decide (v < 0)) v.natAbs (min x.expo y.expo)
    rwa [signed_mul, signed_natAbs] at h

theorem correctlyRounds_add {x y : F64} (hx : x.isFinite = true) (hy : y.isFinite = true) :
    CorrectlyRounds (x.add y) (x.value + y.value) := by
  rw [add, addWith_of_isFinite _ hx hy]
  exact correctlyRounds_addFinite x y

theorem correctlyRounds_sub {x y : F64} (hx : x.isFinite = true) (hy : y.isFinite = true) :
    CorrectlyRounds (x.sub y) (x.value - y.value) := by
  rw [sub, addWith_of_isFinite _ hx (isFinite_negate hy), sub_eq_add_neg, ← value_negate]
  exact correctlyRounds_addFinite x y.negate

theorem mul_of_isFinite {x y : F64} (hx : x.isFinite = true) (hy : y.isFinite = true) :
    x.mul y = round (x.neg? != y.neg?) (x.mant * y.mant) (x.expo + y.expo) := by
  simp [mul, isNaN_eq_false_of_isFinite hx, isNaN_eq_false_of_isFinite hy, isInf_eq_false_of_isFinite hx,
    isInf_eq_false_of_isFinite hy]

theorem div_of_isFinite {x y : F64} (hx : x.isFinite = true) (hy : y.isFinite = true) (h0 : y.mag ≠ 0) :
    x.div y = divFinite (x.neg? != y.neg?) x y := by
  simp [div, isNaN_eq_false_of_isFinite hx, isNaN_eq_false_of_isFinite hy, isInf_eq_false_of_isFinite hx,
    isInf_eq_false_of_isFinite hy, h0]

theorem correctlyRounds_mul {x y : F64} (hx : x.isFinite = true) (hy : y.isFinite = true) :
    CorrectlyRounds (x.mul y) (x.value * y.value) := by
  have h := correctlyRounds_round_exact (x.neg? != y.neg?) (x.mant * y.mant) (x.expo + y.expo)
  rwa [← mul_of_isFinite hx hy, zpow_add₀ two_ne_zero, Nat.cast_mul, mul_mul_mul_comm, ← signed_mul_signed,
    ← value_eq_signed_mant, ← value_eq_signed_mant] at h

/-- The significand that `divFinite` rounds: twice the quotient, and a sticky bit for the remainder. -/
def stickyQuotient (n d : ℕ) : ℕ := 2 * (n / d) + if n % d = 0 then 0 else 1

/-- It stands for twice the exact quotient wherever two bits or more are dropped. -/
theorem standsFor_stickyQuotient {n d : ℕ} (hd : 0 < d) {k : ℤ} (hk : d ∣ n ∨ 2 ≤ k) :
    StandsFor (stickyQuotient n d) (2 * (n / d : ℚ)) k := by
  have hdm : ((d * (n / d) + n % d : ℕ) : ℚ) = n := by rw [Nat.div_add_mod]
  have hdq : (0 : ℚ) < d := Nat.cast_pos.2 hd
  have hq : (n / d : ℚ) = (n / d : ℕ) + (n % d : ℕ) / d := by
    rw [← hdm]
    push_cast
    field_simp
  unfold stickyQuotient
  split
  · next h =>
    left
    rw [hq, h]
    push_cast
    ring
  · next h =>
    right
    have hr : ((n % d : ℕ) : ℚ) / d < 1 := (div_lt_one hdq).2 (Nat.cast_lt.2 (Nat.mod_lt n hd))
    have hr0 : 0 < ((n % d : ℕ) : ℚ) / d := div_pos (Nat.cast_pos.2 (Nat.pos_of_ne_zero h)) hdq
    refine ⟨hk.resolve_left fun hdvd => h (Nat.mod_eq_zero_of_dvd hdvd), ⟨n / d, rfl⟩, ?_, ?_⟩ <;>
      · rw [hq]
        push_cast
        linarith

theorem eq_zero_of_stickyQuotient {n d : ℕ} (h : stickyQuotient n d = 0) : n = 0 := by
  have hdm := Nat.div_add_mod n d
  unfold stickyQuotient at h
  split at h
  · next hmod => rw [hmod, show n / d = 0 by omega] at hdm; omega
  · omega

/-- Of a quotient of at least `2^54` the rounding drops two bits or more. -/
theorem two_le_lastPlace_sub {m : ℕ} (h : 2 ^ 54 ≤ m) (e : ℤ) : 2 ≤ lastPlace m e - e := by
  have hlog : 54 ≤ Nat.log2 m := (Nat.le_log2 (by omega)).2 h
  unfold lastPlace
  omega

theorem mant_pos {x : F64} (h : x.value ≠ 0) : 0 < x.mant := by
  refine Nat.pos_of_ne_zero fun h0 => h ?_
  rw [value_eq, h0, Nat.cast_zero, zero_mul, mul_zero]

/-- The significand of the dividend is widened far enough that the quotient keeps two bits to drop. -/
theorem standsFor_divFinite (x : F64) {y : F64} (hy : 0 < y.mant) (e : ℤ) :
    StandsFor (stickyQuotient (x.mant * 2 ^ 110) y.mant) (2 * ((x.mant * 2 ^ 110 : ℕ) / y.mant))
      (lastPlace (stickyQuotient (x.mant * 2 ^ 110) y.mant) e - e) := by
  refine standsFor_stickyQuotient hy ?_
  rcases Nat.eq_zero_or_pos x.mant with hx | hx
  · left
    rw [hx, zero_mul]
    exact dvd_zero _
  · right
    have hq : 2 ^ 54 ≤ x.mant * 2 ^ 110 / y.mant := by
      rw [Nat.le_div_iff_mul_le hy]
      have := y.mant_lt
      omega
    refine two_le_lastPlace_sub ?_ e
    unfold stickyQuotient
    omega

theorem correctlyRounds_div {x y : F64} (hx : x.isFinite = true) (hy : y.isFinite = true) (h0 : y.value ≠ 0) :
    CorrectlyRounds (x.div y) (x.value / y.value) := by
  have hm := mant_pos h0
  have h := correctlyRounds_round (x.neg? != y.neg?)
    (fun h => by rw [eq_zero_of_stickyQuotient h, Nat.cast_zero, zero_div, mul_zero]) (by positivity)
    (standsFor_divFinite x hm (x.expo - y.expo - 111))
  have hv : (2 * ((x.mant * 2 ^ 110 : ℕ) / y.mant) : ℚ) * 2 ^ (x.expo - y.expo - 111) =
      x.mant * 2 ^ x.expo / (y.mant * 2 ^ y.expo) := by
    rw [zpow_sub₀ two_ne_zero, zpow_sub₀ two_ne_zero]
    push_cast
    field_simp
    ring
  rw [div_of_isFinite hx hy (mt (value_eq_zero y).2 h0), value_eq_signed_mant x, value_eq_signed_mant y,
    signed_div_signed, ← hv]
  exact h

/-- Below `2^53` no bit of `n` is dropped. -/
theorem ofNat_exact {n : ℕ} (hn : n < 2 ^ 53) : (ofNat n).isFinite = true ∧ (ofNat n).value = n := by
  rcases Nat.eq_zero_or_pos n with rfl | hpos
  · exact ⟨by decide, by rw [Nat.cast_zero, value_eq_zero]; decide⟩
  · have hlog : Nat.log2 n < 53 := (Nat.log2_lt hpos.ne').2 hn
    have hval : magValue (roundedMag n 0) = n := by
      rw [magValue_roundedMag hpos.ne' (by unfold lastPlace; omega), zpow_zero, mul_one]
    have hlt : roundedMag n 0 < infMag := by
      rw [← magValue_lt_iff, hval, magValue_infMag]
      have h53 : (n : ℚ) < ((2 ^ 53 : ℕ) : ℚ) := Nat.cast_lt.2 hn
      rw [Nat.cast_pow, Nat.cast_ofNat] at h53
      exact h53.trans (pow_lt_pow_right₀ one_lt_two (by norm_num))
    have hlt63 : roundedMag n 0 < 2 ^ 63 := hlt.trans (by decide)
    rw [ofNat, round_of_ne_zero false hpos.ne', min_eq_left hlt.le]
    refine ⟨?_, ?_⟩
    · rw [isFinite_iff, mag_ofSignMag _ hlt63]
      exact hlt
    · rw [value_of_mag, neg?_ofSignMag _ hlt63, mag_ofSignMag _ hlt63, hval]
      rfl

end Sys2Proof.F64

namespace Sys2Proof

open F64

/-- Settles O39: each operation is `round` of its exact result, or of one that a sticky bit stands for. -/
theorem arithmeticIsCorrectlyRounded : Obligations.ArithmeticIsCorrectlyRounded :=
  ⟨fun _ _ hx hy => ⟨correctlyRounds_add hx hy, correctlyRounds_sub hx hy, correctlyRounds_mul hx hy,
    correctlyRounds_div hx hy⟩, fun _ => ofNat_exact⟩

end Sys2Proof
end

section
/-! PROOF. The constants of the pseudocode (00_scope.md R11). -/

namespace Sys2Proof.F64

/-! ## Multiples of one half -/

/-- A multiple of one half by its fields, which are compared as integers. -/
theorem value_eq_half {x : F64} {k : ℕ} (hs : x.neg? = false) (he : x.expo ≤ 0)
    (hm : 2 * x.mant = k * 2 ^ (-x.expo).toNat) : x.value = k / 2 := by
  obtain ⟨j, hj⟩ := Int.eq_ofNat_of_zero_le (show 0 ≤ -x.expo by omega)
  rw [hj, Int.toNat_natCast] at hm
  have hm' : 2 * (x.mant : ℚ) = k * 2 ^ j := by exact_mod_cast hm
  rw [value_eq_signed_mant, hs, show x.expo = -(j : ℤ) by omega, zpow_neg, zpow_natCast, signed,
    if_neg Bool.false_ne_true]
  field_simp
  linarith

theorem isFinite_and_value_of_fields {x : F64} (k : ℕ) {v : ℚ} (hv : (k : ℚ) / 2 = v)
    (h : x.isFinite = true ∧ x.neg? = false ∧ x.expo ≤ 0 ∧ 2 * x.mant = k * 2 ^ (-x.expo).toNat) :
    x.isFinite = true ∧ x.value = v := by
  obtain ⟨hfin, hs, he, hm⟩ := h
  exact ⟨hfin, (value_eq_half hs he hm).trans hv⟩

/-! ## PI64 and TWO_THIRDS -/

/-- No finite value lies strictly between two neighbouring magnitudes. -/
theorem value_le_or_ge (z : F64) (g : ℕ) : z.value ≤ magValue g ∨ magValue (g + 1) ≤ z.value := by
  have hz := magValue_nonneg z.mag
  rw [value_of_mag]
  rcases le_or_gt z.mag g with hle | hgt
  · left
    have := magValue_strictMono.monotone hle
    split <;> linarith
  · split
    · left
      linarith [magValue_nonneg g]
    · right
      exact magValue_strictMono.monotone hgt

/-- A magnitude is a finite value nearest to a real between it and the midpoint above it. -/
theorem nearest_real {g : ℕ} {a : ℝ} (hlo : (magValue g : ℝ) ≤ a)
    (hmid : 2 * a ≤ magValue g + magValue (g + 1)) (z : F64) :
    |(magValue g : ℝ) - a| ≤ |(z.value : ℝ) - a| := by
  rw [abs_of_nonpos (by linarith)]
  rcases value_le_or_ge z g with h | h
  · have h' : (z.value : ℝ) ≤ magValue g := Rat.cast_le.2 h
    rw [abs_of_nonpos (by linarith)]
    linarith
  · have h' : (magValue (g + 1) : ℝ) ≤ z.value := Rat.cast_le.2 h
    linarith [le_abs_self ((z.value : ℝ) - a)]

/-- The low 63 bits of PI64. -/
def piMag : ℕ := 0x400921FB54442D18

theorem magValue_piMag : magValue piMag = 7074237752028440 / 2 ^ 51 := by
  norm_num [magValue, piMag]

theorem magValue_piMag_succ : magValue (piMag + 1) = 7074237752028441 / 2 ^ 51 := by
  norm_num [magValue, piMag]

theorem value_pi : pi.value = magValue piMag := by
  rw [value_of_mag, if_neg (by decide)]
  rfl

theorem pi_nearest (z : F64) : |(pi.value : ℝ) - Real.pi| ≤ |(z.value : ℝ) - Real.pi| := by
  have hlo := Real.pi_gt_d20
  have hhi := Real.pi_lt_d20
  rw [value_pi]
  refine nearest_real ?_ ?_ z
  · rw [magValue_piMag]
    push_cast
    linarith
  · rw [magValue_piMag, magValue_piMag_succ]
    push_cast
    linarith

/-- 2 and 3 are exact, so their quotient is the only rounding. -/
theorem correctlyRounds_twoThirds : CorrectlyRounds twoThirds (2 / 3) := by
  obtain ⟨h2, hv2⟩ := ofNat_exact (n := 2) (by norm_num)
  obtain ⟨h3, hv3⟩ := ofNat_exact (n := 3) (by norm_num)
  have h := correctlyRounds_div h2 h3 (by rw [hv3]; norm_num)
  rw [hv2, hv3] at h
  exact_mod_cast h

end Sys2Proof.F64

namespace Sys2Proof

open F64

/-- Settles O59: the literals by their fields, TWO_THIRDS by correct rounding of the quotient, and PI64 by the
bounds of π, which lies between PI64 and the midpoint above it. -/
theorem constantsHaveTheirValues : Obligations.ConstantsHaveTheirValues := by
  obtain ⟨-, -, hnear⟩ := correctlyRounds_twoThirds
  have hfin : twoThirds.isFinite = true := by decide +kernel
  refine ⟨rfl, ?_, rfl, hfin, fun z hz => (hnear hfin z hz).1, rfl, by decide, fun z _ => pi_nearest z⟩
  simp only [List.forall_mem_cons]
  exact ⟨⟨by decide, (value_eq_zero _).2 (by decide)⟩,
    isFinite_and_value_of_fields 1 (by norm_num) (by decide),
    isFinite_and_value_of_fields 2 (by norm_num) (by decide),
    isFinite_and_value_of_fields 4 (by norm_num) (by decide),
    isFinite_and_value_of_fields 5 (by norm_num) (by decide),
    isFinite_and_value_of_fields 6 (by norm_num) (by decide),
    isFinite_and_value_of_fields 15 (by norm_num) (by decide),
    isFinite_and_value_of_fields 30 (by norm_num) (by decide),
    isFinite_and_value_of_fields 62 (by norm_num) (by decide),
    isFinite_and_value_of_fields 63 (by norm_num) (by decide),
    isFinite_and_value_of_fields 126 (by norm_num) (by decide),
    isFinite_and_value_of_fields 510 (by norm_num) (by decide),
    List.forall_mem_nil _⟩

end Sys2Proof
end

section
/-! PROOF. Every step keeps the invariant: the state after reset meets it, and each operation of the host port,
the engine and the reset input keeps it. -/

namespace Sys2Proof.Machine

/-! ## A completed command -/

/-- A command ends in the completion of a state that differs from its own by the outputs of unit commands. -/
theorem exec_frame {i : Instr} {s t : State} (h : exec i s = .next t) :
    ∃ u e, UnitFrame s u ∧ t = u.finish e := by
  rcases exec_cases h with ⟨u, hu, ht⟩ | ⟨e, -, ht⟩
  · exact ⟨u, none, commandResult_frame hu, ht⟩
  · exact ⟨s, some e, UnitFrame.refl s, ht⟩

/-! ## The invariant of a state that shares what the invariant reads -/

theorem State.Inv.good {s : State} (h : s.Inv) : s.mem.Good := ⟨h.sorted, h.inStores, h.nibbles⟩

/-- The invariant speaks of the memory, STATUS, the pending command, CMD and the draws only. -/
theorem State.Inv.of_eq {s t : State} (h : s.Inv) (hmem : t.mem.Good) (hstatus : t.status = s.status)
    (hpending : t.pending = s.pending) (hcmd : t.cmd = s.cmd) (hepoch : t.epoch = s.epoch)
    (habandoned : t.abandoned = s.abandoned) (hdraws : s.draws ≤ t.draws) : t.Inv where
  sorted := hmem.sorted
  inStores := hmem.inStores
  nibbles := hmem.nibbles
  status := hstatus ▸ h.status
  pending := by rw [hpending, hcmd, hstatus]; exact h.pending
  fresh := hepoch ▸ h.fresh.trans_le hdraws
  freshAbandoned := fun v hv => (h.freshAbandoned v (habandoned ▸ hv)).trans_le hdraws

theorem State.Inv.with_agenda {s : State} (h : s.Inv) (as : List Action) : { s with agenda := as }.Inv :=
  h.of_eq h.good rfl rfl rfl rfl rfl le_rfl

theorem State.Inv.answer {s : State} (h : s.Inv) (r : Response) : (s.answer r).Inv :=
  h.of_eq h.good rfl rfl rfl rfl rfl le_rfl

/-! ## Completion, launch and acknowledgement -/

theorem State.Inv.finish {s u : State} (h : s.Inv) (hu : UnitFrame s u) (e : Option CmdError) :
    (u.finish e).Inv where
  sorted := (hu.good h.good).sorted
  inStores := (hu.good h.good).inStores
  nibbles := (hu.good h.good).nibbles
  status := Status.completed_legal e
  pending := nofun
  fresh := by simpa [hu.epoch, hu.draws] using h.fresh
  freshAbandoned := by simpa [hu.abandoned, hu.draws] using h.freshAbandoned

theorem State.Inv.launch {s : State} (h : s.Inv) (w : Word) : (s.launch w).Inv :=
  { h with
    status := rfl
    pending := fun _ hv => ⟨Option.some.inj hv, rfl⟩ }

theorem State.legal_acknowledge {s : State} (h : s.status.legal = true) (w : Word) :
    (s.acknowledge w).status.legal = true := by
  rw [State.acknowledge]
  cases w.getLsbD 2
  · simpa [Status.legal] using h
  · simp [Status.legal]

/-- An acknowledgement finds nothing to clear while a command is pending. -/
theorem State.Inv.acknowledge {s : State} (h : s.Inv) (w : Word) : (s.acknowledge w).Inv :=
  { h with
    status := State.legal_acknowledge h.status w
    pending := fun v hv => by
      obtain ⟨hcmd, hstatus⟩ := h.pending v hv
      exact ⟨hcmd, by simp [State.acknowledge, hstatus]⟩ }

/-! ## The resets -/

theorem State.Inv.unspecify {s : State} (h : s.Inv) (f : Footprint) : (s.unspecify f).Inv where
  sorted := (Memory.good_forget h.good f.spans).sorted
  inStores := (Memory.good_forget h.good f.spans).inStores
  nibbles := (Memory.good_forget h.good f.spans).nibbles
  status := h.status
  pending := h.pending
  fresh := Nat.lt_succ_of_lt h.fresh
  freshAbandoned := fun v hv => by
    rcases List.mem_cons.1 hv with rfl | hv
    · exact Nat.lt_succ_self s.draws
    · exact Nat.lt_succ_of_lt (h.freshAbandoned v hv)

theorem State.busy_eq_false {s : State} : s.busy = false ↔ s.pending = none := by
  simp [State.busy]

/-- A soft reset drops the pending command. -/
theorem State.Inv.abandon {s : State} (h : s.Inv) : s.abandon.Inv ∧ s.abandon.pending = none := by
  unfold State.abandon
  split
  · exact ⟨{ h.unspecify s.pendingFootprint with pending := nofun }, rfl⟩
  · next hb => exact ⟨h, State.busy_eq_false.1 (by simpa using hb)⟩

theorem State.Inv.softReset {s : State} (h : s.Inv) : s.softReset.Inv := by
  obtain ⟨hinv, hnone⟩ := h.abandon
  exact { hinv with
    status := rfl
    pending := fun w hw => absurd (hnone.symm.trans hw) nofun }

/-- Power-on reset lists no byte, and takes the draw the counter stands at. -/
theorem State.inv_powerOn (s : State) : s.powerOn.Inv where
  sorted := rfl
  inStores := rfl
  nibbles := rfl
  status := rfl
  pending := nofun
  fresh := Nat.lt_succ_self s.draws
  freshAbandoned := nofun

theorem State.inv_reset : State.reset.Inv where
  sorted := rfl
  inStores := rfl
  nibbles := rfl
  status := rfl
  pending := nofun
  fresh := Nat.zero_lt_one
  freshAbandoned := nofun

/-! ## The host port -/

theorem State.Inv.writeReg {s : State} (h : s.Inv) (w : Word) (r : Reg) : (s.writeReg w r).Inv := by
  cases r with
  | ctrl =>
    simp only [State.writeReg, State.writeCtrl]
    split
    · exact h.softReset
    · exact h.of_eq h.good rfl rfl rfl rfl rfl le_rfl
  | cmd => exact h.launch w
  | status => exact h.acknowledge w
  | _ => exact h.of_eq h.good rfl rfl rfl rfl rfl le_rfl

theorem State.Inv.writeTarget {s : State} (h : s.Inv) {a : Addr} {t : Target} (ha : reached a = some t)
    (w : Word) : (s.writeTarget a.toNat w t).Inv := by
  cases t with
  | reg r => exact h.writeReg w r
  | size c => exact h.of_eq h.good rfl rfl rfl rfl rfl le_rfl
  | store =>
    obtain ⟨hword, hstore⟩ := reached_store ha
    have hmem := Memory.good_putWord h.good (fun i hi => inStore_word hstore hword hi) w
    exact h.of_eq hmem rfl rfl rfl rfl rfl le_rfl

theorem State.Inv.transact {s : State} (h : s.Inv) (r : Request) : (s.transact r).Inv := by
  cases r with
  | read a =>
    obtain ⟨r, d, he, hd⟩ := s.hostRead_eq a
    rw [State.transact, he]
    exact h.of_eq h.good rfl rfl rfl rfl rfl hd
  | write a w =>
    rw [State.transact]
    rcases s.hostWrite_cases a w with he | ⟨t, ht, -, he⟩
    · rw [he]
      exact h.answer _
    · rw [he]
      exact (h.writeTarget ht w).answer _

/-! ## The engine and the step -/

theorem engineStep_of_decode {s : State} {w : Word} {i : Instr} (hw : s.pending = some w)
    (hi : decodeWord w = .ok i) : engineStep s = exec i s := by
  simp [engineStep, hw, hi]

theorem State.Inv.engineStep {s t : State} (h : s.Inv) (ht : engineStep s = .next t) : t.Inv := by
  rcases engineStep_cases ht with ⟨-, rfl⟩ | ⟨w, e, -, -, rfl⟩ | ⟨w, i, -, -, hexec⟩
  · exact h
  · exact h.finish (UnitFrame.refl s) _
  · obtain ⟨u, e, hu, rfl⟩ := exec_frame hexec
    exact h.finish hu e

theorem State.Inv.step {s t : State} (h : s.Inv) (ht : step s = .next t) : t.Inv := by
  rcases step_cases ht with ⟨-, he⟩ | ⟨rest, -, he⟩ | ⟨r, rest, -, rfl⟩ | ⟨rest, -, rfl⟩
  · exact h.engineStep he
  · exact (h.with_agenda rest).engineStep he
  · exact (h.with_agenda rest).transact r
  · exact State.inv_powerOn _

end Sys2Proof.Machine

namespace Sys2Proof

open Machine

/-- Settles O9: nothing is listed, pending or abandoned, and one draw has been made. -/
theorem resetMeetsInvariant : Obligations.ResetMeetsInvariant := State.inv_reset

/-- Settles O8, by the ways a step can go: the engine, a host transaction, or power-on reset. -/
theorem stepKeepsInvariant : Obligations.StepKeepsInvariant := fun _ _ h ht => h.step ht

/-- Settles O14: completion writes STATUS and BUSY only, and a unit command only its outputs. -/
theorem commandsLeaveHostRegisters : Obligations.CommandsLeaveHostRegisters := by
  intro i s t h
  obtain ⟨u, e, hu, rfl⟩ := exec_frame h
  exact ⟨hu.irqEn, hu.cmd, hu.imgDim, hu.inLen, hu.outBase, hu.params, hu.epoch, hu.abandoned, hu.draws,
    hu.agenda, hu.resp⟩

/-- Settles O5, in both cases by the engine step on a word that decodes. -/
theorem stepRunsDecodedCommand : Obligations.StepRunsDecodedCommand := by
  intro s w i hw hi
  constructor
  · intro hagenda
    rw [step, hagenda]
    exact engineStep_of_decode hw hi
  · intro rest hagenda
    rw [step, hagenda]
    exact engineStep_of_decode (s := { s with agenda := rest }) hw hi

end Sys2Proof
end

section
/-! PROOF. The registers at the host port: where each stands, what a write makes it read as, and what a write
leaves unchanged (10_state.md R31 to R45, R54; 20_memory.md R72). -/

namespace Sys2Proof.Machine

/-! ## The offsets of the registers -/

/-- The bus address of a register (20_memory.md R72). -/
def Reg.addr : Reg → Addr
  | .id => 0x000
  | .cfg => 0x004
  | .ctrl => 0x008
  | .cmd => 0x00C
  | .status => 0x010
  | .imgDim => 0x014
  | .inLen => 0x018
  | .hashLen => 0x01C
  | .outBase => 0x020
  | .outDim => 0x024
  | .lext => 0x028
  | .hdr24 => 0x02C
  | .hdr16 => 0x030
  | .hdr8 => 0x034
  | .nibCount => 0x038

theorem reached_addr (r : Reg) : reached r.addr = some (.reg r) := by
  cases r <;> decide

theorem addr_of_mem_regAt : ∀ off < 0x40, ∀ r ∈ regAt off, off = r.addr.toNat := by decide

/-- A mapped address below 0x40 is that of a register. -/
theorem reached_below {a : Addr} {t : Target} (h : reached a = some t) (ha : a.toNat < 0x40) :
    ∃ r, t = .reg r ∧ a = r.addr := by
  simp only [reached] at h
  split at h
  · rw [target, if_pos (by omega), Option.map_eq_some_iff] at h
    obtain ⟨r, hr, rfl⟩ := h
    exact ⟨r, rfl, BitVec.eq_of_toNat_eq (addr_of_mem_regAt _ ha r hr)⟩
  · cases h

/-! ## Reading and writing a register -/

theorem State.transact_write_reg {s : State} (hs : s.busy = false) (w : Word) (r : Reg) :
    s.transact (.write r.addr w) = (s.writeReg w r).answer ⟨none, .okay⟩ :=
  State.transact_write (reached_addr r) (.inl hs) w

theorem State.resp_read_reg {s : State} (hs : s.busy = false) (r : Reg) :
    (s.transact (.read r.addr)).resp = some ⟨some (s.readReg r), .okay⟩ := by
  rw [State.transact_read (reached_addr r) (.inl hs)]
  rfl

/-- Two idle states answer a read below 0x40 alike where the register read, if there is one, is the same. -/
theorem State.resp_read_congr {s t : State} (hs : s.busy = false) (ht : t.busy = false) {a : Addr}
    (ha : a.toNat < 0x40) (h : ∀ q : Reg, a = q.addr → t.readReg q = s.readReg q) :
    (t.transact (.read a)).resp = (s.transact (.read a)).resp := by
  cases hr : reached a with
  | none =>
    rw [(State.transact_unmapped hr 0).1, (State.transact_unmapped hr 0).1]
    rfl
  | some g =>
    obtain ⟨q, -, rfl⟩ := reached_below hr ha
    rw [State.resp_read_reg ht, State.resp_read_reg hs, h q rfl]

@[simp] theorem State.readReg_answer (s : State) (p : Response) (q : Reg) :
    (s.answer p).readReg q = s.readReg q := by
  cases q <;> rfl

/-! ## The bits that a written register keeps -/

theorem bit_eq_ofBool (b : Bool) : bit b = BitVec.ofBool b := by
  cases b <;> rfl

theorem append_bit_eq_and (w : Word) : 0#31 ++ bit (w.getLsbD 0) = w &&& 1#32 := by
  rw [BitVec.and_one_eq_setWidth_ofBool_getLsbD, bit_eq_ofBool, BitVec.setWidth_eq_append (by decide)]
  rfl

theorem setWidth_setWidth_eq_and {k : Nat} (w : Word) {m : Word} (hk : k ≤ 32) (hm : m.toNat = 2 ^ k - 1) :
    (w.setWidth k).setWidth 32 = w &&& m := by
  apply BitVec.eq_of_toNat_eq
  rw [BitVec.toNat_and, hm, Nat.and_two_pow_sub_one_eq_mod, BitVec.toNat_setWidth_of_le hk,
    BitVec.toNat_setWidth]

theorem Dim.toWord_ofWord (w : Word) : (Dim.ofWord w).toWord = w := BitVec.extractLsb'_append_extractLsb'

/-- LEXT keeps bits 2:0, 6:4, 8 and 9 (10_state.md R41). -/
theorem Lext.toWord_ofWord (w : Word) : (Lext.ofWord w).toWord = w &&& 0x377 := by
  apply BitVec.eq_of_getLsbD_eq
  intro i hi
  simp only [Lext.toWord, Lext.ofWord, bit_eq_ofBool, BitVec.getLsbD_append, BitVec.getLsbD_and,
    BitVec.getLsbD_extractLsb', BitVec.getLsbD_ofBool, BitVec.getLsbD_zero]
  interval_cases i <;> simp

@[simp] theorem State.busy_acknowledge (s : State) (w : Word) : (s.acknowledge w).busy = s.busy := rfl

/-- The bits of STATUS one by one, with and without each of the two bits that clear (10_state.md R35). -/
theorem State.statusWord_acknowledge (s : State) (w : Word) :
    (s.acknowledge w).statusWord = s.statusWord &&&
      ~~~((if w.getLsbD 1 then 0x02 else 0) ||| (if w.getLsbD 2 then 0xF4 else 0)) := by
  rw [State.statusWord, State.statusWord, State.busy_acknowledge, State.acknowledge]
  apply BitVec.eq_of_getLsbD_eq
  intro i hi
  cases w.getLsbD 1 <;> cases w.getLsbD 2 <;>
    simp only [bit_eq_ofBool, BitVec.getLsbD_append, BitVec.getLsbD_and, BitVec.getLsbD_ofBool,
      BitVec.getLsbD_zero] <;>
    interval_cases i <;> simp

theorem State.statusWord_launch (s : State) (w : Word) : (s.launch w).statusWord = 1 := by
  simp [State.statusWord, State.busy, bit_eq_ofBool]

/-! ## A written register -/

theorem State.writeReg_ctrl (s : State) {w : Word} (hw : w.getLsbD 1 = false) :
    s.writeReg w .ctrl = { s with irqEn := w.getLsbD 0 } :=
  if_neg (Bool.eq_false_iff.1 hw)

/-- What a register reads as after a host write to it, a soft reset aside (10_state.md R54). -/
def State.writtenReg (s : State) (w : Word) : Reg → Word
  | .ctrl => w &&& 0x1
  | .status => s.readReg .status &&&
      ~~~((if w.getLsbD 1 then 0x02 else 0) ||| (if w.getLsbD 2 then 0xF4 else 0))
  | .hashLen => w &&& 0x3F
  | .outBase => w &&& 0xFF
  | .lext => w &&& 0x377
  | .hdr24 => w &&& 0xFFFFFF
  | .hdr16 => w &&& 0xFFFF
  | .hdr8 => w &&& 0xFF
  | .cmd | .imgDim | .inLen | .outDim => w
  | .id => s.readReg .id
  | .cfg => s.readReg .cfg
  | .nibCount => s.readReg .nibCount

theorem State.readReg_writeReg_same (s : State) {w : Word} {r : Reg}
    (hctrl : r = .ctrl → w.getLsbD 1 = false) : (s.writeReg w r).readReg r = s.writtenReg w r := by
  cases r with
  | ctrl =>
    rw [s.writeReg_ctrl (hctrl rfl)]
    exact append_bit_eq_and w
  | status => exact s.statusWord_acknowledge w
  | imgDim => exact Dim.toWord_ofWord w
  | outDim => exact Dim.toWord_ofWord w
  | lext => exact Lext.toWord_ofWord w
  | hashLen => exact setWidth_setWidth_eq_and w (k := 6) (by decide) (by decide)
  | outBase => exact setWidth_setWidth_eq_and w (k := 8) (by decide) (by decide)
  | hdr24 => exact setWidth_setWidth_eq_and w (k := 24) (by decide) (by decide)
  | hdr16 => exact setWidth_setWidth_eq_and w (k := 16) (by decide) (by decide)
  | hdr8 => exact setWidth_setWidth_eq_and w (k := 8) (by decide) (by decide)
  | id | cfg | cmd | inLen | nibCount => rfl

/-- Every register has a field of its own, but for CMD, whose write sets STATUS too. -/
theorem State.readReg_writeReg_of_ne (s : State) {w : Word} {r q : Reg} (hcmd : r ≠ .cmd)
    (hctrl : r = .ctrl → w.getLsbD 1 = false) (hne : q ≠ r) :
    (s.writeReg w r).readReg q = s.readReg q := by
  cases r with
  | cmd => contradiction
  | ctrl =>
    rw [s.writeReg_ctrl (hctrl rfl)]
    cases q <;> (try contradiction) <;> rfl
  | _ => cases q <;> (try contradiction) <;> rfl

/-- A write that neither launches nor resets changes the fields of registers only. -/
theorem State.writeReg_frame (s : State) {w : Word} {r : Reg} (hcmd : r ≠ .cmd)
    (hctrl : r = .ctrl → w.getLsbD 1 = false) :
    let t := s.writeReg w r
    t.ext = s.ext ∧ t.mem = s.mem ∧ t.epoch = s.epoch ∧ t.abandoned = s.abandoned ∧ t.params = s.params ∧
      t.pending = s.pending ∧ t.draws = s.draws ∧ t.agenda = s.agenda := by
  cases r with
  | cmd => contradiction
  | ctrl =>
    rw [s.writeReg_ctrl (hctrl rfl)]
    exact ⟨rfl, rfl, rfl, rfl, rfl, rfl, rfl, rfl⟩
  | _ => exact ⟨rfl, rfl, rfl, rfl, rfl, rfl, rfl, rfl⟩

end Sys2Proof.Machine

namespace Sys2Proof

open Machine

/-- Settles O50: the list pairs each register but CMD with its address and the bits it keeps; what a write
leaves unchanged is the frame of `writeReg`. -/
theorem registerWriteReadsBack : Obligations.RegisterWriteReadsBack := by
  rintro s w ⟨r, a, v⟩ hidle hp hctrl
  obtain ⟨hcmd, rfl, rfl⟩ : r ≠ .cmd ∧ a = r.addr ∧ v = s.writtenReg w r := by
    fin_cases hp <;> exact ⟨nofun, rfl, rfl⟩
  have hsame := s.readReg_writeReg_same hctrl
  have hother {q : Reg} (hq : q ≠ r) := s.readReg_writeReg_of_ne hcmd hctrl hq
  obtain ⟨hext, hmem, hepoch, habandoned, hparams, hpending, hdraws, hagenda⟩ :=
    s.writeReg_frame hcmd hctrl
  have hnone := hpending.trans (State.busy_eq_false.1 hidle)
  have hidle' : ((s.writeReg w r).answer ⟨none, .okay⟩).busy = false := State.busy_eq_false.2 hnone
  refine ⟨_, State.transact_write_reg hidle w r, rfl, ?_, ?_, ?_, hext, hmem, hepoch, habandoned, hparams,
    hnone, hdraws, hagenda⟩
  · rw [State.resp_read_reg hidle', State.readReg_answer, hsame]
  · intro off hoff hne
    have hnat : (BitVec.ofNat 20 off).toNat = off := Nat.mod_eq_of_lt (by omega)
    refine State.resp_read_congr hidle hidle' (by omega) fun q hq => ?_
    rw [State.readReg_answer]
    refine hother fun hqr => hne ?_
    rw [← hnat, hq, hqr]
  · intro q
    rw [State.readReg_answer]
    split
    · next hq => rw [hq, hsame]
    · next hq => exact hother hq

/-- Settles O54: the write is `launch` while no command is pending; CMD is outside every command's frame. -/
theorem cmdWriteLaunches : Obligations.CmdWriteLaunches := by
  refine ⟨rfl, fun i s t h => ?_, fun s w => ⟨fun hnone => ?_, fun hsome => ?_⟩⟩
  · obtain ⟨u, e, hu, rfl⟩ := exec_frame h
    exact hu.cmd
  · refine ⟨_, State.transact_write_reg (State.busy_eq_false.2 hnone) w .cmd, rfl, s.statusWord_launch w, ?_⟩
    exact congrArg State.resp (State.transact_read (reached_addr .cmd) (.inr rfl))
  · have hbusy : s.busy = true := Option.isSome_iff_ne_none.2 hsome
    exact State.transact_write_busy (reached_addr .cmd) hbusy rfl w

/-- Settles O43: no byte is listed after reset, so that each reads as the free value of the first draw. -/
theorem resetValues : Obligations.ResetValues := by
  refine ⟨by decide, by decide, by decide, by decide, by decide, by decide, by decide, by decide, by decide,
    by decide, by decide, by decide, by decide, by decide, by decide, fun c => ?_, rfl, rfl, rfl, fun _ => rfl⟩
  cases c <;> exact ⟨rfl, rfl, rfl⟩

end Sys2Proof
end

section
/-! PROOF. The address map of the host port: which addresses are mapped, which reach a register and which a store
(20_memory.md R71, R75, R77). -/

namespace Sys2Proof.Machine

theorem regAt_isSome_iff (off : Nat) : (regAt off).isSome ↔ off % 4 = 0 ∧ off < 0x3C := by
  have hlow : ∀ o < 0x3C, ((regAt o).isSome ↔ o % 4 = 0) := by decide
  rcases Nat.lt_or_ge off 0x3C with hlt | hge
  · rw [hlow off hlt, and_iff_left hlt]
  · have hnone : regAt off = none := by
      simp only [regAt]
      iterate 15 rw [if_neg (by omega)]
    simp [hnone]; omega

theorem sizeAt_isSome_iff (a : Nat) :
    (sizeAt a).isSome ↔ a = 0x410 ∨ a = 0x510 ∨ a = 0x610 ∨ a = 0x710 := by
  simp only [sizeAt]
  split_ifs <;> simp [*]

theorem inStore_iff (a : Nat) : inStore a = true ↔
    (0x100 ≤ a ∧ a < 0x120) ∨ (0x200 ≤ a ∧ a < 0x240) ∨
      (0x400 ≤ a ∧ a < 0x800 ∧ (a % 0x100 < 0x10 ∨ (0x20 ≤ a % 0x100 ∧ a % 0x100 < 0xF8))) ∨
      (0x10000 ≤ a ∧ a < 0x20000) ∨ (0x20000 ≤ a ∧ a < 0xA0000) := by
  simp only [inStore, inNib, inCoefData, Bool.or_eq_true, Bool.and_eq_true, decide_eq_true_eq]
  simp only [hashBase, nibBase, coefBase, pixBase, planeBase]
  omega

theorem target_of_inStore {a : Nat} (h : inStore a = true) : target a = some .store := by
  have hs := (inStore_iff a).1 h
  have hsize : sizeAt a = none := by
    rw [← Option.not_isSome_iff_eq_none, sizeAt_isSome_iff]
    omega
  rw [target, if_neg (by omega), hsize]
  exact if_pos h

/-- The aligned addresses that reach a store are those of its bytes. -/
theorem reached_store_iff {a : Addr} : reached a = some .store ↔ a.toNat % 4 = 0 ∧ inStore a.toNat = true :=
  ⟨reached_store, fun ⟨h4, hs⟩ => by rw [reached, if_pos h4, target_of_inStore hs]⟩

/-- A mapped address is that of a register, of the size word of a record, or of a store. -/
theorem target_isSome_iff (a : Nat) : (target a).isSome ↔
    if a < 0x100 then (regAt a).isSome = true else (sizeAt a).isSome = true ∨ inStore a = true := by
  simp only [target]
  split
  · rw [Option.isSome_map]
  · cases sizeAt a <;> simp

/-- An address reaches a target exactly where 20_memory.md R71 maps it. -/
theorem reached_isSome_iff (a : Addr) : (reached a).isSome ↔ a.toNat % 4 = 0 ∧
    (a.toNat < 0x3C ∨ (0x100 ≤ a.toNat ∧ a.toNat < 0x120) ∨ (0x200 ≤ a.toNat ∧ a.toNat < 0x240) ∨
      (0x400 ≤ a.toNat ∧ a.toNat < 0x800 ∧
        (a.toNat % 0x100 < 0x14 ∨ (0x20 ≤ a.toNat % 0x100 ∧ a.toNat % 0x100 < 0xF8))) ∨
      (0x10000 ≤ a.toNat ∧ a.toNat < 0x20000) ∨ (0x20000 ≤ a.toNat ∧ a.toNat < 0xA0000)) := by
  simp only [reached]
  split
  · rw [target_isSome_iff, regAt_isSome_iff, sizeAt_isSome_iff, inStore_iff]
    split <;> omega
  · simp [*]

theorem target_reg {a : Nat} {r : Reg} (h : target a = some (.reg r)) : regAt a = some r := by
  simp only [target] at h
  split at h
  · simpa [Option.map_eq_some_iff] using h
  · split at h
    · simp at h
    · split at h <;> simp at h

/-- A register is reached at its own offset only. -/
theorem reached_reg {a : Addr} {r : Reg} (h : reached a = some (.reg r)) : a = r.addr := by
  have hlt : a.toNat < 0x40 := by
    simp only [reached] at h
    split at h
    · have hsome := (regAt_isSome_iff a.toNat).1 (by rw [target_reg h]; rfl)
      omega
    · cases h
  obtain ⟨q, hq, rfl⟩ := reached_below h hlt
  cases hq
  rfl

/-! ## Reads while no command is pending -/

@[simp] theorem State.readTarget_answer (s : State) (p : Response) (a : Nat) (t : Target) :
    (s.answer p).readTarget a t = s.readTarget a t := by
  cases t with
  | reg r => exact s.readReg_answer p r
  | size c => rfl
  | store => rfl

/-- A read changes nothing but the answer, and does not depend on the answer before. -/
theorem State.transact_read_idle {s : State} (hs : s.busy = false) (a : Addr) :
    ∃ r, s.transact (.read a) = s.answer r ∧ ∀ p, (s.answer p).transact (.read a) = s.answer r := by
  cases hr : reached a with
  | none => exact ⟨_, (State.transact_unmapped hr 0).1, fun p => (State.transact_unmapped hr 0).1⟩
  | some t =>
    refine ⟨_, State.transact_read hr (.inl hs), fun p => ?_⟩
    rw [State.transact_read (s := s.answer p) hr (.inl hs), State.readTarget_answer]
    rfl

end Sys2Proof.Machine

namespace Sys2Proof

open Machine

/-- Settles O47, by where an address is mapped: unmapped it is refused, mapped it is answered OKAY. -/
theorem addressMap : Obligations.AddressMap := by
  intro s r
  cases r with
  | read a =>
    refine ⟨fun hun => ?_, fun hmap hidle => ?_⟩
    · have hnone := Option.not_isSome_iff_eq_none.1 (mt (reached_isSome_iff a).1 hun)
      exact (State.transact_unmapped hnone 0).1
    · obtain ⟨t, ht⟩ := Option.isSome_iff_exists.1 ((reached_isSome_iff a).2 hmap)
      exact ⟨_, congrArg State.resp (State.transact_read ht (.inl hidle))⟩
  | write a w =>
    refine ⟨fun hun => ?_, fun hmap hidle => ?_⟩
    · have hnone := Option.not_isSome_iff_eq_none.1 (mt (reached_isSome_iff a).1 hun)
      exact (State.transact_unmapped hnone w).2
    · obtain ⟨t, ht⟩ := Option.isSome_iff_exists.1 ((reached_isSome_iff a).2 hmap)
      exact ⟨_, congrArg State.resp (State.transact_write ht (.inl hidle) w)⟩

/-- Settles O49: a read sets the answer only, and no read depends on it. -/
theorem readsHaveNoSideEffect : Obligations.ReadsHaveNoSideEffect := by
  intro s a b hidle
  obtain ⟨ra, hra, hra'⟩ := State.transact_read_idle hidle a
  obtain ⟨rb, hrb, -⟩ := State.transact_read_idle hidle b
  exact ⟨⟨ra, hra⟩, by rw [hrb, hra, hra']⟩

end Sys2Proof
end

section
/-! PROOF. Host transactions while a command is pending: what each target gives (20_memory.md R84), and that
none of them, a soft reset aside, changes what the command does (R85). -/

namespace Sys2Proof.Machine

/-! ## A read of an operand while BUSY = 1 -/

/-- A read that BUSY = 1 answers with a free value. -/
theorem State.transact_read_busy {s : State} {a : Addr} {t : Target} (h : reached a = some t)
    (hb : s.busy = true) (ht : t.readableBusy = false) :
    s.transact (.read a) = { s with
      draws := s.draws + 1
      resp := some ⟨some (Config.busyReadWord s.draws a.toNat), .okay⟩ } := by
  simp [State.transact, State.hostRead, h, hb, ht, State.answer]

theorem Target.readableBusy_iff {t : Target} :
    t.readableBusy = true ↔ ∃ r, t = .reg r ∧ r ∈ [Reg.id, .cfg, .ctrl, .cmd, .status] := by
  cases t <;> simp [Target.readableBusy, or_assoc]

theorem Target.writableBusy_iff {t : Target} :
    t.writableBusy = true ↔ t = .reg .ctrl ∨ t = .reg .status := by
  cases t <;> simp [Target.writableBusy]

/-! ## What the port can change while BUSY = 1 -/

/-- The state with other values of the fields that the port changes while a command is pending. -/
def State.withPort (s : State) (irqEn : Bool) (status : Status) (draws : Nat) (resp : Option Response) : State :=
  { s with irqEn := irqEn, status := status, draws := draws, resp := resp }

/-- Without a soft reset a transaction changes no more than that. -/
theorem State.transact_busy_eq_withPort {s : State} (hb : s.busy = true) {r : Request}
    (hr : r.noSoftReset = true) : ∃ q st d p, s.transact r = s.withPort q st d p := by
  cases r with
  | read a =>
    obtain ⟨p, d, he, -⟩ := s.hostRead_eq a
    exact ⟨s.irqEn, s.status, d, some p, he⟩
  | write a w =>
    rcases s.hostWrite_cases a w with he | ⟨t, ht, hw, he⟩
    · exact ⟨s.irqEn, s.status, s.draws, _, he⟩
    · rw [State.transact, he]
      rcases Target.writableBusy_iff.1 (hw hb) with rfl | rfl
      · have hsrst : w.getLsbD 1 = false := by simpa [Request.noSoftReset, reached_reg ht, Reg.addr] using hr
        rw [State.writeTarget, s.writeReg_ctrl hsrst]
        exact ⟨w.getLsbD 0, s.status, s.draws, _, rfl⟩
      · exact ⟨s.irqEn, (s.acknowledge w).status, s.draws, _, rfl⟩

theorem State.foldl_transact_busy_eq_withPort {s : State} (hb : s.busy = true) {rs : List Request}
    (hrs : ∀ r ∈ rs, r.noSoftReset = true) :
    ∃ q st d p, rs.foldl State.transact s = s.withPort q st d p := by
  induction rs generalizing s with
  | nil => exact ⟨s.irqEn, s.status, s.draws, s.resp, rfl⟩
  | cons r rest ih =>
    obtain ⟨q, st, d, p, he⟩ := s.transact_busy_eq_withPort hb (hrs r List.mem_cons_self)
    have hb' : (s.transact r).busy = true := by rw [he]; exact hb
    obtain ⟨q', st', d', p', he'⟩ := ih hb' fun v hv => hrs v (List.mem_cons_of_mem r hv)
    exact ⟨q', st', d', p', by rw [List.foldl_cons, he', he]; rfl⟩

/-! ## No command reads what the port can change -/

section

variable (s : State) (q : Bool) (st : Status) (d : Nat) (p : Option Response)

theorem State.fillWrites_withPort : (s.withPort q st d p).fillWrites = s.fillWrites := rfl

theorem State.dequantWrites_withPort : (s.withPort q st d p).dequantWrites = s.dequantWrites := by
  simp only [State.dequantWrites, State.fillWrites_withPort]
  rfl

theorem State.dctWrites_withPort (c : Channel) (nx ny : Nat) :
    (s.withPort q st d p).dctWrites c nx ny = s.dctWrites c nx ny := rfl

theorem State.hashCheck_withPort : (s.withPort q st d p).hashCheck = s.hashCheck := rfl

/-- Each check and each output is the same in both states. The lists of writes that DCT_FWD and DEQUANT make are
variables here, so that `rfl` does not run them. -/
theorem runUnit_withPort (u : UnitCmd) :
    runUnit u (s.withPort q st d p) = (runUnit u s).map (·.withPort q st d p) := by
  cases u with
  | cscFwd => simp only [runUnit, unitCscFwd, apply_ite (Except.map _)]; rfl
  | dctFwd c nx ny =>
    simp only [runUnit, unitDctFwd, apply_ite (Except.map _), s.dctWrites_withPort]
    generalize s.dctWrites c nx.toNat ny.toNat = ws
    rfl
  | quant => simp only [runUnit, unitQuant, apply_ite (Except.map _)]; rfl
  | pack => simp only [runUnit, unitPack, apply_ite (Except.map _)]; rfl
  | unpack =>
    rw [runUnit, unitUnpack, runUnit, unitUnpack, s.hashCheck_withPort]
    cases s.hashCheck <;> rfl
  | dequant =>
    simp only [runUnit, unitDequant, apply_ite (Except.map _), s.dequantWrites_withPort]
    generalize s.dequantWrites = ws
    rfl
  | size => simp only [runUnit, unitSize, apply_ite (Except.map _)]; rfl
  | dctInv c => simp only [runUnit, unitDctInv, apply_ite (Except.map _)]; rfl
  | cscInv => simp only [runUnit, unitCscInv, apply_ite (Except.map _)]; rfl

theorem runUnits_withPort (us : List UnitCmd) :
    runUnits us (s.withPort q st d p) = (runUnits us s).map (·.withPort q st d p) := by
  induction us generalizing s with
  | nil => rfl
  | cons u rest ih =>
    rw [runUnits, runUnits, runUnit_withPort]
    cases runUnit u s with
    | error e => rfl
    | ok t => exact ih t

theorem unitEncode_withPort : unitEncode (s.withPort q st d p) = (unitEncode s).map (·.withPort q st d p) := by
  simp only [unitEncode, apply_ite (Except.map _), runUnit_withPort]
  cases runUnit .cscFwd s with
  | error e => rfl
  | ok t =>
    rw [← runUnits_withPort]
    rfl

theorem unitDecode_withPort : unitDecode (s.withPort q st d p) = (unitDecode s).map (·.withPort q st d p) := by
  rw [unitDecode, unitDecode, s.hashCheck_withPort]
  cases s.hashCheck with
  | some e => rfl
  | none =>
    simp only [apply_ite (Except.map _), runUnit_withPort]
    cases runUnit .unpack s with
    | error e => rfl
    | ok t =>
      rw [← runUnits_withPort]
      rfl

theorem commandResult_withPort (i : Instr) :
    commandResult i (s.withPort q st d p) = (commandResult i s).map (·.withPort q st d p) := by
  cases i with
  | nop => rfl
  | encode => exact unitEncode_withPort s q st d p
  | decode => exact unitDecode_withPort s q st d p
  | cscFwd => exact runUnit_withPort s q st d p .cscFwd
  | dctFwd c nx ny => exact runUnit_withPort s q st d p (.dctFwd c _ _)
  | quant => exact runUnit_withPort s q st d p .quant
  | pack => exact runUnit_withPort s q st d p .pack
  | unpack => exact runUnit_withPort s q st d p .unpack
  | dequant => exact runUnit_withPort s q st d p .dequant
  | size => exact runUnit_withPort s q st d p .size
  | dctInv c => exact runUnit_withPort s q st d p (.dctInv c)
  | cscInv => exact runUnit_withPort s q st d p .cscInv

/-- Completion sets STATUS anew, so that the command's end differs in the other three fields only. -/
theorem State.complete_withPort (r : Except CmdError State) :
    (s.withPort q st d p).complete (r.map (·.withPort q st d p)) =
      { s.complete r with irqEn := q, draws := d, resp := p } := by
  cases r <;> rfl

end

end Sys2Proof.Machine

namespace Sys2Proof

open Machine

/-- Settles O48, by which targets are readable and which writable while BUSY = 1. -/
theorem busyAccess : Obligations.BusyAccess := by
  intro s a t w hbusy ht
  refine ⟨fun r hr hmem => ?_, fun hnot => ?_, fun hctrl => ?_, fun hstatus => ?_, fun hctrl hstatus => ?_⟩
  · have hread := Target.readableBusy_iff.2 ⟨r, hr, hmem⟩
    subst hr
    exact State.transact_read ht (.inr hread)
  · refine State.transact_read_busy ht hbusy (Bool.eq_false_iff.2 fun hread => ?_)
    obtain ⟨r, hr, hmem⟩ := Target.readableBusy_iff.1 hread
    exact hnot r hr hmem
  · subst hctrl
    exact State.transact_write ht (.inr rfl) w
  · subst hstatus
    exact State.transact_write ht (.inr rfl) w
  · refine State.transact_write_busy ht hbusy (Bool.eq_false_iff.2 fun hwrite => ?_) w
    exact (Target.writableBusy_iff.1 hwrite).elim hctrl hstatus

/-- Settles O10: the port changes IRQ_EN, STATUS, the count of draws and its answer, which no command reads, and
of which completion sets STATUS anew. -/
theorem pendingCommandIsUndisturbed : Obligations.PendingCommandIsUndisturbed := by
  intro s t i rs hbusy hrs hexec
  obtain ⟨q, st, d, p, hport⟩ := State.foldl_transact_busy_eq_withPort hbusy hrs
  rw [exec_eq] at hexec
  cases hexec
  refine ⟨_, by rw [hport, exec_eq, commandResult_withPort, State.complete_withPort], rfl⟩

end Sys2Proof
end

section
/-! PROOF. The words that the registers and the size word of a record read as, from their fields (10_state.md R31 to
R45, R50, R54; 20_memory.md R72, R80). -/

namespace Sys2Proof.Machine

/-! ## Fields at their bits -/

/-- Two fields side by side: the upper one counts from the width of the lower one. -/
theorem toNat_append_eq_add {m n : Nat} (x : BitVec m) (y : BitVec n) :
    (x ++ y).toNat = x.toNat * 2 ^ n + y.toNat := by
  rw [BitVec.toNat_append, ← Nat.shiftLeft_add_eq_or_of_lt y.isLt, Nat.shiftLeft_eq]

theorem toNat_bit (b : Bool) : (bit b).toNat = b.toNat := by
  cases b <;> rfl

theorem State.statusWord_toNat (s : State) : s.statusWord.toNat =
    s.busy.toNat + s.status.done.toNat * 2 + s.status.err.toNat * 2 ^ 2 + s.status.errCode.toNat * 2 ^ 4 := by
  simp only [State.statusWord, toNat_append_eq_add, toNat_bit, BitVec.toNat_ofNat]
  omega

theorem State.ctrlWord_toNat (s : State) : s.ctrlWord.toNat = s.irqEn.toNat := by
  simp only [State.ctrlWord, toNat_append_eq_add, toNat_bit, BitVec.toNat_ofNat]
  omega

theorem Dim.toWord_toNat (d : Dim) : d.toWord.toNat = d.w.toNat + d.h.toNat * 2 ^ 16 := by
  rw [Dim.toWord, toNat_append_eq_add, Nat.add_comm]

theorem Lext.toWord_toNat (e : Lext) : e.toWord.toNat =
    e.lx.toNat + e.ly.toNat * 2 ^ 4 + e.hasAlpha.toNat * 2 ^ 8 + e.landscape.toNat * 2 ^ 9 := by
  simp only [Lext.toWord, toNat_append_eq_add, toNat_bit, BitVec.toNat_ofNat]
  omega

theorem Ext.toWord_toNat (e : Ext) :
    e.toWord.toNat = e.nx.toNat + e.ny.toNat * 2 ^ 4 + e.nac.toNat * 2 ^ 8 := by
  simp only [Ext.toWord, toNat_append_eq_add, BitVec.toNat_ofNat]
  omega

theorem cfgWord_toNat (p : Params) : p.cfgWord.toNat =
    (if p.floor = .one then 1 else 3) + (if p.pixConv = .trunc then 0 else 1) * 2 ^ 4 +
      (if p.gain = .unit then 0 else 1) * 2 ^ 5 + 128 * 2 ^ 8 := by
  obtain ⟨floor, pixConv, gain⟩ := p
  cases floor <;> cases pixConv <;> cases gain <;> rfl

/-! ## The registers -/

/-- The registers in the order of their offsets. -/
def Reg.all : List Reg :=
  [.id, .cfg, .ctrl, .cmd, .status, .imgDim, .inLen, .hashLen, .outBase, .outDim, .lext, .hdr24, .hdr16, .hdr8,
    .nibCount]

/-- The number a register's word stands for, each field at its lowest bit (20_memory.md R72). -/
def State.regValue (s : State) : Reg → Nat
  | .id => 0x54480007
  | .cfg => (if s.params.floor = .one then 1 else 3) + (if s.params.pixConv = .trunc then 0 else 1) * 2 ^ 4 +
      (if s.params.gain = .unit then 0 else 1) * 2 ^ 5 + 128 * 2 ^ 8
  | .ctrl => s.irqEn.toNat
  | .cmd => s.cmd.toNat
  | .status => s.busy.toNat + s.status.done.toNat * 2 + s.status.err.toNat * 2 ^ 2 +
      s.status.errCode.toNat * 2 ^ 4
  | .imgDim => s.imgDim.w.toNat + s.imgDim.h.toNat * 2 ^ 16
  | .inLen => s.inLen.toNat
  | .hashLen => s.hashLen.toNat
  | .outBase => s.outBase.toNat
  | .outDim => s.outDim.w.toNat + s.outDim.h.toNat * 2 ^ 16
  | .lext => s.lext.lx.toNat + s.lext.ly.toNat * 2 ^ 4 + s.lext.hasAlpha.toNat * 2 ^ 8 +
      s.lext.landscape.toNat * 2 ^ 9
  | .hdr24 => s.hdr24.toNat
  | .hdr16 => s.hdr16.toNat
  | .hdr8 => s.hdr8.toNat
  | .nibCount => s.nibCount.toNat

theorem State.readReg_toNat (s : State) (r : Reg) : (s.readReg r).toNat = s.regValue r := by
  cases r with
  | cfg => exact cfgWord_toNat s.params
  | ctrl => exact s.ctrlWord_toNat
  | status => exact s.statusWord_toNat
  | imgDim => exact s.imgDim.toWord_toNat
  | outDim => exact s.outDim.toWord_toNat
  | lext => exact s.lext.toWord_toNat
  | hashLen | outBase | hdr24 | hdr16 | hdr8 | nibCount => exact BitVec.toNat_setWidth_of_le (by decide)
  | id | cmd | inLen => rfl

theorem State.readReg_eq_ofNat (s : State) (r : Reg) : s.readReg r = BitVec.ofNat 32 (s.regValue r) := by
  rw [← s.readReg_toNat, BitVec.ofNat_toNat, BitVec.setWidth_eq]

/-- The first five registers are those that read as they are while BUSY = 1. -/
theorem readableBusy_reg_iff (r : Reg) : (Target.reg r).readableBusy = true ↔ r.addr.toNat < 0x14 := by
  cases r <;> decide

/-! ## The size word of a record -/

/-- The bus address of the size word of a record (20_memory.md R80). -/
def sizeAddr (c : Channel) : Addr := BitVec.ofNat 20 (0x410 + 0x100 * chanIndex c)

theorem reached_sizeAddr (c : Channel) : reached (sizeAddr c) = some (.size c) := by
  cases c <;> decide

theorem PerChannel.get_set {α : Type} (v : PerChannel α) (c : Channel) (x : α) : (v.set c x).get c = x := by
  cases c <;> rfl

/-- The size word of a record whose extents are from 1 to 7. -/
theorem Ext.toWord_of_pos {e : Ext} (hx : 1 ≤ e.nx.toNat) (hy : 1 ≤ e.ny.toNat) :
    e.toWord = BitVec.ofNat 32
      (e.nx.toNat + e.ny.toNat * 2 ^ 4 + countAc e.nx.toNat e.ny.toNat * 2 ^ 8) := by
  have hnx : e.nx ≠ 0 := fun h => by simp [h] at hx
  have hny : e.ny ≠ 0 := fun h => by simp [h] at hy
  rw [← Ext.nac_toNat hnx hny, ← e.toWord_toNat, BitVec.ofNat_toNat, BitVec.setWidth_eq]

/-- After reset, and wherever both extents are 0, the size word is 0. -/
theorem Ext.toWord_of_zero {e : Ext} (hx : e.nx.toNat = 0) (hy : e.ny.toNat = 0) : e.toWord = 0 := by
  obtain ⟨nx, ny⟩ := e
  obtain rfl : nx = 0 := BitVec.eq_of_toNat_eq hx
  obtain rfl : ny = 0 := BitVec.eq_of_toNat_eq hy
  rfl

end Sys2Proof.Machine

namespace Sys2Proof

open Machine

/-- Settles O57: the list pairs each register's address with the number its word stands for. -/
theorem registersReadTheirFields : Obligations.RegistersReadTheirFields := by
  intro s p hp hbusy
  have hmem : p ∈ Reg.all.map fun r => (r.addr, s.regValue r) := hp
  obtain ⟨r, -, rfl⟩ := List.mem_map.1 hmem
  rw [State.transact_read (reached_addr r) (hbusy.imp_right (readableBusy_reg_iff r).2), State.readTarget,
    s.readReg_eq_ofNat]
  rfl

/-- Settles O53: the write puts the two extents into the record, and the word read back follows from them. -/
theorem recordSizeWord : Obligations.RecordSizeWord := by
  intro s c w hidle
  have hwrite := State.transact_write (reached_sizeAddr c) (.inl hidle) w
  have hext : (s.transact (.write (sizeAddr c) w)).ext.get c = Ext.ofWord w := by
    rw [hwrite]
    exact s.ext.get_set c _
  have hread : ((s.transact (.write (sizeAddr c) w)).transact (.read (sizeAddr c))).resp =
      some ⟨some (Ext.ofWord w).toWord, .okay⟩ := by
    have hidle' : (s.transact (.write (sizeAddr c) w)).busy = false := by rw [hwrite]; exact hidle
    rw [State.transact_read (reached_sizeAddr c) (.inl hidle'), State.readTarget, hext]
    rfl
  refine ⟨_, rfl, ?_, ?_, ?_, fun hx hy => ?_, fun hx hy => ?_⟩
  · rw [show BitVec.ofNat 20 _ = sizeAddr c from rfl, hext, hwrite]
    rfl
  · exact congrArg (fun e : Ext => e.nx.toNat) hext
  · exact congrArg (fun e : Ext => e.ny.toNat) hext
  · exact hread.trans (by rw [Ext.toWord_of_pos hx hy]; rfl)
  · exact hread.trans (by rw [Ext.toWord_of_zero hx hy])

end Sys2Proof
end

section
/-! PROOF. Words of the stores at the host port: what a written word makes every byte and every word read as
(20_memory.md R73, R78 to R82), and the two words of a binary64 element (R74). -/

namespace Sys2Proof.Machine

/-! ## A written word -/

/-- The one law of a word write. -/
theorem State.byte_putWord (s : State) (a : Nat) (w : Word) (x : Nat) :
    State.byte { s with mem := s.mem.putWord a w } x =
      if a ≤ x ∧ x < a + 4 then maskAt x (byteOf32 w (x - a)) else s.byte x := by
  rw [Memory.putWord_eq]
  split
  · next hx =>
    refine State.byte_putBytes_of_mem s ?_ (List.mem_map.2 ⟨x - a, List.mem_range.2 (by omega), ?_⟩)
    · rw [List.map_map]
      exact List.nodup_range.map fun i j hij => Nat.add_left_cancel hij
    · rw [Nat.add_sub_cancel' hx.1]
  · next hx =>
    refine State.byte_putBytes_of_not_mem s fun v hv he => hx ?_
    obtain ⟨i, hi, rfl⟩ := List.mem_map.1 hv
    have := List.mem_range.1 hi
    omega

/-- A word is what its four bytes are. -/
theorem State.word_eq_of_byteOf32 {s : State} {a : Nat} {x : Word} (h : ∀ i, i < 4 → s.byte (a + i) = byteOf32 x i) :
    s.word a = x := by
  have h0 := h 0 (by omega)
  rw [Nat.add_zero] at h0
  rw [State.word, h0, h 1 (by omega), h 2 (by omega), h 3 (by omega)]
  exact word_of_bytes x

theorem State.word_eq_of_bytes {s t : State} {a : Nat} (h : ∀ i, i < 4 → t.byte (a + i) = s.byte (a + i)) :
    t.word a = s.word a := by
  have h0 := h 0 (by omega)
  rw [Nat.add_zero] at h0
  rw [State.word, State.word, h0, h 1 (by omega), h 2 (by omega), h 3 (by omega)]

/-- The bits of a bus word that exist at an aligned address: in NIB the low four of each byte (20_memory.md
R79). -/
def storedWord (a : Nat) (w : Word) : Word := if 0x200 ≤ a ∧ a < 0x240 then w &&& 0x0F0F0F0F else w

theorem storedWord_of_le {a : Nat} (h : 0x240 ≤ a) (w : Word) : storedWord a w = w :=
  if_neg (by omega)

/-- Masking a word masks each of its bytes. -/
theorem byteOf32_and_nibbles (w : Word) {i : Nat} (hi : i < 4) :
    byteOf32 (w &&& 0x0F0F0F0F) i = byteOf32 w i &&& 0x0F := by
  rw [byteOf32, BitVec.extractLsb'_and]
  interval_cases i <;> rfl

/-- An aligned word lies in NIB or outside it. -/
theorem maskAt_byteOf32 {a i : Nat} (h4 : a % 4 = 0) (hi : i < 4) (w : Word) :
    maskAt (a + i) (byteOf32 w i) = byteOf32 (storedWord a w) i := by
  have hnib : inNib (a + i) = decide (0x200 ≤ a ∧ a < 0x240) :=
    decide_eq_decide.2 (by simp only [nibBase]; omega)
  rw [maskAt, storedWord, hnib]
  by_cases h : 0x200 ≤ a ∧ a < 0x240
  · rw [if_pos h, if_pos (decide_eq_true h)]
    exact (byteOf32_and_nibbles w hi).symm
  · rw [if_neg h, if_neg (by simpa using h)]

theorem State.byte_putWord_same (s : State) {a i : Nat} (h4 : a % 4 = 0) (hi : i < 4) (w : Word) :
    State.byte { s with mem := s.mem.putWord a w } (a + i) = byteOf32 (storedWord a w) i := by
  rw [State.byte_putWord, if_pos (by omega), Nat.add_sub_cancel_left, maskAt_byteOf32 h4 hi]

/-- An aligned word reads back, with the bits that exist at its address. -/
theorem State.word_putWord_same (s : State) {a : Nat} (h4 : a % 4 = 0) (w : Word) :
    State.word { s with mem := s.mem.putWord a w } a = storedWord a w :=
  State.word_eq_of_byteOf32 fun _ hi => s.byte_putWord_same h4 hi w

/-- A word that shares no byte with the written one reads as before. -/
theorem State.word_putWord_of_apart (s : State) {a b : Nat} (h : a + 4 ≤ b ∨ b + 4 ≤ a) (w : Word) :
    State.word { s with mem := s.mem.putWord a w } b = s.word b :=
  State.word_eq_of_bytes fun i hi => by rw [State.byte_putWord, if_neg (by omega)]

/-! ## A store word at the port -/

@[simp] theorem State.answer_word (s : State) (p : Response) (a : Nat) : (s.answer p).word a = s.word a := rfl

theorem State.transact_write_store {s : State} (hs : s.busy = false) {a : Addr} (ha : reached a = some .store)
    (w : Word) :
    s.transact (.write a w) = { s with mem := s.mem.putWord a.toNat w }.answer ⟨none, .okay⟩ :=
  State.transact_write ha (.inl hs) w

theorem State.resp_read_store {s : State} (hs : s.busy = false) {a : Addr} (ha : reached a = some .store) :
    (s.transact (.read a)).resp = some ⟨some (s.word a.toNat), .okay⟩ :=
  congrArg State.resp (State.transact_read ha (.inl hs))

/-! ## The two words of a binary64 element -/

/-- The low word stands at the lower address (20_memory.md R74). -/
theorem State.f64_bits (s : State) (a : Nat) : (s.f64 a).bits = s.word (a + 4) ++ s.word a := rfl

/-- A binary64 element at the host port: eight bytes of one store, outside NIB, at an address that is a multiple
of 8. -/
structure ElementAddr (a : Nat) : Prop where
  aligned : a % 8 = 0
  above : 0x240 ≤ a
  below : a + 4 < 2 ^ 20
  low : inStore a = true
  high : inStore (a + 4) = true

/-- Every element of a plane stands at such an address (20_memory.md R82). -/
theorem elementAddr_plane (c : Channel) {x y : Nat} (hx : x < 128) (hy : y < 128) :
    ElementAddr (planeAddr c x y) := by
  have hb := planeAddr_bounds c hx hy
  refine ⟨?_, ?_, ?_, inStore_plane c hx hy (i := 0) (by omega), inStore_plane c hx hy (by omega)⟩
  · simp only [planeAddr, planeBase]; omega
  · simp only [planeBase] at hb; omega
  · simp only [planeBase] at hb; omega

/-- So do DC, SCALE and every AC of a record (20_memory.md R80). -/
theorem elementAddr_record (c : Channel) {o : Nat} (h8 : o % 8 = 0) (h : o < 0x10 ∨ (0x20 ≤ o ∧ o < 0xF8)) :
    ElementAddr (recordAddr c + o) := by
  have hc := chanIndex_lt c
  refine ⟨?_, ?_, ?_, inStore_record c h, inStore_record c (o := o + 4) (by omega)⟩ <;>
    simp only [recordAddr, coefBase] <;> omega

section

variable {a : Nat} (ha : ElementAddr a)
include ha

theorem ElementAddr.toNat_low : (BitVec.ofNat 20 a : Addr).toNat = a :=
  Nat.mod_eq_of_lt (by have := ha.below; omega)

theorem ElementAddr.toNat_high : (BitVec.ofNat 20 a + 4 : Addr).toNat = a + 4 := by
  rw [BitVec.toNat_add, ha.toNat_low]
  exact Nat.mod_eq_of_lt ha.below

theorem ElementAddr.reached_low : reached (BitVec.ofNat 20 a) = some .store := by
  rw [reached_store_iff, ha.toNat_low]
  exact ⟨by have := ha.aligned; omega, ha.low⟩

theorem ElementAddr.reached_high : reached (BitVec.ofNat 20 a + 4) = some .store := by
  rw [reached_store_iff, ha.toNat_high]
  exact ⟨by have := ha.aligned; omega, ha.high⟩

/-- What the host's two words of an element do and give. -/
theorem ElementAddr.words {s : State} (hs : s.busy = false) (w : Word) :
    let lo : Addr := BitVec.ofNat 20 a
    ((s.transact (.write lo w)).f64 a).bits = (s.f64 a).bits.extractLsb' 32 32 ++ w ∧
    ((s.transact (.write (lo + 4) w)).f64 a).bits = w ++ (s.f64 a).bits.extractLsb' 0 32 ∧
    (s.transact (.read lo)).resp = some ⟨some ((s.f64 a).bits.extractLsb' 0 32), .okay⟩ ∧
    (s.transact (.read (lo + 4))).resp = some ⟨some ((s.f64 a).bits.extractLsb' 32 32), .okay⟩ := by
  have h8 := ha.aligned
  have hhi : (s.f64 a).bits.extractLsb' 32 32 = s.word (a + 4) := BitVec.extractLsb'_append_eq_left
  have hlo : (s.f64 a).bits.extractLsb' 0 32 = s.word a := BitVec.extractLsb'_append_eq_right
  intro lo
  rw [hhi, hlo]
  refine ⟨?_, ?_, ?_, ?_⟩
  · rw [State.transact_write_store hs ha.reached_low, ha.toNat_low, State.answer_f64, State.f64_bits,
      State.word_putWord_of_apart s (by omega), State.word_putWord_same s (by omega),
      storedWord_of_le ha.above]
  · rw [State.transact_write_store hs ha.reached_high, ha.toNat_high, State.answer_f64, State.f64_bits,
      State.word_putWord_same s (by omega), State.word_putWord_of_apart s (by omega),
      storedWord_of_le (by have := ha.above; omega)]
  · rw [State.resp_read_store hs ha.reached_low, ha.toNat_low]
  · rw [State.resp_read_store hs ha.reached_high, ha.toNat_high]

end

end Sys2Proof.Machine

namespace Sys2Proof

open Machine

/-- Settles O51, by the law of a word write on an aligned word of a store. -/
theorem storeWordReadsBack : Obligations.StoreWordReadsBack := by
  intro s a w hidle ha
  obtain ⟨h4, -⟩ := reached_store ha
  refine ⟨_, State.transact_write_store hidle ha w, rfl, fun j hj => ?_, fun x hx => ?_, ?_⟩
  · rw [State.answer_byte, s.byte_putWord_same h4 hj, storedWord]
    split
    · exact byteOf32_and_nibbles w hj
    · rfl
  · rw [State.answer_byte, State.byte_putWord, if_neg hx]
  · rw [State.resp_read_store _ ha]
    · rw [State.answer_word, s.word_putWord_same h4]
      rfl
    · exact hidle

/-- Settles O52: each kind of element stands in two aligned words of one store. -/
theorem binary64InTwoWords : Obligations.Binary64InTwoWords := by
  rintro s c a e w hidle (⟨x, y, hx, hy, rfl, rfl⟩ | ⟨rfl, rfl⟩ | ⟨rfl, rfl⟩ | ⟨j, hj, rfl, rfl⟩)
  · exact (elementAddr_plane c hx hy).words hidle w
  · exact (elementAddr_record c (o := 0) (by decide) (by decide)).words hidle w
  · have haddr : 0x408 + 0x100 * chanIndex c = scaleAddr c := by
      simp only [scaleAddr, recordAddr, coefBase]; omega
    rw [haddr]
    exact (elementAddr_record c (o := 8) (by decide) (by decide)).words hidle w
  · have haddr : 0x420 + 0x100 * chanIndex c + 8 * j = acAddr c j := by
      simp only [acAddr, recordAddr, coefBase]; omega
    have hel : ElementAddr (acAddr c j) := by
      have := elementAddr_record c (o := 0x20 + 8 * j) (by omega) (by omega)
      rwa [← Nat.add_assoc] at this
    rw [haddr]
    exact hel.words hidle w

end Sys2Proof
end

section
/-! PROOF. The command word (30_encoding.md R100 to R105). A word decodes to a command exactly when its OP is the
command's, the operands are its fields and no other bit is set. Those are the words that the encoder writes, and
the ones that the masks of the opcode table and the procedure of R104 accept. -/

namespace Sys2Proof

open Machine

/-! ## The fields of a word (30_encoding.md R100) -/

theorem reservedClear_iff {w : Word} :
    reservedClear w = true ↔
      w.extractLsb' 10 2 = 0 ∧ w.extractLsb' 15 1 = 0 ∧ w.extractLsb' 19 13 = 0 := by
  simp only [reservedClear, Bool.and_eq_true, beq_iff_eq, and_assoc]

theorem unreadClear_iff {readsCh readsExt : Bool} {w : Word} :
    unreadClear readsCh readsExt w = true ↔
      (readsCh = false → chField w = 0) ∧ (readsExt = false → nxField w = 0 ∧ nyField w = 0) := by
  cases readsCh <;> cases readsExt <;> simp [unreadClear]

/-- A word is its seven bit ranges in order. -/
theorem append_ranges (w : Word) :
    (w.extractLsb' 19 13 ++ nyField w) ++ (w.extractLsb' 15 1 ++ nxField w) ++
      ((w.extractLsb' 10 2 ++ chField w) ++ opField w) = w := by
  ext
  grind [nyField, nxField, chField, opField]

/-- A word with no reserved bit set is the command word of its fields. -/
theorem commandWord_fields {w : Word} (h : reservedClear w = true) :
    commandWord (opField w) (chField w) (nxField w) (nyField w) = w := by
  obtain ⟨h10, h15, h19⟩ := reservedClear_iff.1 h
  have hw := append_ranges w
  rwa [h10, h15, h19] at hw

section

variable (op : BitVec 8) (ch : BitVec 2) (nx ny : BitVec 3)

@[simp] theorem opField_commandWord : opField (commandWord op ch nx ny) = op := by
  ext; grind [commandWord, opField]

@[simp] theorem chField_commandWord : chField (commandWord op ch nx ny) = ch := by
  ext; grind [commandWord, chField]

@[simp] theorem nxField_commandWord : nxField (commandWord op ch nx ny) = nx := by
  ext; grind [commandWord, nxField]

@[simp] theorem nyField_commandWord : nyField (commandWord op ch nx ny) = ny := by
  ext; grind [commandWord, nyField]

@[simp] theorem reservedClear_commandWord : reservedClear (commandWord op ch nx ny) = true := by
  refine reservedClear_iff.2 ⟨?_, ?_, ?_⟩ <;> (ext; grind [commandWord])

/-- The command word of four fields is the one word that has them and no reserved bit. -/
theorem eq_commandWord_iff {w : Word} :
    w = commandWord op ch nx ny ↔
      opField w = op ∧ reservedClear w = true ∧ chField w = ch ∧ nxField w = nx ∧ nyField w = ny := by
  constructor
  · rintro rfl
    simp
  · rintro ⟨rfl, hres, rfl, rfl, rfl⟩
    exact (commandWord_fields hres).symm

theorem setWidth_eq_commandWord : op.setWidth 32 = commandWord op 0 0 0 := by
  ext; grind [commandWord]

end

/-! ## What each command reads of its word (30_encoding.md R101, R102) -/

/-- The command reads CH. -/
def Instr.readsCh : Instr → Bool
  | .dctFwd _ _ _ | .dctInv _ => true
  | _ => false

/-- The command reads NX and NY. -/
def Instr.readsExt : Instr → Bool
  | .dctFwd _ _ _ => true
  | _ => false

/-- The command with the operands that the fields of a word give it. -/
def Instr.withFields (w : Word) : Instr → Instr
  | .dctFwd _ _ _ => .dctFwd (Channel.ofField (chField w)) (nxField w).toNat (nyField w).toNat
  | .dctInv _ => .dctInv (Channel.ofField (chField w))
  | i => i

@[simp] theorem Channel.field_ofField (b : BitVec 2) : (Channel.ofField b).field = b := by
  revert b; decide

@[simp] theorem Channel.ofField_field (c : Channel) : Channel.ofField c.field = c := by
  cases c <;> rfl

theorem chanIndex_ofField (b : BitVec 2) : chanIndex (Channel.ofField b) = b.toNat := by
  revert b; decide

theorem fitsExtentField_toNat (b : BitVec 3) : fitsExtentField b.toNat = true :=
  decide_eq_true (Nat.le_of_lt_succ b.isLt)

theorem toNat_ofNat_of_fits {n : Nat} (h : fitsExtentField n = true) : (BitVec.ofNat 3 n).toNat = n :=
  Nat.mod_eq_of_lt (Nat.lt_succ_of_le (of_decide_eq_true h))

/-! ## The words of a command -/

/-- The word has the command's OP, and beside it no bit set that the command does not read (30_encoding.md
R103). -/
structure Instr.Accepts (i : Instr) (w : Word) : Prop where
  op : opField w = opOf i
  reserved : reservedClear w = true
  unread : unreadClear i.readsCh i.readsExt w = true

theorem accepts_iff {i : Instr} {w : Word} :
    i.Accepts w ↔
      opField w = opOf i ∧ reservedClear w = true ∧ unreadClear i.readsCh i.readsExt w = true :=
  ⟨fun h => ⟨h.op, h.reserved, h.unread⟩, fun ⟨hop, hres, hun⟩ => ⟨hop, hres, hun⟩⟩

theorem wf_withFields (i : Instr) (w : Word) : (i.withFields w).wf = true := by
  cases i with
  | dctFwd => simp [Instr.withFields, Instr.wf, fitsExtentField_toNat]
  | _ => rfl

/-- The encoder writes a word of the command. -/
theorem accepts_encode (i : Instr) : i.Accepts (encode i) := by
  refine accepts_iff.2 ?_
  cases i <;> simp [encode, unreadClear_iff, Instr.readsCh, Instr.readsExt]

/-- From that word the command's operands come back. -/
theorem withFields_encode {i : Instr} (h : i.wf = true) : i.withFields (encode i) = i := by
  cases i with
  | dctFwd ch nx ny =>
    obtain ⟨hnx, hny⟩ := Bool.and_eq_true_iff.1 h
    simp only [Instr.withFields, encode, chField_commandWord, nxField_commandWord, nyField_commandWord,
      Channel.ofField_field, toNat_ofNat_of_fits hnx, toNat_ofNat_of_fits hny]
  | dctInv ch => simp [Instr.withFields, encode]
  | _ => rfl

/-- The operands of a word, encoded, stand in the fields that they came from. -/
theorem encode_withFields (i : Instr) (w : Word) :
    encode (i.withFields w) =
      commandWord (opOf i) (if i.readsCh then chField w else 0) (if i.readsExt then nxField w else 0)
        (if i.readsExt then nyField w else 0) := by
  cases i <;> simp [encode, opOf, Instr.withFields, Instr.readsCh, Instr.readsExt]

/-- A word of the command is the one of the operands that it gives. -/
theorem encode_withFields_of_accepts {i : Instr} {w : Word} (h : i.Accepts w) :
    encode (i.withFields w) = w := by
  obtain ⟨hch, hext⟩ := unreadClear_iff.1 h.unread
  rw [encode_withFields, eq_comm, eq_commandWord_iff]
  refine ⟨h.op, h.reserved, ?_, ?_, ?_⟩ <;> grind

/-! ## The decoder -/

theorem opRow_of_opField {w : Word} {i : Instr} (h : opField w = opOf i) :
    opRow w = some (i.withFields w, i.readsCh, i.readsExt) := by
  cases i <;> simp [opRow, h, opOf, Instr.withFields, Instr.readsCh, Instr.readsExt]

/-- The row that the decoder finds is one of the word's OP. -/
theorem opField_of_opRow {w : Word} {i : Instr} {readsCh readsExt : Bool}
    (h : opRow w = some (i, readsCh, readsExt)) : opField w = opOf i := by
  simp only [opRow] at h
  split at h <;> cases h <;> exact BitVec.eq_of_toNat_eq (by assumption)

/-- A word of the command decodes to it, with the operands of its fields. -/
theorem decodeWord_of_accepts {i : Instr} {w : Word} (h : i.Accepts w) :
    decodeWord w = .ok (i.withFields w) := by
  simp [decodeWord, opRow_of_opField h.op, h.reserved, h.unread]

/-- Only those words decode to a command. -/
theorem accepts_of_decodeWord {w : Word} {i : Instr} (h : decodeWord w = .ok i) :
    i.Accepts w ∧ i.withFields w = i := by
  rw [decodeWord] at h
  split at h
  case h_1 => cases h
  case h_2 j rc re hrow =>
    have hop := opField_of_opRow hrow
    rw [opRow_of_opField hop] at hrow
    obtain ⟨hj, rfl, rfl⟩ : j.withFields w = j ∧ j.readsCh = rc ∧ j.readsExt = re := by
      simpa using hrow
    split_ifs at h with hres hun
    cases h
    exact ⟨⟨hop, by simpa using hres, by simpa using hun⟩, hj⟩

/-! ## The procedure and the opcode table (30_encoding.md R104) -/

theorem and_of_eq_allOnes {n : Nat} {x m : BitVec n} (h : m = BitVec.allOnes n) : x &&& m = x :=
  h ▸ BitVec.and_allOnes

/-- The bits beside OP that a command which reads CH, or NX and NY, leaves free. -/
def freeBits (readsCh readsExt : Bool) : Word :=
  if readsCh then (if readsExt then 0x77300 else 0x300) else (if readsExt then 0x77000 else 0)

section

variable (readsCh readsExt : Bool) (w : Word)

theorem and_not_freeBits_eq_op_iff (op : BitVec 8) :
    w &&& ~~~freeBits readsCh readsExt = op.setWidth 32 ↔
      opField w = op ∧ reservedClear w = true ∧ unreadClear readsCh readsExt w = true := by
  rw [setWidth_eq_commandWord, eq_commandWord_iff]
  cases readsCh <;> cases readsExt <;>
    simp [freeBits, opField, chField, nxField, nyField, unreadClear_iff, reservedClear_iff,
      BitVec.extractLsb'_and, and_of_eq_allOnes]

theorem and_not_freeBits_eq_zero_iff :
    w &&& ~~~freeBits readsCh readsExt &&& 0xFFFFFF00 = 0 ↔
      reservedClear w = true ∧ unreadClear readsCh readsExt w = true := by
  have hzero : (0 : Word) = commandWord 0 0 0 0 := rfl
  rw [hzero, eq_commandWord_iff]
  cases readsCh <;> cases readsExt <;>
    simp [freeBits, opField, chField, nxField, nyField, unreadClear_iff, reservedClear_iff,
      BitVec.extractLsb'_and, and_of_eq_allOnes]

end

/-- The row of a command is its OP and every bit that is not free. -/
theorem tableRow_eq (i : Instr) :
    tableRow i = ⟨(opOf i).setWidth 32, ~~~freeBits i.readsCh i.readsExt⟩ := by
  cases i <;> simp [tableRow, opOf, freeBits, Instr.readsCh, Instr.readsExt]

/-- A word selects a command's row exactly when the command accepts it. -/
theorem selects_tableRow_iff {i : Instr} {w : Word} :
    (tableRow i).selects w = true ↔ i.Accepts w := by
  rw [tableRow_eq, TableRow.selects, beq_iff_eq, and_not_freeBits_eq_op_iff, accepts_iff]

/-- One command for each row of the opcode table, in its order. -/
def tableCommands : List Instr :=
  [.nop, .encode, .decode, .cscFwd, .dctFwd .L 0 0, .quant, .pack, .unpack, .dequant, .size, .dctInv .L,
   .cscInv]

theorem opcodeTable_eq : opcodeTable = tableCommands.map tableRow := rfl

/-- The word of every command selects its row only. -/
theorem selectsRow (i : Instr) : Laws.SelectsRow.Statement i := by
  cases i with
  | nop => exact Laws.SelectsRow.nop
  | encode => exact Laws.SelectsRow.encode
  | decode => exact Laws.SelectsRow.decode
  | cscFwd => exact Laws.SelectsRow.cscFwd
  | dctFwd ch nx ny => exact Laws.SelectsRow.dctFwd ch nx ny
  | quant => exact Laws.SelectsRow.quant
  | pack => exact Laws.SelectsRow.pack
  | unpack => exact Laws.SelectsRow.unpack
  | dequant => exact Laws.SelectsRow.dequant
  | size => exact Laws.SelectsRow.size
  | dctInv ch => exact Laws.SelectsRow.dctInv ch
  | cscInv => exact Laws.SelectsRow.cscInv

/-- The free bits that the procedure finds for an OP. -/
def freeOf (op : BitVec 8) : Option Word :=
  if op = 0x11 then some 0x00077300
  else if op = 0x1B then some 0x00000300
  else if op ∈ [0x00, 0x01, 0x02, 0x10, 0x12, 0x13, 0x18, 0x19, 0x1A, 0x1C] then some 0
  else none

theorem freeOf_opOf (i : Instr) : freeOf (opOf i) = some (freeBits i.readsCh i.readsExt) := by
  cases i <;> rfl

/-- The row of the command, from the OP and the free bits of its words. -/
theorem tableRow_of_accepts {i : Instr} {w f : Word} (h : i.Accepts w) (hf : freeOf (opField w) = some f) :
    tableRow i = ⟨(opField w).setWidth 32, ~~~f⟩ := by
  rw [h.op, freeOf_opOf, Option.some_inj] at hf
  rw [tableRow_eq, hf, h.op]

/-- The procedure finds free bits for OPs of commands only. -/
theorem exists_opOf_of_freeOf {op : BitVec 8} {f : Word} (h : freeOf op = some f) :
    ∃ i, opOf i = op := by
  have hrest : [0x00, 0x01, 0x02, 0x10, 0x12, 0x13, 0x18, 0x19, 0x1A, 0x1C] =
      (tableCommands.filter (!·.readsCh)).map opOf := rfl
  rw [freeOf, hrest] at h
  split_ifs at h with hfwd hinv hop
  · exact ⟨.dctFwd .L 0 0, hfwd.symm⟩
  · exact ⟨.dctInv .L, hinv.symm⟩
  · obtain ⟨i, -, hi⟩ := List.mem_map.1 hop
    exact ⟨i, hi⟩

/-- The procedure calls a word legal exactly when a command accepts it. -/
theorem legal_iff {w : Word} :
    (∃ f, freeOf (opField w) = some f ∧ w &&& ~~~f &&& 0xFFFFFF00 = 0) ↔ ∃ i : Instr, i.Accepts w := by
  constructor
  · rintro ⟨f, hf, hclear⟩
    obtain ⟨i, hi⟩ := exists_opOf_of_freeOf hf
    rw [← hi, freeOf_opOf] at hf
    cases hf
    exact ⟨i, accepts_iff.2 ⟨hi.symm, (and_not_freeBits_eq_zero_iff ..).1 hclear⟩⟩
  · rintro ⟨i, hi⟩
    exact ⟨_, hi.op ▸ freeOf_opOf i, (and_not_freeBits_eq_zero_iff ..).2 ⟨hi.reserved, hi.unread⟩⟩

/-! ## The obligations -/

/-- Settles O1, by evaluation. -/
theorem specWordsDecode : Obligations.SpecWordsDecode := by
  unfold Obligations.SpecWordsDecode
  decide

/-- Settles O2: a command accepts its own word, whose fields give its operands back. -/
theorem decodeOfEncode : Obligations.DecodeOfEncode := by
  intro i hwf
  rw [decodeWord_of_accepts (accepts_encode i), withFields_encode hwf]

/-- Settles O3: the word is one of the command, which has the operands of its fields. -/
theorem encodeOfDecode : Obligations.EncodeOfDecode := by
  intro w i h
  obtain ⟨hacc, hi⟩ := accepts_of_decodeWord h
  rw [← hi]
  exact ⟨encode_withFields_of_accepts hacc, wf_withFields i w⟩

/-- Settles O4: procedure, table and decoder all take the words that a command accepts. -/
theorem decodeFollowsProcedure : Obligations.DecodeFollowsProcedure := by
  intro w op free legal
  have hlegal : legal ↔ ∃ i : Instr, i.Accepts w := legal_iff
  refine ⟨?_, fun hill => List.filter_eq_nil_iff.2 fun r hr hsel => ?_, fun i hi => ?_⟩
  · rw [hlegal]
    exact ⟨fun ⟨i, hi⟩ => ⟨i, (accepts_of_decodeWord hi).1⟩, fun ⟨i, hi⟩ => ⟨_, decodeWord_of_accepts hi⟩⟩
  · obtain ⟨i, -, rfl⟩ := List.mem_map.1 (opcodeTable_eq ▸ hr)
    exact hill (hlegal.2 ⟨i, selects_tableRow_iff.1 hsel⟩)
  · obtain ⟨hacc, hfields⟩ := accepts_of_decodeWord hi
    obtain ⟨hword, -⟩ := encodeOfDecode w i hi
    refine ⟨hacc.op.symm, ?_, ?_, fun f hf => tableRow_of_accepts hacc hf, hword ▸ selectsRow i⟩
    · rintro c nx ny rfl
      cases hfields
      exact ⟨chanIndex_ofField _, rfl, rfl⟩
    · rintro c rfl
      cases hfields
      exact chanIndex_ofField _

end Sys2Proof
end

section
/-! PROOF. What correct rounding gives (00_scope.md R7): a rounded result keeps to the finite values that bound
the exact one, and its error is at most half the spacing of a grid of exact values. -/

namespace Sys2Proof.F64

/-- `2^53` is far below the overflow threshold. -/
theorem two_pow_lt_overflow : (2 : ℚ) ^ 53 < 2 ^ 1024 - 2 ^ 970 := by
  rw [lt_sub_iff_add_lt]
  calc (2 : ℚ) ^ 53 + 2 ^ 970 ≤ 2 ^ 970 + 2 ^ 970 :=
        add_le_add_left (pow_le_pow_right₀ one_le_two (by norm_num)) _
    _ = 2 ^ 971 := by rw [← two_mul, ← pow_succ']
    _ < 2 ^ 1024 := pow_lt_pow_right₀ one_lt_two (by norm_num)

theorem magValue_le_two_pow {g : ℕ} (h : magValue g ≤ 2 ^ 53) : g < infMag := by
  rw [← magValue_lt_iff, magValue_infMag]
  exact h.trans_lt (pow_lt_pow_right₀ one_lt_two (by norm_num))

theorem isFinite_of_abs_value_le {x : F64} (h : |x.value| ≤ 2 ^ 53) : x.isFinite = true :=
  (isFinite_iff x).2 (magValue_le_two_pow (abs_value_eq x ▸ h))

theorem value_zero : zero.value = 0 := (value_eq_zero _).2 (by decide)

theorem isFinite_and_value_one : one.isFinite = true ∧ one.value = 1 :=
  isFinite_and_value_of_fields 2 (by norm_num) (by decide)

theorem isFinite_and_value_twoFiftyFive : twoFiftyFive.isFinite = true ∧ twoFiftyFive.value = 255 :=
  isFinite_and_value_of_fields 510 (by norm_num) (by decide)

section
variable {r : F64} {v : ℚ} (hr : CorrectlyRounds r v)
include hr

/-- Far below the overflow threshold a result is finite. -/
theorem CorrectlyRounds.isFinite (hv : |v| ≤ 2 ^ 53) : r.isFinite = true :=
  hr.1.2 (hv.trans_lt two_pow_lt_overflow)

/-- No finite value is nearer to the exact result. -/
theorem CorrectlyRounds.nearest (hfin : r.isFinite = true) {z : F64} (hz : z.isFinite = true) :
    |r.value - v| ≤ |z.value - v| := (hr.2.2 hfin z hz).1

theorem CorrectlyRounds.value_le (hfin : r.isFinite = true) {z : F64} (hz : z.isFinite = true)
    (hv : v ≤ z.value) : r.value ≤ z.value := by
  have h := hr.nearest hfin hz
  rw [abs_of_nonneg (sub_nonneg.2 hv)] at h
  linarith [le_abs_self (r.value - v)]

theorem CorrectlyRounds.le_value (hfin : r.isFinite = true) {z : F64} (hz : z.isFinite = true)
    (hv : z.value ≤ v) : z.value ≤ r.value := by
  have h := hr.nearest hfin hz
  rw [abs_of_nonpos (sub_nonpos.2 hv)] at h
  linarith [neg_abs_le (r.value - v)]

theorem CorrectlyRounds.value_nonneg (hfin : r.isFinite = true) (hv : 0 ≤ v) : 0 ≤ r.value := by
  have h := hr.le_value hfin (z := zero) (by decide)
  rw [value_zero] at h
  exact h hv

end

/-- A multiple of `2^e` by at most 53 bits is exact. -/
theorem exists_value_eq {m : ℕ} (hm : m < 2 ^ 53) {e : ℤ} (he : -1074 ≤ e) (he0 : e ≤ 0) :
    ∃ z : F64, z.isFinite = true ∧ z.value = m * 2 ^ e := by
  rcases Nat.eq_zero_or_pos m with rfl | hpos
  · exact ⟨zero, by decide, by rw [value_zero, Nat.cast_zero, zero_mul]⟩
  have hlog : Nat.log2 m < 53 := (Nat.log2_lt hpos.ne').2 hm
  have hval : magValue (roundedMag m e) = m * 2 ^ e :=
    magValue_roundedMag hpos.ne' (by unfold lastPlace; omega)
  have hmag : roundedMag m e < infMag := by
    refine magValue_le_two_pow ?_
    calc magValue (roundedMag m e) = m * 2 ^ e := hval
      _ ≤ m * 1 := mul_le_mul_of_nonneg_left (zpow_le_one_of_nonpos₀ one_le_two he0) m.cast_nonneg
      _ ≤ 2 ^ 53 := by rw [mul_one]; exact_mod_cast hm.le
  have hmag63 : roundedMag m e < 2 ^ 63 := hmag.trans (by decide)
  refine ⟨ofSignMag false (roundedMag m e), ?_, ?_⟩
  · rwa [isFinite_iff, mag_ofSignMag _ hmag63]
  · rw [value_of_mag, neg?_ofSignMag _ hmag63, mag_ofSignMag _ hmag63, hval, if_neg Bool.false_ne_true]

/-- Up to `2^52` times `2^e` the multiples of `2^e` are exact, so the error is at most half of it. -/
theorem CorrectlyRounds.abs_sub_le {r : F64} {v : ℚ} (hr : CorrectlyRounds r v) {e : ℤ} (he : -1074 ≤ e)
    (he0 : e ≤ 0) (hv0 : 0 ≤ v) (hv : v ≤ 2 ^ 52 * 2 ^ e) : |r.value - v| ≤ 2 ^ e / 2 := by
  have hu : (0 : ℚ) < 2 ^ e := by positivity
  have hu1 : (2 : ℚ) ^ e ≤ 1 := zpow_le_one_of_nonpos₀ one_le_two he0
  have hx : v / 2 ^ e ≤ 2 ^ 52 := (div_le_iff₀ hu).2 hv
  have hm_le := Nat.floor_le (show 0 ≤ v / 2 ^ e + 1 / 2 by positivity)
  have hm_gt := Nat.lt_floor_add_one (v / 2 ^ e + 1 / 2)
  generalize ⌊v / 2 ^ e + 1 / 2⌋₊ = m at hm_le hm_gt
  have hm : m < 2 ^ 53 := by
    have : (m : ℚ) < 2 ^ 53 := by linarith
    exact_mod_cast this
  obtain ⟨z, hz, hzv⟩ := exists_value_eq hm he he0
  have hfin : r.isFinite = true := hr.isFinite (by rw [abs_of_nonneg hv0]; linarith)
  calc |r.value - v| ≤ |z.value - v| := hr.nearest hfin hz
    _ = |(m - v / 2 ^ e) * 2 ^ e| := by rw [hzv, sub_mul, div_mul_cancel₀ _ hu.ne']
    _ = |m - v / 2 ^ e| * 2 ^ e := by rw [abs_mul, abs_of_pos hu]
    _ ≤ 1 / 2 * 2 ^ e := mul_le_mul_of_nonneg_right (abs_le.2 ⟨by linarith, by linarith⟩) hu.le
    _ = 2 ^ e / 2 := by ring

end Sys2Proof.F64
end

section
/-! PROOF. CONV (41_color.md R151): the clamped value is in 0 to 1, so 255.0 times it is in 0 to 255. -/

namespace Sys2Proof.F64

/-- `fmin01` gives a value in 0 to 1, whatever it is given. -/
theorem fmin01_bounds (v : F64) : v.fmin01.isFinite = true ∧ 0 ≤ v.fmin01.value ∧ v.fmin01.value ≤ 1 := by
  obtain ⟨hfin1, hval1⟩ := isFinite_and_value_one
  unfold fmin01
  split
  · rw [value_zero]
    exact ⟨by decide, le_rfl, zero_le_one⟩
  · next hlow =>
    obtain ⟨hnan, hneg⟩ : v.isNaN = false ∧ v.lt zero = false := by simpa using hlow
    rw [← Bool.not_eq_true, lt_iff_value hnan (by decide), value_zero, not_lt] at hneg
    split
    · rw [hval1]
      exact ⟨hfin1, zero_le_one, le_rfl⟩
    · next hhigh =>
      rw [lt_iff_value (by decide) hnan, hval1, not_lt] at hhigh
      refine ⟨?_, hneg, hhigh⟩
      exact isFinite_of_abs_value_le (by rw [abs_of_nonneg hneg]; linarith)

theorem twoFiftyFive_mul_fmin01_bounds (v : F64) :
    (twoFiftyFive.mul v.fmin01).isFinite = true ∧
      0 ≤ (twoFiftyFive.mul v.fmin01).value ∧ (twoFiftyFive.mul v.fmin01).value ≤ 255 := by
  obtain ⟨hw, hw0, hw1⟩ := fmin01_bounds v
  obtain ⟨h255, hval⟩ := isFinite_and_value_twoFiftyFive
  have hr := correctlyRounds_mul h255 hw
  rw [hval] at hr
  have hfin := hr.isFinite (by rw [abs_of_nonneg (by linarith)]; linarith)
  refine ⟨hfin, hr.value_nonneg hfin (by linarith), ?_⟩
  rw [← hval]
  exact hr.value_le hfin h255 (by linarith)

theorem floorMag_le {x : F64} {n : ℕ} (h0 : 0 ≤ x.value) (hn : x.value ≤ n) : x.floorMag ≤ n := by
  have h : ⌊x.value⌋ < (n : ℤ) + 1 := Int.floor_lt.2 (by push_cast; linarith)
  rw [← floorMag_eq h0] at h
  omega

theorem roundMag_le {x : F64} {n : ℕ} (h0 : 0 ≤ x.value) (hn : x.value ≤ n) : x.roundMag ≤ n := by
  have h : ⌊x.value + 1 / 2⌋ < (n : ℤ) + 1 := Int.floor_lt.2 (by push_cast; linarith)
  rw [← roundMag_eq h0] at h
  omega

/-- `fmin01` with its condition as the statements write it. -/
theorem fmin01_eq (v : F64) :
    v.fmin01 = if v.isNaN ∨ v.lt zero then zero else if one.lt v then one else v := by
  simp only [fmin01, Bool.or_eq_true]

end Sys2Proof.F64

namespace Sys2Proof.Machine

/-- CONV does not lose a bit when its result is put in a byte. -/
theorem convert_toNat (m : PixConv) (v : F64) :
    (convert m v).toNat =
      if m = .trunc then (F64.twoFiftyFive.mul v.fmin01).floorMag
      else (F64.twoFiftyFive.mul v.fmin01).roundMag := by
  obtain ⟨-, h0, h255⟩ := F64.twoFiftyFive_mul_fmin01_bounds v
  have hfloor := F64.floorMag_le (n := 255) h0 (by exact_mod_cast h255)
  have hround := F64.roundMag_le (n := 255) h0 (by exact_mod_cast h255)
  cases m with
  | trunc => exact Nat.mod_eq_of_lt (by omega)
  | round => exact Nat.mod_eq_of_lt (by omega)

end Sys2Proof.Machine

namespace Sys2Proof

open F64 Machine

/-- Settles O42: 255.0 is finite, so the rounded product keeps to the bounds of the exact one. -/
theorem convertStaysInByte : Obligations.ConvertStaysInByte := by
  refine ⟨fun x _ h => ⟨floorMag_eq h, roundMag_eq h⟩, fun v => ?_⟩
  rw [← fmin01_eq]
  obtain ⟨hfin, h0, h255⟩ := twoFiftyFive_mul_fmin01_bounds v
  refine ⟨rfl, hfin, h0, h255, ?_, ?_⟩
  · rw [convert_toNat, if_pos rfl, floorMag_eq h0]
  · rw [convert_toNat, if_neg (by decide), roundMag_eq h0]

end Sys2Proof
end

section
/-! PROOF. The alpha flag (41_color.md R142): the sum of the normalised alphas is near the exact one, and exact
when every pixel is opaque. -/

open Sys2Proof.F64

namespace Sys2Proof.Machine

/-! ## One normalised byte -/

/-- Byte `j` of pixel `i` over 255, exactly. -/
def State.exactPix (s : State) (i j : ℕ) : ℚ := s.pix (4 * i + j) / 255

theorem State.exactPix_bounds (s : State) (i j : ℕ) : 0 ≤ s.exactPix i j ∧ s.exactPix i j ≤ 1 := by
  have h : s.pix (4 * i + j) ≤ 255 := Nat.le_of_lt_succ (s.byte (pixAddr (4 * i + j))).isLt
  have h' : (s.pix (4 * i + j) : ℚ) ≤ 255 := by exact_mod_cast h
  unfold exactPix
  exact ⟨by positivity, by linarith⟩

theorem State.correctlyRounds_unitPix (s : State) (i j : ℕ) : CorrectlyRounds (s.unitPix i j) (s.exactPix i j) := by
  have hpix : s.pix (4 * i + j) < 256 := (s.byte (pixAddr (4 * i + j))).isLt
  obtain ⟨hn, hval⟩ := ofNat_exact (n := s.pix (4 * i + j)) (by omega)
  obtain ⟨h255, hval'⟩ := isFinite_and_value_twoFiftyFive
  have h := correctlyRounds_div hn h255 (by rw [hval']; norm_num)
  rwa [hval, hval'] at h

theorem State.unitPix_bounds (s : State) (i j : ℕ) :
    (s.unitPix i j).isFinite = true ∧ 0 ≤ (s.unitPix i j).value ∧ (s.unitPix i j).value ≤ 1 := by
  obtain ⟨h0, h1⟩ := s.exactPix_bounds i j
  obtain ⟨hfin1, hval1⟩ := isFinite_and_value_one
  have hr := s.correctlyRounds_unitPix i j
  have hfin := hr.isFinite (by rw [abs_of_nonneg h0]; linarith)
  refine ⟨hfin, hr.value_nonneg hfin h0, ?_⟩
  rw [← hval1] at h1 ⊢
  exact hr.value_le hfin hfin1 h1

theorem State.abs_unitPix_sub_le (s : State) (i j : ℕ) :
    |(s.unitPix i j).value - s.exactPix i j| ≤ 2 ^ (-52 : ℤ) / 2 := by
  obtain ⟨h0, h1⟩ := s.exactPix_bounds i j
  exact (s.correctlyRounds_unitPix i j).abs_sub_le (by norm_num) (by norm_num) h0 (by norm_num; exact h1)

/-- Only the byte 255 is nearer to 1.0 than half of `1/255`, so only it gives 1.0. -/
theorem State.unitPix_eq_one_iff (s : State) (i j : ℕ) : s.unitPix i j = one ↔ s.pix (4 * i + j) = 255 := by
  constructor
  · intro h
    have herr := s.abs_unitPix_sub_le i j
    rw [h, isFinite_and_value_one.2, abs_le] at herr
    norm_num [State.exactPix] at herr
    have hlt : (254 : ℚ) < s.pix (4 * i + j) := by linarith
    have hlt' : 254 < s.pix (4 * i + j) := by exact_mod_cast hlt
    have := (s.byte (pixAddr (4 * i + j))).isLt
    unfold State.pix at hlt' ⊢
    omega
  · intro h
    rw [State.unitPix, h]
    decide +kernel

/-! ## The sum of the alphas -/

theorem State.alphaSum_zero (s : State) : s.alphaSum 0 = zero := rfl

theorem State.alphaSum_succ (s : State) (n : ℕ) : s.alphaSum (n + 1) = (s.alphaSum n).add (s.unitPix n 3) := by
  simp [State.alphaSum, List.range_succ]

/-- The exact sum of the alphas of the first `n` pixels. -/
def State.exactAlphaSum (s : State) (n : ℕ) : ℚ := ((List.range n).map fun i => s.exactPix i 3).sum

theorem State.exactAlphaSum_succ (s : State) (n : ℕ) :
    s.exactAlphaSum (n + 1) = s.exactAlphaSum n + s.exactPix n 3 := by
  simp [State.exactAlphaSum, List.range_succ]

/-- The sum stays between 0 and the number of pixels: both are finite values, so rounding keeps to them. -/
theorem State.alphaSum_bounds (s : State) {n : ℕ} (hn : n ≤ 16384) :
    (s.alphaSum n).isFinite = true ∧ 0 ≤ (s.alphaSum n).value ∧ (s.alphaSum n).value ≤ n := by
  induction n with
  | zero =>
    rw [s.alphaSum_zero, value_zero, Nat.cast_zero]
    exact ⟨by decide, le_rfl, le_rfl⟩
  | succ n ih =>
    obtain ⟨hfin, h0, hle⟩ := ih (by omega)
    obtain ⟨hpfin, hp0, hp1⟩ := s.unitPix_bounds n 3
    obtain ⟨hnfin, hnval⟩ := ofNat_exact (n := n + 1) (by omega)
    have hn' : ((n + 1 : ℕ) : ℚ) ≤ 16384 := by exact_mod_cast hn
    have hr := correctlyRounds_add hfin hpfin
    rw [← s.alphaSum_succ] at hr
    have hexact : (s.alphaSum n).value + (s.unitPix n 3).value ≤ (n + 1 : ℕ) := by push_cast; linarith
    have hrfin := hr.isFinite (by rw [abs_of_nonneg (by linarith)]; linarith)
    refine ⟨hrfin, hr.value_nonneg hrfin (by linarith), ?_⟩
    rw [← hnval] at hexact ⊢
    exact hr.value_le hrfin hnfin hexact

theorem State.correctlyRounds_alphaSum_succ (s : State) {n : ℕ} (hn : n ≤ 16384) :
    CorrectlyRounds (s.alphaSum (n + 1)) ((s.alphaSum n).value + (s.unitPix n 3).value) := by
  rw [s.alphaSum_succ]
  exact correctlyRounds_add (s.alphaSum_bounds hn).1 (s.unitPix_bounds n 3).1

/-- Each pixel adds the error of its division and that of its addition: half the spacing below 1 and below
`2^14`. -/
theorem State.abs_alphaSum_sub_le (s : State) {n : ℕ} (hn : n ≤ 16384) :
    |(s.alphaSum n).value - s.exactAlphaSum n| ≤ n * (2 ^ (-52 : ℤ) / 2 + 2 ^ (-38 : ℤ) / 2) := by
  induction n with
  | zero => simp [State.alphaSum_zero, State.exactAlphaSum, value_zero]
  | succ n ih =>
    obtain ⟨-, h0, hle⟩ := s.alphaSum_bounds (n := n) (by omega)
    obtain ⟨-, hp0, hp1⟩ := s.unitPix_bounds n 3
    have hn' : ((n + 1 : ℕ) : ℚ) ≤ 16384 := by exact_mod_cast hn
    push_cast at hn'
    have hsum := ih (by omega)
    have hpix := s.abs_unitPix_sub_le n 3
    have hadd := (s.correctlyRounds_alphaSum_succ (n := n) (by omega)).abs_sub_le (e := -38) (by norm_num)
      (by norm_num) (by linarith) (by norm_num; linarith)
    rw [s.exactAlphaSum_succ]
    rw [abs_le] at hsum hpix hadd ⊢
    push_cast
    constructor <;> linarith

/-! ## Opaque and transparent pixels -/

/-- Each addition of 1.0 is exact. -/
theorem State.le_alphaSum_of_pix_eq (s : State) {n : ℕ} (hn : n ≤ 16384)
    (hop : ∀ i, i < n → s.pix (4 * i + 3) = 255) : n ≤ (s.alphaSum n).value := by
  induction n with
  | zero => rw [s.alphaSum_zero, value_zero, Nat.cast_zero]
  | succ n ih =>
    have hsum := ih (by omega) fun i hi => hop i (by omega)
    have hr := s.correctlyRounds_alphaSum_succ (n := n) (by omega)
    obtain ⟨hnfin, hnval⟩ := ofNat_exact (n := n + 1) (by omega)
    rw [(s.unitPix_eq_one_iff n 3).2 (hop n (by omega)), isFinite_and_value_one.2] at hr
    rw [← hnval]
    exact hr.le_value (s.alphaSum_bounds hn).1 hnfin (by rw [hnval]; push_cast; linarith)

/-- One pixel that is not opaque takes at least `1/255` from the exact sum. -/
theorem State.exactAlphaSum_of_transparent (s : State) {n i : ℕ} (hi : i < n) (h : s.pix (4 * i + 3) < 255) :
    s.exactAlphaSum n ≤ n - 1 / 255 := by
  have hle (k : ℕ) : s.exactAlphaSum k ≤ k := by
    induction k with
    | zero => simp [State.exactAlphaSum]
    | succ k ih => rw [s.exactAlphaSum_succ]; push_cast; linarith [(s.exactPix_bounds k 3).2]
  have hpix : s.exactPix i 3 ≤ 1 - 1 / 255 := by
    have : (s.pix (4 * i + 3) : ℚ) ≤ 254 := by exact_mod_cast Nat.le_of_lt_succ h
    unfold State.exactPix
    linarith
  induction n with
  | zero => omega
  | succ n ih =>
    rw [s.exactAlphaSum_succ]
    push_cast
    rcases Nat.lt_succ_iff_lt_or_eq.1 hi with hlt | rfl
    · linarith [ih hlt, (s.exactPix_bounds n 3).2]
    · linarith [hle i]

/-- `f64(n)` is exact, so the flag compares the sum with `n`. -/
theorem State.alphaSum_lt_iff (s : State) {n : ℕ} (hn : n ≤ 16384) :
    (s.alphaSum n).lt (ofNat n) = true ↔ (s.alphaSum n).value < n := by
  rw [lt_iff_value (isNaN_eq_false_of_isFinite (s.alphaSum_bounds hn).1) (isNaN_ofNat n),
    (ofNat_exact (by omega)).2]

end Sys2Proof.Machine

namespace Sys2Proof

open Machine

/-- Settles O19: an opaque image has the sum `n`, and a pixel that is not opaque lowers the exact sum by more
than the rounding error. -/
theorem hasAlphaIffSomePixelTransparent : Obligations.HasAlphaIffSomePixelTransparent := by
  intro s n _ hn a sA
  have hn' : (n : ℚ) ≤ 16384 := by exact_mod_cast hn
  have herr : |sA.value - s.exactAlphaSum n| < 1 / 2 ^ 24 :=
    (s.abs_alphaSum_sub_le hn).trans_lt (by norm_num; linarith)
  refine ⟨fun i => ⟨(s.unitPix_bounds i 3).2.2, s.unitPix_eq_one_iff i 3⟩, herr, ?_⟩
  refine (s.alphaSum_lt_iff hn).trans ⟨fun hlt => ?_, fun ⟨i, hi, hpix⟩ => ?_⟩
  · by_contra! hop
    have hle : (n : ℚ) ≤ (s.alphaSum n).value := s.le_alphaSum_of_pix_eq hn fun i hi =>
      le_antisymm (Nat.le_of_lt_succ (s.byte (pixAddr (4 * i + 3))).isLt) (hop i hi)
    exact hle.not_gt hlt
  · have hexact := s.exactAlphaSum_of_transparent hi hpix
    have hnear : sA.value - s.exactAlphaSum n < 1 / 2 ^ 24 := (abs_lt.1 herr).2
    show sA.value < n
    norm_num at hnear
    linarith

end Sys2Proof
end

section
/-! PROOF. CSC_FWD and CSC_INV (41_color.md R140 to R152): what each raises, what it writes, and that every
element reads back what was written there. -/

namespace Sys2Proof.Machine

/-! ## CSC_FWD: its outcomes -/

theorem State.inputSizeWrong_iff {s : State} : s.inputSizeWrong = true ↔
    s.inLen.toNat ≠ s.imgDim.w.toNat * s.imgDim.h.toNat * 4 := decide_eq_true_iff

theorem State.inputSizeWrong_eq_false_iff {s : State} : s.inputSizeWrong = false ↔
    s.inLen.toNat = s.imgDim.w.toNat * s.imgDim.h.toNat * 4 := by
  simp [State.inputSizeWrong]

theorem Dim.inRange_eq_false_iff {d : Dim} : d.inRange = false ↔
    d.w.toNat < 1 ∨ d.w.toNat > 128 ∨ d.h.toNat < 1 ∨ d.h.toNat > 128 := by
  rw [← Bool.not_eq_true, Dim.inRange_iff]
  omega

/-- The state that CSC_FWD leaves where it does not raise. -/
def State.forwarded (s : State) : State :=
  { s.succeeded with mem := s.mem.putF64s s.forwardWrites, lext := s.forwardLext }

theorem exec_cscFwd_of_inputSizeWrong {s : State} (h : s.inputSizeWrong = true) :
    exec .cscFwd s = .next (s.raised 1) :=
  exec_of_error (i := .cscFwd) (e := .invalidInputSize) (by simp [commandResult, unitCscFwd, h])

theorem exec_cscFwd_of_not_inRange {s : State} (h : s.inputSizeWrong = false) (hr : s.imgDim.inRange = false) :
    exec .cscFwd s = .next (s.raised 3) :=
  exec_of_error (i := .cscFwd) (e := .paramRange) (by simp [commandResult, unitCscFwd, h, hr])

theorem exec_cscFwd_of_inRange {s : State} (h : s.inputSizeWrong = false) (hr : s.imgDim.inRange = true) :
    exec .cscFwd s = .next s.forwarded :=
  exec_of_ok (i := .cscFwd) (t := { s with mem := s.mem.putF64s s.forwardWrites, lext := s.forwardLext })
    (by simp [commandResult, unitCscFwd, h, hr])

/-! ## CSC_FWD: LEXT -/

/-- An extent of R144 is the limit along the longer side, and no more along the other. -/
theorem sideExtent_le {lim side m : ℕ} (hlim : 1 ≤ lim) (hm : 1 ≤ m) (h : side ≤ m) :
    sideExtent lim side m ≤ lim := by
  refine max_le hlim (Nat.lt_succ_iff.1 ((Nat.div_lt_iff_lt_mul (by omega)).2 ?_))
  nlinarith

theorem sideExtent_self {lim m : ℕ} (hlim : 1 ≤ lim) (hm : 1 ≤ m) : sideExtent lim m m = lim := by
  refine le_antisymm (sideExtent_le hlim hm le_rfl) (le_max_of_le_right ?_)
  rw [Nat.le_div_iff_mul_le (by omega)]
  nlinarith

theorem limit_bounds (alpha : Bool) : 1 ≤ limit alpha ∧ limit alpha ≤ 7 := by cases alpha <;> decide

theorem sideExtent_limit_bounds (alpha : Bool) {side m : ℕ} (hm : 1 ≤ m) (h : side ≤ m) :
    1 ≤ sideExtent (limit alpha) side m ∧ sideExtent (limit alpha) side m ≤ 7 := by
  obtain ⟨h1, h7⟩ := limit_bounds alpha
  exact ⟨le_max_left _ _, (sideExtent_le h1 hm h).trans h7⟩

/-- An extent fits the three bits of its field. -/
theorem toNat_sideExtent (alpha : Bool) {side m : ℕ} (hm : 1 ≤ m) (h : side ≤ m) :
    (BitVec.ofNat 3 (sideExtent (limit alpha) side m)).toNat = sideExtent (limit alpha) side m :=
  Nat.mod_eq_of_lt (Nat.lt_succ_of_le (sideExtent_limit_bounds alpha hm h).2)

/-! ## CSC_FWD: the planes -/

/-- The average of colour byte `j` over the first `n` pixels (41_color.md R141). -/
def State.averageOf (s : State) (n j : ℕ) : F64 :=
  if F64.zero.lt (s.alphaSum n) then (s.colorSum j n).div (s.alphaSum n) else F64.zero

theorem State.average_eq (s : State) (n : ℕ) :
    s.average n = ⟨s.averageOf n 0, s.averageOf n 1, s.averageOf n 2⟩ := by
  by_cases h : F64.zero.lt (s.alphaSum n) <;> simp [State.average, State.averageOf, h]

/-- The value that CSC_FWD writes to element (x, y) of each plane. -/
def State.forwardPlane (s : State) (x y : ℕ) : Channel → F64 :=
  let i := y * s.imgDim.w.toNat + x
  let c := s.composite (s.average (s.imgDim.w.toNat * s.imgDim.h.toNat)) i
  fun
  | .L => c.toL
  | .P => c.toP
  | .Q => c.toQ
  | .A => s.unitPix i 3

theorem State.mem_forwardWrites {s : State} {w : ℕ × F64} : w ∈ s.forwardWrites ↔
    ∃ c x y, x < s.imgDim.w.toNat ∧ y < s.imgDim.h.toNat ∧ w = (planeAddr c x y, s.forwardPlane x y c) := by
  simp only [State.forwardWrites, List.mem_flatMap, Prod.exists, mem_pixels, List.mem_cons, List.not_mem_nil, or_false]
  constructor
  · rintro ⟨x, y, ⟨hx, hy⟩, h | h | h | h⟩
    · exact ⟨.L, x, y, hx, hy, h⟩
    · exact ⟨.P, x, y, hx, hy, h⟩
    · exact ⟨.Q, x, y, hx, hy, h⟩
    · exact ⟨.A, x, y, hx, hy, h⟩
  · rintro ⟨c, x, y, hx, hy, rfl⟩
    refine ⟨x, y, ⟨hx, hy⟩, ?_⟩
    cases c <;> simp [State.forwardPlane]

theorem State.plane_forwarded {s : State} (hr : s.imgDim.inRange = true) (c : Channel) {x y : ℕ}
    (hx : x < s.imgDim.w.toNat) (hy : y < s.imgDim.h.toNat) : s.forwarded.plane c x y = s.forwardPlane x y c := by
  have hbase : 0x240 ≤ planeAddr c x y := by
    simp only [planeAddr, planeBase]
    omega
  exact s.f64_putF64s_of_mem (apart_forwardWrites hr) (mem_forwardWrites.2 ⟨c, x, y, hx, hy, rfl⟩) hbase

theorem State.byte_forwarded (s : State) {a : ℕ} (h : ∀ c x y, x < s.imgDim.w.toNat → y < s.imgDim.h.toNat →
    ¬(planeAddr c x y ≤ a ∧ a < planeAddr c x y + 8)) : s.forwarded.byte a = s.byte a := by
  refine s.byte_putF64s_of_not_mem fun w hw => ?_
  obtain ⟨c, x, y, hx, hy, rfl⟩ := mem_forwardWrites.1 hw
  exact h c x y hx hy

/-! ## CSC_INV -/

/-- The state that CSC_INV leaves where it does not raise. -/
def State.inverted (s : State) : State := { s.succeeded with mem := s.mem.putBytes s.inverseWrites }

theorem exec_cscInv_of_not_inRange {s : State} (h : s.outDim.inRange = false) :
    exec .cscInv s = .next (s.raised 3) :=
  exec_of_error (i := .cscInv) (e := .paramRange) (by simp [commandResult, unitCscInv, h])

theorem exec_cscInv_of_inRange {s : State} (h : s.outDim.inRange = true) : exec .cscInv s = .next s.inverted :=
  exec_of_ok (i := .cscInv) (t := { s with mem := s.mem.putBytes s.inverseWrites })
    (by simp [commandResult, unitCscInv, h])

/-- The value whose conversion is byte `k` of the output pixel (x, y). -/
def State.inverseChannel (s : State) (x y : ℕ) : Fin 4 → F64 :=
  let c := inverseRgb (s.plane .L x y) (s.plane .P x y) (s.plane .Q x y)
  ![c.r, c.g, c.b, s.outAlpha x y]

theorem State.mem_inverseWrites {s : State} {w : ℕ × Byte} : w ∈ s.inverseWrites ↔
    ∃ x y, ∃ k : Fin 4, x < s.outDim.w.toNat ∧ y < s.outDim.h.toNat ∧
      w = (pixAddr (4 * (y * s.outDim.w.toNat + x) + k), convert s.params.pixConv (s.inverseChannel x y k)) := by
  simp only [State.inverseWrites, List.mem_flatMap, Prod.exists, mem_pixels, List.mem_cons, List.not_mem_nil, or_false]
  constructor
  · rintro ⟨x, y, ⟨hx, hy⟩, h | h | h | h⟩
    · exact ⟨x, y, 0, hx, hy, h⟩
    · exact ⟨x, y, 1, hx, hy, h⟩
    · exact ⟨x, y, 2, hx, hy, h⟩
    · exact ⟨x, y, 3, hx, hy, h⟩
  · rintro ⟨x, y, k, hx, hy, rfl⟩
    refine ⟨x, y, ⟨hx, hy⟩, ?_⟩
    fin_cases k <;> simp [State.inverseChannel]

theorem State.pix_inverted (s : State) {x y : ℕ} (hx : x < s.outDim.w.toNat) (hy : y < s.outDim.h.toNat) (k : Fin 4) :
    s.inverted.pix (4 * (y * s.outDim.w.toNat + x) + k) =
      (convert s.params.pixConv (s.inverseChannel x y k)).toNat := by
  have hnib : inNib (pixAddr (4 * (y * s.outDim.w.toNat + x) + k)) = false :=
    decide_eq_false (by simp only [pixAddr, pixBase, nibBase]; omega)
  have h := s.byte_putBytes_of_mem (nodup_inverseWrites s) (mem_inverseWrites.2 ⟨x, y, k, hx, hy, rfl⟩)
  rw [maskAt_of_not_inNib hnib] at h
  exact congrArg BitVec.toNat h

theorem State.byte_inverted (s : State) {a : ℕ}
    (h : ∀ i, i < 4 * s.outDim.w.toNat * s.outDim.h.toNat → a ≠ pixAddr i) : s.inverted.byte a = s.byte a := by
  refine s.byte_putBytes_of_not_mem fun w hw => ?_
  obtain ⟨x, y, k, hx, hy, rfl⟩ := mem_inverseWrites.1 hw
  refine (h _ ?_).symm
  have hk := k.isLt
  nlinarith

end Sys2Proof.Machine

namespace Sys2Proof

open Machine

/-- Settles O17, one outcome after the other; the extents are those of `sideExtent`. -/
theorem cscFwdConverts : Obligations.CscFwdConverts := by
  refine ⟨by decide, fun s => ⟨fun hlen => ?_, fun hlen hdim => ?_, fun hlen hW hW' hH hH' => ?_⟩⟩
  · exact exec_cscFwd_of_inputSizeWrong (State.inputSizeWrong_iff.2 hlen)
  · exact exec_cscFwd_of_not_inRange (State.inputSizeWrong_eq_false_iff.2 hlen) (Dim.inRange_eq_false_iff.2 hdim)
  · intro n v sA sum avg comp alpha lim M
    have hsize := State.inputSizeWrong_eq_false_iff.2 hlen
    have hr : s.imgDim.inRange = true := Dim.inRange_iff.2 ⟨hW, hW', hH, hH'⟩
    have hM : 1 ≤ M := hW.trans (le_max_left _ _)
    have hlx : s.forwarded.lext.lx.toNat = sideExtent (limit alpha) s.imgDim.w.toNat M :=
      toNat_sideExtent alpha hM (le_max_left _ _)
    have hly : s.forwarded.lext.ly.toNat = sideExtent (limit alpha) s.imgDim.h.toNat M :=
      toNat_sideExtent alpha hM (le_max_right _ _)
    obtain ⟨hx1, hx7⟩ := hlx ▸ sideExtent_limit_bounds alpha hM (le_max_left _ _)
    obtain ⟨hy1, hy7⟩ := hly ▸ sideExtent_limit_bounds alpha hM (le_max_right _ _)
    have hlim := (limit_bounds alpha).1
    have hcomp : ∀ i, s.composite (s.average n) i = ⟨comp i 0, comp i 1, comp i 2⟩ := fun i => by
      rw [State.composite, s.average_eq]
      rfl
    refine ⟨s.forwarded, exec_cscFwd_of_inRange hsize hr, fun x y hx hy => ?_, hlx, hly, hx1, hx7, hy1, hy7,
      fun hle => ?_, fun hle => ?_, rfl, rfl, rfl, fun a ha => s.byte_forwarded ha⟩
    · simp only [State.plane_forwarded hr _ hx hy, State.forwardPlane]
      rw [hcomp]
      exact ⟨rfl, rfl, rfl, rfl⟩
    · rw [hlx, show M = s.imgDim.w.toNat from max_eq_left hle]
      exact sideExtent_self hlim hW
    · rw [hly, show M = s.imgDim.h.toNat from max_eq_right hle]
      exact sideExtent_self hlim hH

/-- Settles O18: each byte of a pixel is `convert` of its channel. -/
theorem cscInvConverts : Obligations.CscInvConverts := by
  refine ⟨by decide, fun s => ⟨fun hdim => ?_, fun hW hW' hH hH' => ?_⟩⟩
  · exact exec_cscInv_of_not_inRange (Dim.inRange_eq_false_iff.2 hdim)
  · intro conv
    have hr : s.outDim.inRange = true := Dim.inRange_iff.2 ⟨hW, hW', hH, hH'⟩
    have hconv : ∀ v, (convert s.params.pixConv v).toNat = conv v := fun v => by
      rw [convert_toNat, F64.fmin01_eq]
    refine ⟨s.inverted, exec_cscInv_of_inRange hr, fun x y hx hy => ?_, rfl,
      fun a ha => s.byte_inverted ha⟩
    have hpix : ∀ k : Fin 4, s.inverted.pix (4 * (y * s.outDim.w.toNat + x) + k) = conv (s.inverseChannel x y k) :=
      fun k => (s.pix_inverted hx hy k).trans (hconv _)
    refine ⟨hpix 0, hpix 1, hpix 2, hpix 3, fun halpha => (hpix 3).trans ?_⟩
    have hone : s.inverseChannel x y 3 = F64.one := if_neg (ne_true_of_eq_false halpha)
    rw [hone, ← hconv]
    cases s.params.pixConv <;> decide +kernel

end Sys2Proof
end

section
/-! PROOF. The retained frequencies (42_dct.md R161, R162): the enumeration keeps the order of its two loops, in which
(0, 0) comes first. -/

namespace Sys2Proof.Machine

/-- The order of the enumeration: by cy, and in a row by cx. -/
def FrequencyBefore (p q : ℕ × ℕ) : Prop := p.2 < q.2 ∨ (p.2 = q.2 ∧ p.1 < q.1)

theorem not_frequencyBefore_zero (p : ℕ × ℕ) : ¬FrequencyBefore p (0, 0) := by
  simp [FrequencyBefore]

/-- Pairs of one row follow the inner loop, and those of different rows the outer one. -/
theorem pairwise_pairs (nx ny : ℕ) : (pairs nx ny).Pairwise FrequencyBefore := by
  rw [pairs, List.pairwise_flatMap]
  constructor
  · intro cy _
    rw [List.pairwise_map]
    exact (List.pairwise_lt_range.filter _).imp fun h => .inr ⟨rfl, h⟩
  · refine List.pairwise_lt_range.imp fun hlt p hp q hq => .inl ?_
    obtain ⟨_, _, rfl⟩ := List.mem_map.1 hp
    obtain ⟨_, _, rfl⟩ := List.mem_map.1 hq
    exact hlt

/-- (0, 0) is retained and no pair comes before it. -/
theorem pairs_eq_cons {nx ny : ℕ} (hx : 1 ≤ nx) (hy : 1 ≤ ny) : pairs nx ny = (0, 0) :: acPairs nx ny := by
  have hmem : (0, 0) ∈ pairs nx ny := mem_pairs.2 ⟨hx, hy, by simp; omega⟩
  have hord := pairwise_pairs nx ny
  rw [acPairs]
  cases hp : pairs nx ny with
  | nil => simp [hp] at hmem
  | cons p rest =>
    rw [hp] at hmem hord
    rcases List.mem_cons.1 hmem with rfl | hrest
    · rfl
    · exact absurd (List.rel_of_pairwise_cons hord hrest) (not_frequencyBefore_zero p)

end Sys2Proof.Machine

namespace Sys2Proof

open Machine

/-- Settles O20: the pairs are those of `mem_pairs`, in the order of the two loops. -/
theorem retainedPairsInOrder : Obligations.RetainedPairsInOrder :=
  fun nx ny => ⟨fun _ _ => mem_pairs, pairwise_pairs nx ny, pairs_eq_cons⟩

/-- Settles O21, by evaluation of the table. -/
theorem countAcTable : Obligations.CountAcTable := by
  unfold Obligations.CountAcTable
  decide +kernel

end Sys2Proof
end

section
/-! PROOF. More of what correct rounding gives (00_scope.md R7): the sign of a finite result, and a bound on its
magnitude that may be any finite value. -/

namespace Sys2Proof.F64

/-! ## Signs -/

theorem neg?_round (s : Bool) (m : ℕ) (e : ℤ) : (round s m e).neg? = s := by
  by_cases hm : m = 0
  · rw [hm, round_zero, neg?_ofSignMag _ (by norm_num)]
  · rw [round_of_ne_zero s hm, neg?_ofSignMag _ ((min_le_right _ _).trans_lt (by decide))]

theorem neg?_mul_of_isFinite {x y : F64} (hx : x.isFinite = true) (hy : y.isFinite = true) :
    (x.mul y).neg? = (x.neg? != y.neg?) := by
  rw [mul_of_isFinite hx hy, neg?_round]

theorem neg?_div_of_isFinite {x y : F64} (hx : x.isFinite = true) (hy : y.isFinite = true) (h0 : y.value ≠ 0) :
    (x.div y).neg? = (x.neg? != y.neg?) := by
  rw [div_of_isFinite hx hy (mt (value_eq_zero y).2 h0), divFinite, neg?_round]

theorem scaledTo_nonneg {x : F64} (h : x.neg? = false) (e : ℤ) : 0 ≤ x.scaledTo e := by
  rw [scaledTo, h, if_neg Bool.false_ne_true]
  positivity

/-- A sum of two values with clear signs has a clear sign, also where it is zero. -/
theorem neg?_add_of_isFinite {x y : F64} (hx : x.isFinite = true) (hy : y.isFinite = true)
    (hsx : x.neg? = false) (hsy : y.neg? = false) : (x.add y).neg? = false := by
  have hsum := add_nonneg (scaledTo_nonneg hsx (min x.expo y.expo)) (scaledTo_nonneg hsy (min x.expo y.expo))
  rw [add, addWith_of_isFinite _ hx hy, addFinite]
  split
  · rw [neg?_ofSignMag _ (by norm_num), hsx, Bool.false_and]
  · rw [neg?_round, decide_eq_false (not_lt.2 hsum)]

theorem mul_zero_of_isFinite {x : F64} (hx : x.isFinite = true) (hs : x.neg? = false) : x.mul zero = zero := by
  rw [mul_of_isFinite hx (by decide), hs, show zero.mant = 0 by decide, Nat.mul_zero, round_zero]
  rfl

theorem isFinite_and_value_half : half.isFinite = true ∧ half.value = 1 / 2 :=
  isFinite_and_value_of_fields 1 (by norm_num) (by decide)

/-! ## Bounds -/

/-- A finite value lies below the overflow threshold: it is its own correct rounding. -/
theorem abs_value_lt_of_isFinite {z : F64} (hz : z.isFinite = true) : |z.value| < 2 ^ 1024 - 2 ^ 970 := by
  have h := correctlyRounds_of_nearestEven z.neg? (magValue_nonneg z.mag) (nearestEven_magValue z.mag)
  rw [min_eq_left (b := infMag) ((isFinite_iff z).1 hz).le, ofSignMag_eta, ← value_eq_signed] at h
  exact h.1.1 hz

/-- A result keeps to a finite value that bounds the magnitude of the exact one. -/
theorem CorrectlyRounds.isFinite_and_abs_value_le {r z : F64} {v : ℚ} (hr : CorrectlyRounds r v)
    (hz : z.isFinite = true) (hv : |v| ≤ z.value) : r.isFinite = true ∧ |r.value| ≤ z.value := by
  have hfin : r.isFinite = true := hr.1.2 (hv.trans_lt ((le_abs_self _).trans_lt (abs_value_lt_of_isFinite hz)))
  obtain ⟨hlo, hhi⟩ := abs_le.1 hv
  have hge := hr.le_value hfin (isFinite_negate hz) (by rwa [value_negate])
  rw [value_negate] at hge
  exact ⟨hfin, abs_le.2 ⟨hge, hr.value_le hfin hz hhi⟩⟩

/-- The same for a bound that is a natural number. -/
theorem CorrectlyRounds.isFinite_and_abs_value_le_natCast {r : F64} {v : ℚ} (hr : CorrectlyRounds r v) {n : ℕ}
    (hn : n < 2 ^ 53) (hv : |v| ≤ n) : r.isFinite = true ∧ |r.value| ≤ n := by
  obtain ⟨hfin, hval⟩ := ofNat_exact hn
  rw [← hval] at hv ⊢
  exact hr.isFinite_and_abs_value_le hfin hv

end Sys2Proof.F64
end

section
/-! PROOF. The basis term at frequency 0 (42_dct.md R160): the first two factors are finite and their signs are clear,
so that the product with +0.0 is +0.0. -/

namespace Sys2Proof.F64

/-- The first factor, `PI64 ÷ f64(d)`. -/
theorem pi_div_ofNat_bounds {d : ℕ} (hd : 1 ≤ d) (hd' : d ≤ 128) :
    (pi.div (ofNat d)).isFinite = true ∧ |(pi.div (ofNat d)).value| ≤ (4 : ℕ) ∧
      (pi.div (ofNat d)).neg? = false := by
  obtain ⟨hfin, hval⟩ := ofNat_exact (n := d) (by omega)
  have hd1 : (1 : ℚ) ≤ d := by exact_mod_cast hd
  have h0 : (ofNat d).value ≠ 0 := by rw [hval]; positivity
  have hpi : 0 ≤ pi.value ∧ pi.value ≤ 4 := by rw [value_pi, magValue_piMag]; norm_num
  have hquot : |pi.value / (ofNat d).value| ≤ (4 : ℕ) := by
    rw [hval, abs_of_nonneg (div_nonneg hpi.1 d.cast_nonneg)]
    exact (div_le_self hpi.1 hd1).trans hpi.2
  obtain ⟨hqfin, hqval⟩ :=
    (correctlyRounds_div (by decide) hfin h0).isFinite_and_abs_value_le_natCast (by norm_num) hquot
  exact ⟨hqfin, hqval, by rw [neg?_div_of_isFinite (by decide) hfin h0, ofNat, neg?_round]; decide⟩

/-- The second factor, `f64(p) + 0.5`. -/
theorem ofNat_add_half_bounds {p : ℕ} (hp : p < 128) :
    ((ofNat p).add half).isFinite = true ∧ |((ofNat p).add half).value| ≤ (128 : ℕ) ∧
      ((ofNat p).add half).neg? = false := by
  obtain ⟨hfin, hval⟩ := ofNat_exact (n := p) (by omega)
  obtain ⟨hhalf, hhalf'⟩ := isFinite_and_value_half
  have hp' : (p : ℚ) ≤ 127 := by exact_mod_cast Nat.le_of_lt_succ hp
  have hsum : |(ofNat p).value + half.value| ≤ (128 : ℕ) := by
    rw [hval, hhalf', abs_of_nonneg (by positivity)]
    push_cast
    linarith
  obtain ⟨hsfin, hsval⟩ := (correctlyRounds_add hfin hhalf).isFinite_and_abs_value_le_natCast (by norm_num) hsum
  exact ⟨hsfin, hsval, neg?_add_of_isFinite hfin hhalf (neg?_round _ _ _) (by decide)⟩

/-- At frequency 0 the argument of the cosine is +0.0. -/
theorem basisArgument_zero {d p : ℕ} (hd : 1 ≤ d) (hd' : d ≤ 128) (hp : p < d) :
    ((pi.div (ofNat d)).mul ((ofNat p).add half)).mul (ofNat 0) = zero := by
  obtain ⟨hqfin, hqval, hqs⟩ := pi_div_ofNat_bounds hd hd'
  obtain ⟨hsfin, hsval, hss⟩ := ofNat_add_half_bounds (p := p) (by omega)
  have hprod := mul_le_mul hqval hsval (abs_nonneg _) (Nat.cast_nonneg _)
  rw [← abs_mul, ← Nat.cast_mul] at hprod
  obtain ⟨hfin, -⟩ := (correctlyRounds_mul hqfin hsfin).isFinite_and_abs_value_le_natCast (by norm_num) hprod
  exact mul_zero_of_isFinite hfin (by rw [neg?_mul_of_isFinite hqfin hsfin, hqs, hss]; rfl)

end Sys2Proof.F64

namespace Sys2Proof

open F64 Machine

/-- Settles O22: BASIS is written as the rule writes it, and a clear sign and finite factors make the argument +0.0
at frequency 0. -/
theorem basisIsCosineOfArgument : Obligations.BasisIsCosineOfArgument := by
  refine ⟨cos_zero, fun d p k hd hd' hp _ => ⟨rfl, ?_⟩⟩
  rintro rfl
  have harg := basisArgument_zero hd hd' hp
  exact ⟨harg, (congrArg F64.cos harg).trans cos_zero⟩

end Sys2Proof
end

section
/-! PROOF. The renormalised AC values (42_dct.md R165): the scale bounds every raw magnitude, so each rounded quotient
is in [-1, 1], half of it in [-1/2, 1/2], and 0.5 more than that in [0, 1]. -/

open Sys2Proof.F64

namespace Sys2Proof.Machine

/-- The greater of a running scale and the magnitude of `f`. -/
def greaterMagnitude (m f : F64) : F64 := if m.lt f.abs then f.abs else m

theorem scaleOf_eq (fs : List F64) : scaleOf fs = fs.foldl greaterMagnitude zero := rfl

theorem greaterMagnitude_bounds {m f : F64} (hm : m.isFinite = true) (hf : f.isFinite = true) :
    (greaterMagnitude m f).isFinite = true ∧ m.value ≤ (greaterMagnitude m f).value ∧
      |f.value| ≤ (greaterMagnitude m f).value := by
  have hlt := lt_iff_value (isNaN_eq_false_of_isFinite hm) (isNaN_eq_false_of_isFinite (isFinite_abs hf))
  rw [← value_abs, greaterMagnitude]
  split
  · next h => exact ⟨isFinite_abs hf, (hlt.1 h).le, le_rfl⟩
  · next h => exact ⟨hm, le_rfl, not_lt.1 (mt hlt.2 h)⟩

theorem foldl_greaterMagnitude_bounds {fs : List F64} (hfs : ∀ g ∈ fs, g.isFinite = true) {m : F64}
    (hm : m.isFinite = true) :
    (fs.foldl greaterMagnitude m).isFinite = true ∧ m.value ≤ (fs.foldl greaterMagnitude m).value ∧
      ∀ g ∈ fs, |g.value| ≤ (fs.foldl greaterMagnitude m).value := by
  induction fs generalizing m with
  | nil => exact ⟨hm, le_rfl, nofun⟩
  | cons f rest ih =>
    obtain ⟨hf, hrest⟩ := List.forall_mem_cons.1 hfs
    obtain ⟨hfin, hmle, hfle⟩ := greaterMagnitude_bounds hm hf
    obtain ⟨hrfin, hle, hall⟩ := ih hrest hfin
    exact ⟨hrfin, hmle.trans hle, List.forall_mem_cons.2 ⟨hfle.trans hle, hall⟩⟩

/-- The scale of finite values is finite and bounds their magnitudes. -/
theorem scaleOf_bounds {fs : List F64} (hfs : ∀ g ∈ fs, g.isFinite = true) :
    (scaleOf fs).isFinite = true ∧ ∀ g ∈ fs, |g.value| ≤ (scaleOf fs).value := by
  obtain ⟨hfin, -, hle⟩ := foldl_greaterMagnitude_bounds hfs (m := zero) (by decide)
  exact ⟨hfin, hle⟩

/-- 0.5 + 0.5 × q for a finite `q` in [-1, 1]. -/
theorem half_add_half_mul_bounds {q : F64} (hq : q.isFinite = true) (hle : |q.value| ≤ 1) :
    let a := half.add (half.mul q)
    a.isFinite = true ∧ 0 ≤ a.value ∧ a.value ≤ 1 := by
  obtain ⟨hhalf, hval⟩ := isFinite_and_value_half
  obtain ⟨hone, hval1⟩ := isFinite_and_value_one
  have hprod : |half.value * q.value| ≤ half.value := by
    rw [abs_mul, hval]
    norm_num
    linarith
  obtain ⟨hpfin, hpval⟩ := (correctlyRounds_mul hhalf hq).isFinite_and_abs_value_le hhalf hprod
  rw [hval, abs_le] at hpval
  have hr := correctlyRounds_add hhalf hpfin
  rw [hval] at hr
  have hsum : |1 / 2 + (half.mul q).value| ≤ one.value := by
    rw [hval1, abs_le]
    constructor <;> linarith
  obtain ⟨hfin, hle1⟩ := hr.isFinite_and_abs_value_le hone hsum
  rw [hval1] at hle1
  exact ⟨hfin, hr.value_nonneg hfin (by linarith), (abs_le.1 hle1).2⟩

/-- A renormalised value lies in [0, 1] when the scale bounds the raw one. -/
theorem renormalize_bounds {scale f : F64} (hs : scale.isFinite = true) (hf : f.isFinite = true)
    (hle : |f.value| ≤ scale.value) (hpos : F64.zero.lt scale = true) :
    (renormalize scale f).isFinite = true ∧ 0 ≤ (renormalize scale f).value ∧ (renormalize scale f).value ≤ 1 := by
  obtain ⟨hone, hval1⟩ := isFinite_and_value_one
  have hpos' : 0 < scale.value := by
    rwa [lt_iff_value (by decide) (isNaN_eq_false_of_isFinite hs), value_zero] at hpos
  have hquot : |f.value / scale.value| ≤ one.value := by
    rw [hval1, abs_div, abs_of_pos hpos']
    exact div_le_one_of_le₀ hle hpos'.le
  obtain ⟨hqfin, hqle⟩ := (correctlyRounds_div hf hs hpos'.ne').isFinite_and_abs_value_le hone hquot
  rw [renormalize, if_pos hpos]
  exact half_add_half_mul_bounds hqfin (hval1 ▸ hqle)

end Sys2Proof.Machine

namespace Sys2Proof

open Machine

/-- Settles O24: the scale bounds the magnitude of every raw value. -/
theorem renormalizedInUnitInterval : Obligations.RenormalizedInUnitInterval := by
  intro fs f hfs hf hpos
  obtain ⟨hfin, hle⟩ := scaleOf_bounds hfs
  exact renormalize_bounds hfin (hfs f hf) (hle f hf) hpos

end Sys2Proof
end

section
/-! PROOF. DCT_FWD and DCT_INV (42_dct.md R164 to R168): their words, what each raises, what it writes, and that every
element reads back what was written there. -/

namespace Sys2Proof.Machine

/-! ## The command words -/

theorem toNat_field (c : Channel) : c.field.toNat = chanIndex c := by cases c <;> rfl

/-- A command word as the sum of its fields, each at its lowest bit (30_encoding.md R100). -/
theorem commandWord_eq_ofNat (op : BitVec 8) (ch : BitVec 2) (nx ny : BitVec 3) :
    commandWord op ch nx ny =
      BitVec.ofNat 32 (op.toNat + ch.toNat * 2 ^ 8 + nx.toNat * 2 ^ 12 + ny.toNat * 2 ^ 16) := by
  apply BitVec.eq_of_toNat_eq
  simp only [commandWord, toNat_append_eq_add, BitVec.toNat_ofNat]
  omega

theorem decodeWord_dctFwd (c : Channel) {nx ny : ℕ} (hx : nx ≤ 7) (hy : ny ≤ 7) :
    decodeWord (BitVec.ofNat 32 (0x11 + chanIndex c * 2 ^ 8 + nx * 2 ^ 12 + ny * 2 ^ 16)) = .ok (.dctFwd c nx ny) := by
  have hfx : fitsExtentField nx = true := decide_eq_true hx
  have hfy : fitsExtentField ny = true := decide_eq_true hy
  have hword : encode (.dctFwd c nx ny) =
      BitVec.ofNat 32 (0x11 + chanIndex c * 2 ^ 8 + nx * 2 ^ 12 + ny * 2 ^ 16) := by
    rw [encode, commandWord_eq_ofNat, toNat_field, toNat_ofNat_of_fits hfx, toNat_ofNat_of_fits hfy]
    rfl
  rw [← hword]
  exact decodeOfEncode _ (Bool.and_eq_true_iff.2 ⟨hfx, hfy⟩)

theorem decodeWord_dctInv (c : Channel) :
    decodeWord (BitVec.ofNat 32 (0x1B + chanIndex c * 2 ^ 8)) = .ok (.dctInv c) := by
  have hword : encode (.dctInv c) = BitVec.ofNat 32 (0x1B + chanIndex c * 2 ^ 8) := by
    rw [encode, commandWord_eq_ofNat, toNat_field]
    rfl
  rw [← hword]
  exact decodeOfEncode _ rfl

/-! ## DCT_FWD: its outcomes -/

section

variable {s : State} {c : Channel} {nx ny : ℕ}

theorem exec_dctFwd_of_not_inRange (h : s.imgDim.inRange = false) :
    exec (.dctFwd c nx ny) s = .next (s.raised 3) :=
  exec_of_error (i := .dctFwd c nx ny) (e := .paramRange) (by simp [commandResult, unitDctFwd, h])

/-- An extent 0 raises the same error as an image out of range. -/
theorem exec_dctFwd_of_extent_zero (h : nx = 0 ∨ ny = 0) :
    exec (.dctFwd c nx ny) s = .next (s.raised 3) := by
  have hz : BitVec.ofNat 3 nx = 0 ∨ BitVec.ofNat 3 ny = 0 := h.imp (congrArg _) (congrArg _)
  refine exec_of_error (i := .dctFwd c nx ny) (e := .paramRange) ?_
  rw [commandResult, unitDctFwd, if_pos hz, ite_self]

/-- The state that DCT_FWD leaves where it does not raise. -/
def State.transformed (s : State) (c : Channel) (nx ny : ℕ) : State :=
  { s.succeeded with
    ext := s.ext.set c ⟨BitVec.ofNat 3 nx, BitVec.ofNat 3 ny⟩
    mem := s.mem.putF64s (s.dctWrites c nx ny) }

/-- Beside the stores only the extents of the record change. -/
theorem State.transformed_frame : s.transformed c nx ny = { s.succeeded with
    ext := s.ext.set c ⟨BitVec.ofNat 3 nx, BitVec.ofNat 3 ny⟩
    mem := (s.transformed c nx ny).mem } := by
  rw [transformed]

/-- An extent in range fits its field, and is not 0 there. -/
theorem extentField_of_bounds {n : ℕ} (h1 : 1 ≤ n) (h7 : n ≤ 7) :
    (BitVec.ofNat 3 n).toNat = n ∧ BitVec.ofNat 3 n ≠ 0 := by
  have hn : (BitVec.ofNat 3 n).toNat = n := toNat_ofNat_of_fits (decide_eq_true h7)
  refine ⟨hn, fun h => ?_⟩
  rw [h] at hn
  exact absurd hn (by simp; omega)

/-- Here the extents and the memory are variables, so that `rfl` does not run the list of writes. -/
theorem State.finish_record (s : State) (ext : PerChannel Ext) (mem : Memory) :
    State.finish { s with ext := ext, mem := mem } none = { s.succeeded with ext := ext, mem := mem } := rfl

theorem exec_dctFwd_of_inRange (h : s.imgDim.inRange = true) (hx : 1 ≤ nx) (hx7 : nx ≤ 7) (hy : 1 ≤ ny)
    (hy7 : ny ≤ 7) : exec (.dctFwd c nx ny) s = .next (s.transformed c nx ny) := by
  obtain ⟨hnx, hnx0⟩ := extentField_of_bounds hx hx7
  obtain ⟨hny, hny0⟩ := extentField_of_bounds hy hy7
  have hresult : commandResult (.dctFwd c nx ny) s = .ok { s with
      ext := s.ext.set c ⟨BitVec.ofNat 3 nx, BitVec.ofNat 3 ny⟩
      mem := s.mem.putF64s (s.dctWrites c nx ny) } := by
    rw [commandResult, unitDctFwd, h, hnx, hny, if_neg (by decide), if_neg (not_or.2 ⟨hnx0, hny0⟩)]
  rw [exec_of_ok hresult, State.finish_record, State.transformed]

/-! ## DCT_FWD: the record -/

/-- The AC values that DCT_FWD writes. -/
def State.renormalizedAc (s : State) (c : Channel) (nx ny : ℕ) : List F64 :=
  (s.rawAc c nx ny).map (renormalize (scaleOf (s.rawAc c nx ny)))

theorem State.length_renormalizedAc : (s.renormalizedAc c nx ny).length = countAc nx ny := by
  rw [renormalizedAc, List.length_map, rawAc, List.length_map, length_acPairs]

theorem State.mem_dctWrites {w : ℕ × F64} : w ∈ s.dctWrites c nx ny ↔
    w = (dcAddr c, s.forwardSum c 0 0) ∨ w = (scaleAddr c, scaleOf (s.rawAc c nx ny)) ∨
      ∃ j, (s.renormalizedAc c nx ny)[j]? = some w.2 ∧ w.1 = acAddr c j := by
  rw [dctWrites, List.mem_cons, List.mem_cons, mem_acWrites, renormalizedAc]

/-- An element of the record reads back what is written there. -/
theorem State.f64_transformed {a : ℕ} {x : F64} (h : (a, x) ∈ s.dctWrites c nx ny) (ha : 0x400 ≤ a) :
    (s.transformed c nx ny).f64 a = x :=
  s.f64_putF64s_of_mem (apart_dctWrites s c nx ny) h (le_trans (by norm_num) ha)

theorem coefBase_le_recordAddr (c : Channel) : 0x400 ≤ recordAddr c := Nat.le_add_right _ _

theorem State.dc_transformed : (s.transformed c nx ny).dc c = s.forwardSum c 0 0 :=
  f64_transformed (mem_dctWrites.2 (.inl rfl)) (coefBase_le_recordAddr c)

theorem State.scale_transformed : (s.transformed c nx ny).scale c = scaleOf (s.rawAc c nx ny) :=
  f64_transformed (mem_dctWrites.2 (.inr (.inl rfl))) ((coefBase_le_recordAddr c).trans (Nat.le_add_right _ _))

theorem State.ac_transformed {j : ℕ} {f : F64} (h : (s.rawAc c nx ny)[j]? = some f) :
    (s.transformed c nx ny).ac c j = renormalize (scaleOf (s.rawAc c nx ny)) f := by
  have hj : (s.renormalizedAc c nx ny)[j]? = some (renormalize (scaleOf (s.rawAc c nx ny)) f) := by
    rw [renormalizedAc, List.getElem?_map, h, Option.map_some]
  refine f64_transformed (mem_dctWrites.2 (.inr (.inr ⟨j, hj, rfl⟩))) ?_
  have := coefBase_le_recordAddr c
  simp only [acAddr]
  omega

theorem State.byte_transformed {a : ℕ} (hdc : ¬(dcAddr c ≤ a ∧ a < dcAddr c + 8))
    (hscale : ¬(scaleAddr c ≤ a ∧ a < scaleAddr c + 8))
    (hac : ∀ j, j < countAc nx ny → ¬(acAddr c j ≤ a ∧ a < acAddr c j + 8)) :
    (s.transformed c nx ny).byte a = s.byte a := by
  refine s.byte_putF64s_of_not_mem fun w hw => ?_
  rcases mem_dctWrites.1 hw with rfl | rfl | ⟨j, hj, hw1⟩
  · exact hdc
  · exact hscale
  · rw [hw1]
    have hlt := (List.getElem?_eq_some_iff.1 hj).1
    exact hac j (length_renormalizedAc ▸ hlt)

theorem State.nac_transformed (hx : 1 ≤ nx) (hx7 : nx ≤ 7) (hy : 1 ≤ ny) (hy7 : ny ≤ 7) :
    ((s.transformed c nx ny).ext.get c).nac.toNat = countAc nx ny := by
  obtain ⟨hnx, hnx0⟩ := extentField_of_bounds hx hx7
  obtain ⟨hny, hny0⟩ := extentField_of_bounds hy hy7
  have hext : (s.transformed c nx ny).ext.get c = ⟨BitVec.ofNat 3 nx, BitVec.ofNat 3 ny⟩ :=
    PerChannel.get_set _ _ _
  rw [hext, Ext.nac_toNat hnx0 hny0, hnx, hny]

end

/-! ## The sum over the pixels as two loops -/

/-- Pixels come row by row. -/
theorem foldl_pixels {α : Type} (f : α → ℕ × ℕ → α) (init : α) (w h : ℕ) :
    (pixels w h).foldl f init =
      (List.range h).foldl (fun acc y => (List.range w).foldl (fun acc x => f acc (x, y)) acc) init := by
  simp only [pixels, List.foldl_flatMap, List.foldl_map]

theorem State.forwardSum_eq (s : State) (c : Channel) (cx cy : ℕ) :
    s.forwardSum c cx cy =
      ((List.range s.imgDim.h.toNat).foldl (fun f y => (List.range s.imgDim.w.toNat).foldl (fun f x =>
        f.add (((s.plane c x y).mul (basis s.imgDim.w.toNat x cx)).mul (basis s.imgDim.h.toNat y cy))) f)
        F64.zero).div (F64.ofNat (s.imgDim.w.toNat * s.imgDim.h.toNat)) := by
  rw [State.forwardSum, foldl_pixels]

/-! ## DCT_INV -/

section

variable {s : State} {c : Channel}

/-- The state that DCT_INV leaves where it does not raise. -/
def State.reconstructed (s : State) (c : Channel) : State :=
  { s.succeeded with mem := s.mem.putF64s (s.planeWrites c) }

theorem exec_dctInv_of_not_inRange (h : s.outDim.inRange = false) :
    exec (.dctInv c) s = .next (s.raised 3) :=
  exec_of_error (i := .dctInv c) (e := .paramRange) (by simp [commandResult, unitDctInv, h])

theorem exec_dctInv_of_extent_zero (h : s.outDim.inRange = true)
    (he : (s.ext.get c).nx = 0 ∨ (s.ext.get c).ny = 0) : exec (.dctInv c) s = .next (s.raised 5) :=
  exec_of_error (i := .dctInv c) (e := .operandMismatch) (by
    rw [commandResult, unitDctInv, h, if_neg (by decide), if_pos he])

theorem exec_dctInv_of_inRange (h : s.outDim.inRange = true)
    (he : ¬((s.ext.get c).nx = 0 ∨ (s.ext.get c).ny = 0)) :
    exec (.dctInv c) s = .next (s.reconstructed c) :=
  exec_of_ok (i := .dctInv c) (t := { s with mem := s.mem.putF64s (s.planeWrites c) })
    (by rw [commandResult, unitDctInv, h, if_neg (by decide), if_neg he])

theorem State.mem_planeWrites {w : ℕ × F64} : w ∈ s.planeWrites c ↔
    ∃ x y, x < s.outDim.w.toNat ∧ y < s.outDim.h.toNat ∧
      w = (planeAddr c x y, s.inverseSum c s.outDim.w.toNat s.outDim.h.toNat x y) := by
  simp only [planeWrites, List.mem_map, Prod.exists, mem_pixels, and_assoc, eq_comm]

theorem State.plane_reconstructed (h : s.outDim.inRange = true) {x y : ℕ} (hx : x < s.outDim.w.toNat)
    (hy : y < s.outDim.h.toNat) :
    (s.reconstructed c).plane c x y = s.inverseSum c s.outDim.w.toNat s.outDim.h.toNat x y := by
  have hbase : 0x240 ≤ planeAddr c x y := by
    simp only [planeAddr, planeBase]
    omega
  exact s.f64_putF64s_of_mem (apart_planeWrites c h) (mem_planeWrites.2 ⟨x, y, hx, hy, rfl⟩) hbase

theorem State.byte_reconstructed {a : ℕ} (h : ∀ x y, x < s.outDim.w.toNat → y < s.outDim.h.toNat →
    ¬(planeAddr c x y ≤ a ∧ a < planeAddr c x y + 8)) : (s.reconstructed c).byte a = s.byte a := by
  refine s.byte_putF64s_of_not_mem fun w hw => ?_
  obtain ⟨x, y, hx, hy, rfl⟩ := mem_planeWrites.1 hw
  exact h x y hx hy

end

/-- The gains are 1.0, or 2.0 for L and A and 2.5 for P and Q. -/
theorem gainOf_eq (p : Params) (c : Channel) :
    p.gainOf c = if p.gain = .unit then F64.one else if c = .P ∨ c = .Q then F64.twoAndHalf else F64.two := by
  obtain ⟨_, _, gain⟩ := p
  cases gain <;> cases c <;> rfl

theorem toNat_lt_one_iff {n : ℕ} (b : BitVec n) : b.toNat < 1 ↔ b = 0 := by
  rw [Nat.lt_one_iff, ← BitVec.toNat_inj]
  rfl

end Sys2Proof.Machine

namespace Sys2Proof

open Machine

/-- Settles O23, one outcome after the other; the elements of the record read back what is written there. -/
theorem dctFwdTransforms : Obligations.DctFwdTransforms := by
  refine fun c nx ny hx7 hy7 => ⟨decodeWord_dctFwd c hx7 hy7, fun s => ⟨fun hdim => ?_, fun hext => ?_,
    fun hW hW' hH hH' hx hy => ?_⟩⟩
  · exact exec_dctFwd_of_not_inRange (Dim.inRange_eq_false_iff.2 hdim)
  · exact exec_dctFwd_of_extent_zero (hext.imp Nat.lt_one_iff.1 Nat.lt_one_iff.1)
  · intro F fs scale
    have hF : s.forwardSum c = F := funext₂ (s.forwardSum_eq c)
    have hfs : s.rawAc c nx ny = fs := by rw [State.rawAc, hF]
    have hscale : scaleOf (s.rawAc c nx ny) = scale := congrArg scaleOf hfs
    refine ⟨s.transformed c nx ny,
      exec_dctFwd_of_inRange (Dim.inRange_iff.2 ⟨hW, hW', hH, hH'⟩) hx hx7 hy hy7, ?_, ?_, fun j f hj => ?_,
      State.nac_transformed hx hx7 hy hy7, State.transformed_frame,
      fun a hdc hsc hac => State.byte_transformed hdc hsc hac⟩
    · rw [State.dc_transformed, hF]
    · rw [State.scale_transformed, hscale]
    · rw [State.ac_transformed (hfs ▸ hj), hscale, renormalize]

/-- Settles O25, one outcome after the other; the elements of the plane read back what is written there. -/
theorem dctInvTransforms : Obligations.DctInvTransforms := by
  refine fun c => ⟨decodeWord_dctInv c, fun s => ⟨fun hdim => ?_, fun hW hW' hH hH' hext => ?_,
    fun hW hW' hH hH' hx hy => ?_⟩⟩
  · exact exec_dctInv_of_not_inRange (Dim.inRange_eq_false_iff.2 hdim)
  · exact exec_dctInv_of_extent_zero (Dim.inRange_iff.2 ⟨hW, hW', hH, hH'⟩)
      (hext.imp (toNat_lt_one_iff _).1 (toNat_lt_one_iff _).1)
  · intro g G
    have hr : s.outDim.inRange = true := Dim.inRange_iff.2 ⟨hW, hW', hH, hH'⟩
    have hext : ¬((s.ext.get c).nx = 0 ∨ (s.ext.get c).ny = 0) := by
      rw [← toNat_lt_one_iff, ← toNat_lt_one_iff]
      omega
    have hG : s.inverseSum c s.outDim.w.toNat s.outDim.h.toNat = G := by
      funext x y
      rw [State.inverseSum, gainOf_eq]
    refine ⟨s.reconstructed c, exec_dctInv_of_inRange hr hext, fun x y hx hy => ?_, rfl,
      fun a ha => State.byte_reconstructed ha⟩
    rw [State.plane_reconstructed hr hx hy, hG]

end Sys2Proof
end

section
/-! PROOF. The nibble stream of a hash (43_quant.md R183): where the AC values of each channel stand in it, and that a
written nibble reads back. -/

namespace Sys2Proof.Machine

/-! ## The stream order -/

theorem Params.floored_eq (p : Params) (n : ℕ) : p.floored n = max (if p.floor = .one then 1 else 3) n := by
  obtain ⟨floor, _, _⟩ := p
  cases floor <;> rfl

/-- nL: the AC count of the luminance extents that LEXT gives. -/
def State.lumaCount (s : State) : ℕ :=
  countAc (s.params.floored s.lext.lx.toNat) (s.params.floored s.lext.ly.toNat)

theorem State.lumaCount_le (s : State) : s.lumaCount ≤ 27 :=
  countAc_le (Params.floored_bounds (by omega)).2.2 (Params.floored_bounds (by omega)).2.2

theorem countAc_chroma : countAc 3 3 = 5 := by decide

theorem countAc_alpha : countAc 5 5 = 14 := by decide

/-- How many nibbles of the stream each channel has. -/
def streamCount (nL : ℕ) : Channel → ℕ
  | .L => nL
  | .P => 5
  | .Q => 5
  | .A => 14

/-- The stream position of AC index 0 of each channel. -/
def streamBase (nL : ℕ) : Channel → ℕ
  | .L => 0
  | .P => nL
  | .Q => nL + 5
  | .A => nL + 10

/-- The number of nibbles of the stream. -/
def streamLength (nL : ℕ) (alpha : Bool) : ℕ := nL + 10 + if alpha then 14 else 0

theorem mem_streamChannels {alpha : Bool} {c : Channel} :
    c ∈ streamChannels alpha ↔ c = .A → alpha = true := by
  cases c <;> cases alpha <;> decide

theorem mem_streamChannels_of_ne {alpha : Bool} {c : Channel} (h : c ≠ .A) : c ∈ streamChannels alpha :=
  mem_streamChannels.2 fun hA => absurd hA h

/-- One value for each nibble of the stream, by channel and AC index. -/
def streamValues {α : Type} (alpha : Bool) (nL : ℕ) (f : Channel → ℕ → α) : List α :=
  (streamChannels alpha).flatMap fun c => (List.range (streamCount nL c)).map (f c)

section

variable {α : Type} {alpha : Bool} {nL : ℕ} {f : Channel → ℕ → α}

theorem length_streamValues : (streamValues alpha nL f).length = streamLength nL alpha := by
  cases alpha <;> simp [streamValues, streamChannels, streamCount, streamLength]

/-- The channels before `c` have the positions below its base. -/
theorem streamChannels_eq_append {c : Channel} (hc : c ∈ streamChannels alpha) :
    ∃ before after, streamChannels alpha = before ++ c :: after ∧
      (before.map (streamCount nL)).sum = streamBase nL c := by
  have heq : streamChannels alpha = .L :: .P :: .Q :: if alpha then [.A] else [] := by cases alpha <;> rfl
  cases c with
  | L => exact ⟨[], _, heq, rfl⟩
  | P => exact ⟨[.L], _, heq, rfl⟩
  | Q => exact ⟨[.L, .P], _, heq, rfl⟩
  | A =>
    rw [if_pos (mem_streamChannels.1 hc rfl)] at heq
    exact ⟨[.L, .P, .Q], _, heq, rfl⟩

theorem getElem?_streamValues {c : Channel} (hc : c ∈ streamChannels alpha) {j : ℕ} (hj : j < streamCount nL c) :
    (streamValues alpha nL f)[streamBase nL c + j]? = some (f c j) := by
  obtain ⟨before, after, heq, hsum⟩ := streamChannels_eq_append (nL := nL) hc
  have hlen : (before.flatMap fun c => (List.range (streamCount nL c)).map (f c)).length = streamBase nL c := by
    simp [List.length_flatMap, hsum]
  rw [streamValues, heq, List.flatMap_append, List.flatMap_cons, List.getElem?_append_right (by omega), hlen,
    Nat.add_sub_cancel_left, List.getElem?_append_left (by simpa using hj)]
  simp [hj]

end

/-! ## Written nibbles -/

theorem toNat_maskAt_of_lt (a : ℕ) {v : ℕ} (hv : v < 16) : (maskAt a (BitVec.ofNat 8 v)).toNat = v := by
  have hv8 : v % 2 ^ 8 = v := Nat.mod_eq_of_lt (by omega)
  rw [maskAt]
  split
  · rw [BitVec.toNat_and, BitVec.toNat_ofNat, hv8]
    exact (Nat.and_two_pow_sub_one_eq_mod v 4).trans (Nat.mod_eq_of_lt hv)
  · rw [BitVec.toNat_ofNat, hv8]

theorem State.nib_putBytes (s : State) {ns : List ℕ} {k v : ℕ} (h : ns[k]? = some v) (hv : v < 16) :
    State.nib { s with mem := s.mem.putBytes (nibWrites ns) } k = v := by
  rw [State.nib, s.byte_putBytes_of_mem (nodup_nibWrites ns) (mem_nibWrites.2 ⟨k, v, h, rfl⟩), toNat_maskAt_of_lt _ hv]

theorem State.byte_putBytes_nibWrites (s : State) {ns : List ℕ} {a : ℕ} (h : ∀ k, k < ns.length → a ≠ nibAddr k) :
    State.byte { s with mem := s.mem.putBytes (nibWrites ns) } a = s.byte a := by
  refine s.byte_putBytes_of_not_mem fun w hw => ?_
  obtain ⟨k, v, hk, rfl⟩ := mem_nibWrites.1 hw
  exact (h k (List.getElem?_eq_some_iff.1 hk).1).symm

end Sys2Proof.Machine
end

section
/-! PROOF. QUANT (43_quant.md R181, R183, R184): what it raises, and that every header field and every nibble is the
quantized value of its map. -/

namespace Sys2Proof.Machine

/-! ## Its checks -/

theorem State.lextEncodable_iff {s : State} : s.lextEncodable = true ↔
    s.lext.lx ≠ 0 ∧ s.lext.ly ≠ 0 ∧
      (if s.lext.landscape then s.lext.lx else s.lext.ly).toNat = limit s.lext.hasAlpha := by
  cases h : s.lext.landscape <;> simp [State.lextEncodable, h, and_assoc]

theorem Lext.toNat_count (e : Lext) :
    e.count.toNat = if e.landscape then e.ly.toNat else e.lx.toNat := apply_ite _ _ _ _

/-- The header's extents are those of LEXT: it stores the shorter one, and the other is the limit (30_encoding.md
R113). -/
theorem State.extents_of_lextEncodable {s : State} (h : s.lextEncodable = true) :
    extents s.lext.hasAlpha s.lext.count.toNat s.lext.landscape = (s.lext.lx.toNat, s.lext.ly.toNat) := by
  obtain ⟨-, -, hlim⟩ := State.lextEncodable_iff.1 h
  rw [extents, Lext.count, ← hlim]
  cases s.lext.landscape <;> rfl

theorem State.count_ne_zero_of_lextEncodable {s : State} (h : s.lextEncodable = true) : s.lext.count ≠ 0 := by
  obtain ⟨hx, hy, -⟩ := State.lextEncodable_iff.1 h
  rw [Lext.count]
  split
  · exact hy
  · exact hx

theorem State.lextEncodable_iff_not {s : State} : s.lextEncodable = true ↔
    ¬(s.lext.lx.toNat < 1 ∨ s.lext.ly.toNat < 1 ∨
      (s.lext.landscape = true ∧ s.lext.lx.toNat ≠ limit s.lext.hasAlpha) ∨
      (s.lext.landscape = false ∧ s.lext.ly.toNat ≠ limit s.lext.hasAlpha)) := by
  rw [State.lextEncodable_iff, toNat_lt_one_iff, toNat_lt_one_iff]
  cases s.lext.landscape <;> simp

theorem State.recordsMatch_iff_not {s : State} : s.recordsMatch = true ↔
    ¬(¬((s.ext.get .L).nx.toNat = s.params.floored s.lext.lx.toNat ∧
        (s.ext.get .L).ny.toNat = s.params.floored s.lext.ly.toNat) ∨
      ¬((s.ext.get .P).nx.toNat = 3 ∧ (s.ext.get .P).ny.toNat = 3) ∨
      ¬((s.ext.get .Q).nx.toNat = 3 ∧ (s.ext.get .Q).ny.toNat = 3) ∨
      (s.lext.hasAlpha = true ∧ ¬((s.ext.get .A).nx.toNat = 5 ∧ (s.ext.get .A).ny.toNat = 5))) := by
  rw [State.recordsMatch_iff]
  simp only [PerChannel.get, not_or, not_not, not_and_not_right, and_assoc]

/-- The records that the stream holds have its counts. -/
theorem State.nac_of_recordsMatch {s : State} (h : s.recordsMatch = true) {c : Channel}
    (hc : c ∈ streamChannels s.lext.hasAlpha) : (s.ext.get c).nac.toNat = streamCount s.lumaCount c := by
  obtain ⟨⟨hL, hP⟩, hQ, hA⟩ := State.recordsMatch_iff.1 h
  have hnac : ∀ {e : Ext} {nx ny : ℕ}, e.nx.toNat = nx ∧ e.ny.toNat = ny → 1 ≤ nx → 1 ≤ ny →
      e.nac.toNat = countAc nx ny := by
    rintro e _ _ ⟨rfl, rfl⟩ hx hy
    exact Ext.nac_toNat (fun h0 => by simp [h0] at hx) (fun h0 => by simp [h0] at hy)
  cases c with
  | L => exact hnac hL (Params.floored_bounds (by omega)).1 (Params.floored_bounds (by omega)).1
  | P => exact (hnac hP (by omega) (by omega)).trans countAc_chroma
  | Q => exact (hnac hQ (by omega) (by omega)).trans countAc_chroma
  | A => exact (hnac (hA (mem_streamChannels.1 hc rfl)) (by omega) (by omega)).trans countAc_alpha

theorem State.quantNibbles_eq {s : State} (h : s.recordsMatch = true) : s.quantNibbles =
    streamValues s.lext.hasAlpha s.lumaCount fun c j => quant15 (s.ac c j) := by
  rw [State.quantNibbles, State.streamOrder, List.map_flatMap]
  refine List.flatMap_congr fun c hc => ?_
  rw [State.nac_of_recordsMatch h hc, List.map_map]
  rfl

/-! ## Its outcomes -/

/-- The state that QUANT leaves where it does not raise. -/
def State.quantized (s : State) : State :=
  { s.succeeded with
    hdr24 := s.quantHdr24
    hdr16 := s.quantHdr16
    hdr8 := s.quantHdr8
    nibCount := BitVec.ofNat 6 s.quantNibbles.length
    mem := s.mem.putBytes (nibWrites s.quantNibbles) }

section

variable {s : State}

theorem exec_quant_of_check_fails (h : ¬(s.lextEncodable = true ∧ s.recordsMatch = true)) :
    exec .quant s = .next (s.raised 5) := by
  refine exec_of_error (i := .quant) (e := .operandMismatch) ?_
  cases he : s.lextEncodable with
  | false => simp [commandResult, unitQuant, he]
  | true => simp [commandResult, unitQuant, show s.recordsMatch = false by simpa [he] using h]

theorem exec_quant_of_recordsMatch (he : s.lextEncodable = true) (hr : s.recordsMatch = true) :
    exec .quant s = .next s.quantized := by
  rw [exec_eq, commandResult, unitQuant, he, hr]
  rfl

/-! ## The header -/

theorem quant63_le (v : F64) : quant63 v ≤ 63 := F64.quantize_le _ 6
theorem quantChromaDc_le (v : F64) : quantChromaDc v ≤ 63 := F64.quantize_le _ 6
theorem quant31_le (v : F64) : quant31 v ≤ 31 := F64.quantize_le _ 5
theorem quant15_le (v : F64) : quant15 v ≤ 15 := F64.quantize_le _ 4

theorem State.quantHdr24_toNat : s.quantHdr24.toNat =
    quant63 (s.dc .L) + quantChromaDc (s.dc .P) * 2 ^ 6 + quantChromaDc (s.dc .Q) * 2 ^ 12 +
      quant31 (s.scale .L) * 2 ^ 18 + s.lext.hasAlpha.toNat * 2 ^ 23 := by
  have hL := quant63_le (s.dc .L)
  have hP := quantChromaDc_le (s.dc .P)
  have hQ := quantChromaDc_le (s.dc .Q)
  have hS := quant31_le (s.scale .L)
  simp only [State.quantHdr24, toNat_append_eq_add, toNat_bit, BitVec.toNat_ofNat]
  omega

theorem State.quantHdr16_toNat : s.quantHdr16.toNat =
    s.lext.count.toNat + quant63 (s.scale .P) * 2 ^ 3 + quant63 (s.scale .Q) * 2 ^ 9 +
      s.lext.landscape.toNat * 2 ^ 15 := by
  have hP := quant63_le (s.scale .P)
  have hQ := quant63_le (s.scale .Q)
  simp only [State.quantHdr16, toNat_append_eq_add, toNat_bit, BitVec.toNat_ofNat]
  omega

theorem State.quantHdr8_toNat (h : s.lext.hasAlpha = true) : s.quantHdr8.toNat =
    quant15 (s.dc .A) + quant15 (s.scale .A) * 2 ^ 4 := by
  have hD := quant15_le (s.dc .A)
  have hS := quant15_le (s.scale .A)
  simp only [State.quantHdr8, h, if_true, toNat_append_eq_add, BitVec.toNat_ofNat]
  omega

/-- A field is the quotient by its lowest bit's weight, as wide as the field. -/
theorem toNat_extractLsb'_eq_div {n : ℕ} (x : BitVec n) (lo width : ℕ) :
    (x.extractLsb' lo width).toNat = x.toNat / 2 ^ lo % 2 ^ width := by
  rw [BitVec.extractLsb'_toNat, Nat.shiftRight_eq_div_pow]

theorem getLsbD_eq_of_div {n : ℕ} {x : BitVec n} {i : ℕ} {b : Bool} (h : x.toNat / 2 ^ i % 2 = b.toNat) :
    x.getLsbD i = b := by
  rw [BitVec.getLsbD, Nat.testBit_eq_decide_div_mod_eq, h]
  cases b <;> rfl

theorem State.fields_hdr24_quantized : s.quantized.fieldLDc = quant63 (s.dc .L) ∧
    s.quantized.fieldPDc = quantChromaDc (s.dc .P) ∧ s.quantized.fieldQDc = quantChromaDc (s.dc .Q) ∧
    s.quantized.fieldLScale = quant31 (s.scale .L) ∧ s.quantized.fieldHasAlpha = s.lext.hasAlpha := by
  have h : s.quantized.hdr24.toNat = _ := s.quantHdr24_toNat
  have hL := quant63_le (s.dc .L)
  have hP := quantChromaDc_le (s.dc .P)
  have hQ := quantChromaDc_le (s.dc .Q)
  have hS := quant31_le (s.scale .L)
  refine ⟨?_, ?_, ?_, ?_, getLsbD_eq_of_div ?_⟩
  · rw [State.fieldLDc, toNat_extractLsb'_eq_div]; omega
  · rw [State.fieldPDc, toNat_extractLsb'_eq_div]; omega
  · rw [State.fieldQDc, toNat_extractLsb'_eq_div]; omega
  · rw [State.fieldLScale, toNat_extractLsb'_eq_div]; omega
  · have := s.lext.hasAlpha.toNat_lt; omega

theorem State.fields_hdr16_quantized : s.quantized.fieldLCount = s.lext.count.toNat ∧
    s.quantized.fieldPScale = quant63 (s.scale .P) ∧ s.quantized.fieldQScale = quant63 (s.scale .Q) ∧
    s.quantized.fieldLandscape = s.lext.landscape := by
  have h : s.quantized.hdr16.toNat = _ := s.quantHdr16_toNat
  have hP := quant63_le (s.scale .P)
  have hQ := quant63_le (s.scale .Q)
  refine ⟨?_, ?_, ?_, getLsbD_eq_of_div ?_⟩
  · rw [State.fieldLCount, toNat_extractLsb'_eq_div]; omega
  · rw [State.fieldPScale, toNat_extractLsb'_eq_div]; omega
  · rw [State.fieldQScale, toNat_extractLsb'_eq_div]; omega
  · have := s.lext.landscape.toNat_lt; omega

theorem State.fields_hdr8_quantized (halpha : s.lext.hasAlpha = true) :
    s.quantized.fieldADc = quant15 (s.dc .A) ∧ s.quantized.fieldAScale = quant15 (s.scale .A) := by
  have h : s.quantized.hdr8.toNat = _ := s.quantHdr8_toNat halpha
  have hD := quant15_le (s.dc .A)
  have hS := quant15_le (s.scale .A)
  constructor
  · rw [State.fieldADc, toNat_extractLsb'_eq_div]; omega
  · rw [State.fieldAScale, toNat_extractLsb'_eq_div]; omega

/-! ## The nibbles -/

theorem State.nib_quantized (hr : s.recordsMatch = true) {c : Channel} (hc : c ∈ streamChannels s.lext.hasAlpha)
    {j : ℕ} (hj : j < streamCount s.lumaCount c) :
    s.quantized.nib (streamBase s.lumaCount c + j) = quant15 (s.ac c j) := by
  have hget : s.quantNibbles[streamBase s.lumaCount c + j]? = some (quant15 (s.ac c j)) := by
    rw [State.quantNibbles_eq hr]
    exact getElem?_streamValues hc hj
  exact s.nib_putBytes hget (Nat.lt_succ_of_le (quant15_le _))

theorem State.length_quantNibbles (hr : s.recordsMatch = true) :
    s.quantNibbles.length = streamLength s.lumaCount s.lext.hasAlpha := by
  rw [State.quantNibbles_eq hr, length_streamValues]

theorem State.nibCount_quantized (he : s.lextEncodable = true) (hr : s.recordsMatch = true) :
    s.quantized.nibCount.toNat = streamLength s.lumaCount s.lext.hasAlpha := by
  have hle := State.length_quantNibbles_le he hr
  rw [← State.length_quantNibbles hr]
  exact Nat.mod_eq_of_lt (by omega)

theorem State.byte_quantized (hr : s.recordsMatch = true) {a : ℕ}
    (h : ∀ k, k < streamLength s.lumaCount s.lext.hasAlpha → a ≠ nibAddr k) : s.quantized.byte a = s.byte a :=
  s.byte_putBytes_nibWrites fun k hk => h k (State.length_quantNibbles hr ▸ hk)

theorem State.quantized_frame : s.quantized = { s.succeeded with
    hdr24 := s.quantized.hdr24
    hdr16 := s.quantized.hdr16
    hdr8 := s.quantized.hdr8
    nibCount := s.quantized.nibCount
    mem := s.quantized.mem } := rfl

end

end Sys2Proof.Machine

namespace Sys2Proof

open Machine

/-- Settles O27, one outcome after the other; the fields and the nibbles are those of `State.quantized`. -/
theorem quantQuantizes : Obligations.QuantQuantizes := by
  refine ⟨by decide, fun s => ?_⟩
  intro lx ly alpha land lim floor has lextBad recordBad
  have hfloored : ∀ n, s.params.floored n = max floor n := Params.floored_eq s.params
  have hlext : s.lextEncodable = true ↔ ¬lextBad := State.lextEncodable_iff_not
  have hrecord : s.recordsMatch = true ↔ ¬recordBad := by
    rw [State.recordsMatch_iff_not, hfloored, hfloored]
  refine ⟨fun hbad => exec_quant_of_check_fails fun ⟨he, hr⟩ => hbad.elim (hlext.1 he) (hrecord.1 hr),
    fun hgood hgood' => ?_⟩
  have he := hlext.2 hgood
  have hr := hrecord.2 hgood'
  intro nL n
  have hnL : s.lumaCount = nL := by
    rw [State.lumaCount, hfloored, hfloored]
  obtain ⟨hLDc, hPDc, hQDc, hLScale, hAlpha⟩ := s.fields_hdr24_quantized
  obtain ⟨hCount, hPScale, hQScale, hLand⟩ := s.fields_hdr16_quantized
  have hnib : ∀ c ∈ streamChannels alpha, ∀ j, j < streamCount nL c →
      s.quantized.nib (streamBase nL c + j) = quant15 (s.ac c j) := fun c hc j hj => by
    rw [← hnL] at hj ⊢
    exact State.nib_quantized hr hc hj
  have hn : streamLength s.lumaCount s.lext.hasAlpha = n := by rw [hnL, streamLength]
  refine ⟨s.quantized, exec_quant_of_recordsMatch he hr, hLDc, hPDc, hQDc, hLScale, hAlpha,
    hCount.trans s.lext.toNat_count, hPScale, hQScale, hLand, State.fields_hdr8_quantized,
    fun h => if_neg (ne_true_of_eq_false h), fun j hj => ?_, hnib .P (mem_streamChannels_of_ne (by decide)),
    hnib .Q (mem_streamChannels_of_ne (by decide)), fun h => hnib .A (mem_streamChannels.2 fun _ => h),
    (State.nibCount_quantized he hr).trans hn, State.quantized_frame, fun a ha => State.byte_quantized hr (hn ▸ ha)⟩
  exact (congrArg s.quantized.nib (Nat.zero_add j)).symm.trans
    (hnib .L (mem_streamChannels_of_ne (by decide)) j hj)

end Sys2Proof
end

section
/-! PROOF. DEQUANT (43_quant.md R182, R185): what it raises, and that the elements of the records read back as the
values of their maps. -/

namespace Sys2Proof.Machine

/-! ## What it writes -/

/-- The value of each channel's DC (43_quant.md R182). -/
def State.dequantDc (s : State) : Channel → F64
  | .L => dequant63 s.fieldLDc
  | .P => dequantChromaDc s.fieldPDc
  | .Q => dequantChromaDc s.fieldQDc
  | .A => dequant15 s.fieldADc

/-- The value of each channel's scale (43_quant.md R182). -/
def State.dequantScale (s : State) : Channel → F64
  | .L => dequant31 s.fieldLScale
  | .P => dequant63 s.fieldPScale
  | .Q => dequant63 s.fieldQScale
  | .A => dequant15 s.fieldAScale

/-- What DEQUANT writes to the record of `c`. -/
def State.dequantRecord (s : State) (c : Channel) : List (ℕ × F64) :=
  s.fillWrites c (s.dequantDc c) (s.dequantScale c) (streamBase s.lumaCount c) (streamCount s.lumaCount c)

theorem State.dequantWrites_eq (s : State) :
    s.dequantWrites = (streamChannels s.fieldHasAlpha).flatMap s.dequantRecord := by
  rw [State.dequantWrites, countAc_chroma, countAc_alpha]
  cases s.fieldHasAlpha <;> simp only [streamChannels, List.flatMap_cons, List.flatMap_nil, List.append_nil,
    List.append_assoc, if_true, if_false, Bool.false_eq_true] <;> rfl

section

variable {s : State}

theorem State.mem_dequantRecord {c : Channel} {w : ℕ × F64} : w ∈ s.dequantRecord c ↔
    w = (dcAddr c, s.dequantDc c) ∨ w = (scaleAddr c, s.dequantScale c) ∨
      ∃ j, j < streamCount s.lumaCount c ∧
        w = (acAddr c j, dequantAc (s.dequantScale c) (s.nib (streamBase s.lumaCount c + j))) := by
  rw [State.dequantRecord, State.fillWrites, List.mem_cons, List.mem_cons, mem_acWrites]
  refine or_congr_right (or_congr_right (exists_congr fun j => ?_))
  simp only [List.getElem?_eq_some_iff, List.length_map, List.length_range, List.getElem_map, List.getElem_range,
    exists_prop, Prod.ext_iff, and_assoc, eq_comm (b := w.2), and_comm (a := w.2 = _)]

theorem State.mem_dequantWrites {w : ℕ × F64} :
    w ∈ s.dequantWrites ↔ ∃ c ∈ streamChannels s.fieldHasAlpha, w ∈ s.dequantRecord c := by
  rw [State.dequantWrites_eq, List.mem_flatMap]

/-! ## Its outcomes -/

/-- The state that DEQUANT leaves where it does not raise. -/
def State.dequantized (s : State) : State :=
  { s.succeeded with ext := s.dequantExt, mem := s.mem.putF64s s.dequantWrites }

theorem exec_dequant_of_extent_zero (h : s.lext.lx = 0 ∨ s.lext.ly = 0) :
    exec .dequant s = .next (s.raised 5) :=
  exec_of_error (i := .dequant) (e := .operandMismatch) (by rw [commandResult, unitDequant, if_pos h])

theorem exec_dequant_of_extents (h : ¬(s.lext.lx = 0 ∨ s.lext.ly = 0)) :
    exec .dequant s = .next s.dequantized := by
  rw [exec_eq, commandResult, unitDequant, if_neg h, complete_ok, State.finish_record, State.dequantized]

/-! ## The records -/

theorem State.streamCount_le (s : State) (c : Channel) : streamCount s.lumaCount c ≤ 27 := by
  have := s.lumaCount_le
  cases c <;> simp only [streamCount] <;> omega

theorem State.f64_dequantized {c : Channel} (hc : c ∈ streamChannels s.fieldHasAlpha) {a : ℕ} {x : F64}
    (h : (a, x) ∈ s.dequantRecord c) : s.dequantized.f64 a = x := by
  have hrecord : recordAddr c ≤ a := (record_bounds ((length_fillValues ..).trans_le (s.streamCount_le c)) h).1
  have := coefBase_le_recordAddr c
  exact s.f64_putF64s_of_mem (apart_dequantWrites s) (State.mem_dequantWrites.2 ⟨c, hc, h⟩) (by omega)

theorem State.dc_dequantized {c : Channel} (hc : c ∈ streamChannels s.fieldHasAlpha) :
    s.dequantized.dc c = s.dequantDc c :=
  State.f64_dequantized hc (State.mem_dequantRecord.2 (.inl rfl))

theorem State.scale_dequantized {c : Channel} (hc : c ∈ streamChannels s.fieldHasAlpha) :
    s.dequantized.scale c = s.dequantScale c :=
  State.f64_dequantized hc (State.mem_dequantRecord.2 (.inr (.inl rfl)))

theorem State.ac_dequantized {c : Channel} (hc : c ∈ streamChannels s.fieldHasAlpha) {j : ℕ}
    (hj : j < streamCount s.lumaCount c) : s.dequantized.ac c j =
      dequantAc (s.dequantScale c) (s.nib (streamBase s.lumaCount c + j)) :=
  State.f64_dequantized hc (State.mem_dequantRecord.2 (.inr (.inr ⟨j, hj, rfl⟩)))

theorem State.byte_dequantized {a : ℕ} (h : ∀ c ∈ streamChannels s.fieldHasAlpha,
    ¬(dcAddr c ≤ a ∧ a < dcAddr c + 16) ∧
      ¬(acAddr c 0 ≤ a ∧ a < acAddr c (streamCount s.lumaCount c))) : s.dequantized.byte a = s.byte a := by
  refine s.byte_putF64s_of_not_mem fun w hw => ?_
  obtain ⟨c, hc, hw⟩ := State.mem_dequantWrites.1 hw
  obtain ⟨hhead, hac⟩ := h c hc
  simp only [dcAddr, acAddr] at hhead hac
  rcases State.mem_dequantRecord.1 hw with rfl | rfl | ⟨j, hj, rfl⟩
  · simp only [dcAddr]; omega
  · simp only [scaleAddr]; omega
  · simp only [acAddr]; omega

/-- Beside the stores only the extents of the records change. -/
theorem State.dequantized_frame :
    s.dequantized = { s.succeeded with ext := s.dequantized.ext, mem := s.dequantized.mem } := by
  rw [State.dequantized]

end

end Sys2Proof.Machine

namespace Sys2Proof

open Machine

/-- Settles O28, one outcome after the other; the elements of the records read back what is written there. -/
theorem dequantDequantizes : Obligations.DequantDequantizes := by
  refine ⟨by decide, fun s => ?_⟩
  intro lx ly alpha floor
  refine ⟨fun h => ?_, fun hx hy => ?_⟩
  · exact exec_dequant_of_extent_zero (h.imp (toNat_lt_one_iff _).1 (toNat_lt_one_iff _).1)
  intro nL f acOf sL sP sQ sA
  have hext : ¬(s.lext.lx = 0 ∨ s.lext.ly = 0) := by
    rw [← toNat_lt_one_iff, ← toNat_lt_one_iff]
    omega
  have hfloored : ∀ n, s.params.floored n = max floor n := Params.floored_eq s.params
  have hnL : s.lumaCount = nL := by
    rw [State.lumaCount, hfloored, hfloored]
  have hL : Channel.L ∈ streamChannels alpha := mem_streamChannels_of_ne (by decide)
  have hP : Channel.P ∈ streamChannels alpha := mem_streamChannels_of_ne (by decide)
  have hQ : Channel.Q ∈ streamChannels alpha := mem_streamChannels_of_ne (by decide)
  have hac : ∀ c ∈ streamChannels alpha, ∀ j, j < streamCount nL c →
      s.dequantized.ac c j = acOf (s.dequantScale c) (s.nib (streamBase nL c + j)) := fun c hc j hj => by
    rw [← hnL] at hj ⊢
    exact State.ac_dequantized hc hj
  refine ⟨s.dequantized, exec_dequant_of_extents hext, ?_, State.dc_dequantized hL, State.dc_dequantized hP,
    State.dc_dequantized hQ, State.scale_dequantized hL, State.scale_dequantized hP, State.scale_dequantized hQ,
    ?_, hac .P hP, hac .Q hQ, fun h => ?_, State.dequantized_frame, fun a hbA hbPQ hbL hbL' => ?_⟩
  · rw [State.dequantized, State.dequantExt, State.dequantNx, State.dequantNy, hfloored, hfloored]
    rfl
  · exact fun j hj => (hac .L hL j hj).trans (by rw [streamBase, Nat.zero_add]; rfl)
  · have hA : Channel.A ∈ streamChannels alpha := mem_streamChannels.2 fun _ => h
    exact ⟨State.dc_dequantized hA, State.scale_dequantized hA, hac .A hA⟩
  · refine State.byte_dequantized fun c hc => ?_
    rw [hnL]
    cases c with
    | L => exact ⟨hbL, hbL'⟩
    | P => exact hbPQ .P (.inl rfl)
    | Q => exact hbPQ .Q (.inr rfl)
    | A => exact hbA .A rfl (mem_streamChannels.1 hc rfl)

end Sys2Proof
end

section
/-! PROOF. A header that QUANT writes comes back from the hash (43_quant.md R184, 44_pack.md R203 to R205): PACK writes
the header's bytes, UNPACK's checks pass on them, and the layout it reads is the one PACK used. -/

namespace Sys2Proof.Machine

/-- A command that completes without ERR did not raise. -/
theorem exec_ok_of_err {i : Instr} {s t : State} (h : exec i s = .next t) (herr : t.status.err = false) :
    ∃ t', commandResult i s = .ok t' ∧ t = t'.finish none := by
  rcases exec_cases h with hok | ⟨e, -, rfl⟩
  · exact hok
  · cases herr

theorem exec_next_unique {i : Instr} {s t t' : State} (h : exec i s = .next t) (h' : exec i s = .next t') : t = t' :=
  Host.Outcome.next.inj (h.symm.trans h')

section

variable {s : State}

/-! ## PACK -/

/-- The state that PACK leaves where it does not raise. -/
def State.packed (s : State) : State :=
  { s.succeeded with
    mem := s.mem.putBytes (hashWrites s.packBytes)
    hashLen := BitVec.ofNat 6 s.packLayout.len
    nibCount := BitVec.ofNat 6 s.packLayout.n }

theorem exec_pack_of_count (h : s.fieldLCount ≠ 0) : exec .pack s = .next s.packed := by
  rw [exec_eq, commandResult, unitPack, if_neg h]
  rfl

theorem State.packLayout_bounds (h : s.fieldLCount ≠ 0) :
    s.packLayout.n ≤ 46 ∧ s.packLayout.len ≤ 29 ∧ 13 ≤ s.packLayout.len := by
  obtain ⟨hn, hlen, hlen', -⟩ := layout_bounds s.params s.fieldHasAlpha s.fieldLandscape (Nat.pos_of_ne_zero h)
    s.fieldLCount_le
  exact ⟨hn, hlen, hlen'⟩

theorem State.hashLen_packed (h : s.fieldLCount ≠ 0) : s.packed.hashLen.toNat = s.packLayout.len := by
  obtain ⟨-, hlen, -⟩ := State.packLayout_bounds h
  exact Nat.mod_eq_of_lt (by omega)

/-- Every byte of the hash reads back. -/
theorem State.hash_packed {i : ℕ} {b : Byte} (hi : i < 32) (h : s.packBytes[i]? = some b) : s.packed.hash i = b := by
  have hnib : inNib (hashAddr i) = false := decide_eq_false (by simp only [hashAddr, hashBase, nibBase]; omega)
  have hbyte := s.byte_putBytes_of_mem (nodup_hashWrites s.packBytes) (mem_hashWrites.2 ⟨i, b, h, rfl⟩)
  exact hbyte.trans (maskAt_of_not_inNib hnib b)

theorem State.hashAlpha_packed : s.packed.hashAlpha = s.fieldHasAlpha := by
  rw [State.hashAlpha, State.hash_packed (b := s.hdr24.extractLsb' 16 8) (by decide) rfl, BitVec.getLsbD_extractLsb']
  rfl

theorem State.hashCount_packed : s.packed.hashCount = s.fieldLCount := by
  rw [State.hashCount, State.hash_packed (b := s.hdr16.extractLsb' 0 8) (by decide) rfl, State.fieldLCount,
    toNat_extractLsb'_eq_div, toNat_extractLsb'_eq_div, toNat_extractLsb'_eq_div]
  omega

theorem State.hashLand_packed : s.packed.hashLand = s.fieldLandscape := by
  rw [State.hashLand, State.hash_packed (b := s.hdr16.extractLsb' 8 8) (by decide) rfl, BitVec.getLsbD_extractLsb']
  rfl

theorem State.hashLayout_packed : s.packed.hashLayout = s.packLayout := by
  rw [State.hashLayout, State.hashAlpha_packed, State.hashCount_packed, State.hashLand_packed]
  rfl

/-! ## UNPACK after PACK -/

/-- The state that UNPACK leaves where it does not raise. -/
def State.unpacked (s : State) : State :=
  { s.succeeded with
    hdr24 := s.hash 2 ++ s.hash 1 ++ s.hash 0
    hdr16 := s.hash 4 ++ s.hash 3
    hdr8 := if s.hashAlpha then s.hash 5 else 0
    nibCount := BitVec.ofNat 6 s.hashLayout.n
    lext := s.unpackLext
    mem := s.mem.putBytes
      (nibWrites ((List.range s.hashLayout.n).map (s.unpackNibble s.hashLayout.hb))) }

theorem exec_unpack_of_hashCheck (h : s.hashCheck = none) : exec .unpack s = .next s.unpacked := by
  rw [exec_eq, commandResult, unitUnpack, h]
  rfl

theorem State.hashCheck_packed (h : s.fieldLCount ≠ 0) : s.packed.hashCheck = none := by
  obtain ⟨-, hlen, hlen'⟩ := State.packLayout_bounds h
  rw [State.hashCheck, State.hashLen_packed h, State.hashCount_packed, State.hashLayout_packed, if_neg (by omega),
    if_neg (by omega), if_neg (by simp; omega), if_neg h, if_neg (lt_irrefl _)]

/-! ## PACK after QUANT -/

theorem State.fieldLCount_quantized_ne_zero (he : s.lextEncodable = true) : s.quantized.fieldLCount ≠ 0 := by
  rw [s.fields_hdr16_quantized.1]
  exact fun h => State.count_ne_zero_of_lextEncodable he (BitVec.eq_of_toNat_eq h)

/-- The layout of the header that QUANT writes has the extents of LEXT and QUANT's number of nibbles. -/
theorem State.packLayout_quantized (he : s.lextEncodable = true) :
    s.quantized.packLayout.lx = s.lext.lx.toNat ∧ s.quantized.packLayout.ly = s.lext.ly.toNat ∧
      s.quantized.packLayout.n = streamLength s.lumaCount s.lext.hasAlpha := by
  obtain ⟨-, -, -, -, hAlpha⟩ := s.fields_hdr24_quantized
  obtain ⟨hCount, -, -, hLand⟩ := s.fields_hdr16_quantized
  rw [State.packLayout, hAlpha, hCount, hLand, layout, State.extents_of_lextEncodable he]
  exact ⟨rfl, rfl, rfl⟩

theorem State.unpackLext_packed_quantized (he : s.lextEncodable = true) :
    s.quantized.packed.unpackLext = s.lext := by
  obtain ⟨hlx, hly, -⟩ := State.packLayout_quantized he
  obtain ⟨-, -, -, -, hAlpha⟩ := s.fields_hdr24_quantized
  obtain ⟨-, -, -, hLand⟩ := s.fields_hdr16_quantized
  rw [State.unpackLext, State.hashLayout_packed, State.hashAlpha_packed, State.hashLand_packed, hlx, hly, hAlpha,
    hLand, BitVec.ofNat_toNat, BitVec.ofNat_toNat, BitVec.setWidth_eq, BitVec.setWidth_eq]

theorem State.nibCount_unpacked_packed_quantized (he : s.lextEncodable = true) (hr : s.recordsMatch = true) :
    s.quantized.packed.unpacked.nibCount = s.quantized.nibCount := by
  obtain ⟨-, -, hn⟩ := State.packLayout_quantized he
  rw [State.unpacked, State.hashLayout_packed, hn, ← State.length_quantNibbles hr]
  rfl

end

end Sys2Proof.Machine

namespace Sys2Proof

open Machine

/-- Settles O33: each of the three commands leaves the state its rule names, and the header carries the extents from
the first to the last. -/
theorem headerGivesExtentsBack : Obligations.HeaderGivesExtentsBack := by
  intro s t u v hquant herr hpack hunpack
  obtain ⟨t', hresult, -⟩ := exec_ok_of_err hquant herr
  obtain ⟨he, hr, -⟩ := unitQuant_ok hresult
  have hcount := State.fieldLCount_quantized_ne_zero he
  obtain rfl := exec_next_unique hquant (exec_quant_of_recordsMatch he hr)
  obtain rfl := exec_next_unique hpack (exec_pack_of_count hcount)
  obtain rfl := exec_next_unique hunpack (exec_unpack_of_hashCheck (State.hashCheck_packed hcount))
  exact ⟨rfl, rfl, State.unpackLext_packed_quantized he, State.nibCount_unpacked_packed_quantized he hr⟩

end Sys2Proof
end

section
/-! PROOF. PACK (44_pack.md R201, R203): the length table, and that the bytes of HASHBUF are those of the header and of
the nibble stream. -/

namespace Sys2Proof.Machine

/-! ## The layout -/

section

variable (p : Params) (alpha : Bool) (count : ℕ) (land : Bool)

theorem layout_lx : (layout p alpha count land).lx = if land then limit alpha else count := by cases land <;> rfl

theorem layout_ly : (layout p alpha count land).ly = if land then count else limit alpha := by cases land <;> rfl

theorem layout_nL : (layout p alpha count land).nL =
    countAc (p.floored (layout p alpha count land).lx) (p.floored (layout p alpha count land).ly) := rfl

theorem layout_nL_eq_ite : (layout p alpha count land).nL =
    if land then countAc (p.floored (limit alpha)) (p.floored count)
    else countAc (p.floored count) (p.floored (limit alpha)) := by cases land <;> rfl

theorem layout_hb : (layout p alpha count land).hb = if alpha then 6 else 5 := rfl

end

/-! ## Nibbles in bytes -/

theorem State.nib_lt (s : State) {k : ℕ} (hk : k < 64) : s.nib k < 16 := by
  have hin : inNib (nibAddr k) = true := decide_eq_true (by simp only [nibAddr, nibBase]; omega)
  rw [State.nib, State.byte, maskAt, if_pos hin, BitVec.toNat_and]
  exact Nat.and_lt_two_pow (n := 4) _ (by decide)

section

variable (s : State) {n k : ℕ}

theorem State.toNat_packNibble_of_lt (hk : k < n) (hn : n ≤ 64) : (s.packNibble n k).toNat = s.nib k := by
  rw [State.packNibble, if_pos hk]
  exact Nat.mod_eq_of_lt (s.nib_lt (by omega))

theorem State.toNat_packNibble_of_le (h : n ≤ k) : (s.packNibble n k).toNat = 0 :=
  congrArg BitVec.toNat (if_neg (by omega))

theorem State.toNat_packByte (n j : ℕ) : (s.packByte n j).toNat =
    (s.packNibble n (2 * j + 1)).toNat * 2 ^ 4 + (s.packNibble n (2 * j)).toNat := toNat_append_eq_add _ _

/-- Nibble `k` stands in byte `k / 2`: the even one in the low half, the odd one in the high half (30_encoding.md
R115). -/
theorem State.packByte_half (n k : ℕ) :
    (s.packByte n (k / 2)).toNat >>> (4 * (k % 2)) % 16 = (s.packNibble n k).toNat := by
  have hlt := (s.packNibble n k).isLt
  rw [State.toNat_packByte]
  rcases Nat.mod_two_eq_zero_or_one k with h | h
  · rw [h, show 2 * (k / 2) = k by omega, Nat.mul_zero, Nat.shiftRight_zero]
    omega
  · have hlow := (s.packNibble n (2 * (k / 2))).isLt
    rw [h, show 2 * (k / 2) + 1 = k by omega, Nat.shiftRight_eq_div_pow]
    omega

end

/-! ## The bytes of the hash -/

section

variable {s : State}

theorem State.packLayout_len : s.packLayout.len = s.packLayout.hb + ceilHalf s.packLayout.n := rfl

theorem State.packBytes_header {i : ℕ} {b : Byte} (h : s.packHeader[i]? = some b) : s.packBytes[i]? = some b :=
  (List.getElem?_append_left (List.getElem?_eq_some_iff.1 h).1).trans h

theorem State.length_packHeader : s.packHeader.length = s.packLayout.hb := by
  rw [State.packHeader, State.packLayout, layout_hb]
  cases s.fieldHasAlpha <;> rfl

theorem State.packBytes_stream {j : ℕ} (hj : j < ceilHalf s.packLayout.n) :
    s.packBytes[s.packLayout.hb + j]? = some (s.packByte s.packLayout.n j) := by
  rw [State.packBytes, ← State.length_packHeader, List.getElem?_append_right (Nat.le_add_right _ _),
    Nat.add_sub_cancel_left, List.getElem?_map, List.getElem?_range hj]
  rfl

/-! ## HASHBUF after PACK -/

theorem State.header_packed :
    s.packed.hash 0 = s.hdr24.extractLsb' 0 8 ∧ s.packed.hash 1 = s.hdr24.extractLsb' 8 8 ∧
      s.packed.hash 2 = s.hdr24.extractLsb' 16 8 ∧ s.packed.hash 3 = s.hdr16.extractLsb' 0 8 ∧
      s.packed.hash 4 = s.hdr16.extractLsb' 8 8 :=
  ⟨State.hash_packed (by decide) rfl, State.hash_packed (by decide) rfl, State.hash_packed (by decide) rfl,
    State.hash_packed (by decide) rfl, State.hash_packed (by decide) rfl⟩

theorem State.alphaByte_packed (h : s.fieldHasAlpha = true) : s.packed.hash 5 = s.hdr8 :=
  State.hash_packed (by decide) (State.packBytes_header (by rw [State.packHeader, h]; rfl))

theorem State.stream_packed (h : s.fieldLCount ≠ 0) {j : ℕ} (hj : j < ceilHalf s.packLayout.n) :
    s.packed.hash (s.packLayout.hb + j) = s.packByte s.packLayout.n j := by
  obtain ⟨-, hlen, -⟩ := State.packLayout_bounds h
  rw [State.packLayout_len] at hlen
  exact State.hash_packed (by omega) (State.packBytes_stream hj)

/-- A nibble that PACK writes is read from the hash where UNPACK looks for it. -/
theorem State.unpackNibble_packed (h : s.fieldLCount ≠ 0) {k : ℕ} (hk : k < s.packLayout.n) :
    s.packed.unpackNibble s.packLayout.hb k = s.nib k := by
  obtain ⟨hn, -⟩ := State.packLayout_bounds h
  rw [State.unpackNibble, State.stream_packed h (by rw [ceilHalf]; omega), State.packByte_half,
    State.toNat_packNibble_of_lt s hk (by omega)]

/-- An odd number of nibbles leaves the high half of the last byte 0 (30_encoding.md R118). -/
theorem State.padding_packed (h : s.fieldLCount ≠ 0) (hodd : s.packLayout.n % 2 = 1) :
    (s.packed.hash (s.packLayout.len - 1)).toNat < 16 := by
  have hlast : s.packLayout.len - 1 = s.packLayout.hb + s.packLayout.n / 2 := by
    rw [State.packLayout_len, ceilHalf]
    omega
  have hlow := (s.packNibble s.packLayout.n (2 * (s.packLayout.n / 2))).isLt
  rw [hlast, State.stream_packed h (by rw [ceilHalf]; omega), State.toNat_packByte,
    State.toNat_packNibble_of_le s (by omega)]
  omega

theorem State.nibCount_packed (h : s.fieldLCount ≠ 0) : s.packed.nibCount.toNat = s.packLayout.n := by
  obtain ⟨hn, -⟩ := State.packLayout_bounds h
  exact Nat.mod_eq_of_lt (by omega)

theorem State.byte_packed {a : ℕ} (h : ∀ i, i < s.packLayout.len → a ≠ hashAddr i) : s.packed.byte a = s.byte a := by
  refine s.byte_putBytes_of_not_mem fun w hw => ?_
  obtain ⟨i, b, hi, rfl⟩ := mem_hashWrites.1 hw
  exact (h i (s.length_packBytes ▸ (List.getElem?_eq_some_iff.1 hi).1)).symm

theorem State.packed_frame : s.packed = { s.succeeded with
    hashLen := s.packed.hashLen
    nibCount := s.packed.nibCount
    mem := s.packed.mem } := rfl

theorem exec_pack_of_count_zero (h : s.fieldLCount = 0) : exec .pack s = .next (s.raised 2) :=
  exec_of_error (i := .pack) (e := .malformedHash) (by rw [commandResult, unitPack, if_pos h])

end

end Sys2Proof.Machine

namespace Sys2Proof

open Machine

/-- Settles O29, by evaluation of the table in each orientation. -/
theorem layoutTable : Obligations.LayoutTable := by
  intro land
  cases land
  · decide
  · decide

/-- Settles O30: the bytes of the hash are those of `State.packed`, and its layout is the one written out. -/
theorem packWritesHash : Obligations.PackWritesHash := by
  refine ⟨by decide, fun s => ?_⟩
  intro alpha count land floor lim nL n hb len
  have hfloored : ∀ n, s.params.floored n = max floor n := Params.floored_eq s.params
  have hnL : s.packLayout.nL = nL := by
    rw [State.packLayout, layout_nL_eq_ite, hfloored, hfloored]
    rfl
  have hn : s.packLayout.n = n := congrArg (streamLength · alpha) hnL
  have hlen : s.packLayout.len = len := congrArg (hb + ceilHalf ·) hn
  refine ⟨exec_pack_of_count_zero, fun hcount => ?_⟩
  obtain ⟨h0, h1, h2, h3, h4⟩ := State.header_packed (s := s)
  refine ⟨s.packed, exec_pack_of_count hcount, h0, h1, h2, h3, h4, State.alphaByte_packed, fun k hk => ?_,
    fun hodd => ?_, (State.hashLen_packed hcount).trans hlen, (State.nibCount_packed hcount).trans hn,
    State.packed_frame, fun a ha => ?_⟩
  · exact State.unpackNibble_packed hcount (hn ▸ hk)
  · exact hlen ▸ State.padding_packed hcount (hn ▸ hodd)
  · exact State.byte_packed (hlen ▸ ha)

end Sys2Proof
end

section
/-! PROOF. UNPACK (44_pack.md R204, R205): its checks, the registers and nibbles it reads from the hash, and that it
restores what PACK wrote (R203). -/

namespace Sys2Proof.Machine

section

variable {s : State}

/-! ## Its checks -/

theorem State.hashCheck_of_length_gt (h : 32 < s.hashLen.toNat) : s.hashCheck = some .paramRange := if_pos h

theorem State.hashCheck_of_length_le (h : s.hashLen.toNat ≤ 32) : s.hashCheck =
    if s.hashLen.toNat < 5 ∨ (s.hashAlpha = true ∧ s.hashLen.toNat < 6) ∨ s.hashCount = 0 ∨
      s.hashLen.toNat < s.hashLayout.len then some .malformedHash else none := by
  simp only [State.hashCheck, if_neg (not_lt.2 h), ite_or, Bool.and_eq_true, decide_eq_true_eq]

theorem exec_unpack_of_error {e : CmdError} (h : s.hashCheck = some e) :
    exec .unpack s = .next (s.finish (some e)) :=
  exec_of_error (i := .unpack) (by rw [commandResult, unitUnpack, h])

/-! ## The state after UNPACK -/

theorem State.toNat_hdr24_unpacked : s.unpacked.hdr24.toNat =
    (s.hash 0).toNat + (s.hash 1).toNat * 2 ^ 8 + (s.hash 2).toNat * 2 ^ 16 := by
  simp only [State.unpacked, toNat_append_eq_add]
  omega

theorem State.toNat_hdr16_unpacked : s.unpacked.hdr16.toNat = (s.hash 3).toNat + (s.hash 4).toNat * 2 ^ 8 := by
  rw [State.unpacked, toNat_append_eq_add, Nat.add_comm]

theorem State.nib_unpacked {k : ℕ} (hk : k < s.hashLayout.n) :
    s.unpacked.nib k = s.unpackNibble s.hashLayout.hb k := by
  refine s.nib_putBytes ?_ (Nat.mod_lt _ (by decide))
  rw [List.getElem?_map, List.getElem?_range hk]
  rfl

theorem State.nibCount_unpacked (h : s.hashCheck = none) : s.unpacked.nibCount.toNat = s.hashLayout.n := by
  have hn := State.hashLayout_n_le h
  exact Nat.mod_eq_of_lt (by omega)

theorem State.extents_unpacked (h : s.hashCheck = none) :
    s.unpacked.lext.lx.toNat = s.hashLayout.lx ∧ s.unpacked.lext.ly.toNat = s.hashLayout.ly := by
  obtain ⟨-, -, -, hcount, -⟩ := State.hashCheck_none h
  obtain ⟨-, -, -, -, hlx, -, hly, -⟩ := layout_bounds s.params s.hashAlpha s.hashLand hcount s.hashCount_le
  exact ⟨Nat.mod_eq_of_lt (Nat.lt_succ_of_le hlx), Nat.mod_eq_of_lt (Nat.lt_succ_of_le hly)⟩

theorem State.byte_unpacked {a : ℕ} (h : ∀ k, k < s.hashLayout.n → a ≠ nibAddr k) : s.unpacked.byte a = s.byte a :=
  s.byte_putBytes_nibWrites fun k hk => h k (by simpa using hk)

theorem State.unpacked_frame : s.unpacked = { s.succeeded with
    hdr24 := s.unpacked.hdr24
    hdr16 := s.unpacked.hdr16
    hdr8 := s.unpacked.hdr8
    nibCount := s.unpacked.nibCount
    lext := s.unpacked.lext
    mem := s.unpacked.mem } := rfl

/-! ## UNPACK after PACK -/

theorem State.hdr24_unpacked_packed : s.packed.unpacked.hdr24 = s.hdr24 := by
  obtain ⟨h0, h1, h2, -, -⟩ := State.header_packed (s := s)
  apply BitVec.eq_of_toNat_eq
  rw [State.toNat_hdr24_unpacked, h0, h1, h2]
  simp only [toNat_extractLsb'_eq_div]
  omega

theorem State.hdr16_unpacked_packed : s.packed.unpacked.hdr16 = s.hdr16 := by
  obtain ⟨-, -, -, h3, h4⟩ := State.header_packed (s := s)
  apply BitVec.eq_of_toNat_eq
  rw [State.toNat_hdr16_unpacked, h3, h4]
  simp only [toNat_extractLsb'_eq_div]
  omega

/-- HDR8 comes back with alpha from its byte, and without alpha as 0. -/
theorem State.hdr8_unpacked_packed (h : s.fieldHasAlpha = false → s.hdr8 = 0) : s.packed.unpacked.hdr8 = s.hdr8 := by
  rw [State.unpacked, State.hashAlpha_packed]
  cases halpha : s.fieldHasAlpha with
  | false => exact (h halpha).symm
  | true => exact State.alphaByte_packed halpha

theorem State.nibCount_unpacked_packed : s.packed.unpacked.nibCount = s.packed.nibCount := by
  rw [State.unpacked, State.hashLayout_packed, State.packed]

theorem State.nib_unpacked_packed (h : s.fieldLCount ≠ 0) {k : ℕ} (hk : k < s.packLayout.n) :
    s.packed.unpacked.nib k = s.nib k := by
  rw [State.nib_unpacked (by rwa [State.hashLayout_packed]), State.hashLayout_packed, State.unpackNibble_packed h hk]

end

end Sys2Proof.Machine

namespace Sys2Proof

open Machine

/-- Settles O31, one outcome after the other: the checks are those of `State.hashCheck`, and the registers and nibbles
those of `State.unpacked`. -/
theorem unpackReadsHash : Obligations.UnpackReadsHash := by
  refine ⟨by decide, fun s => ?_⟩
  intro len alpha count land floor lim lx ly nL n hb need
  have hfloored : ∀ n, s.params.floored n = max floor n := Params.floored_eq s.params
  have hlx : s.hashLayout.lx = lx := layout_lx ..
  have hly : s.hashLayout.ly = ly := layout_ly ..
  have hnL : s.hashLayout.nL = nL := by
    rw [State.hashLayout, layout_nL, ← State.hashLayout, hlx, hly, hfloored, hfloored]
  have hn : s.hashLayout.n = n := congrArg (streamLength · alpha) hnL
  have hneed : s.hashLayout.len = need := congrArg (hb + ceilHalf ·) hn
  refine ⟨fun h => exec_unpack_of_error (State.hashCheck_of_length_gt h), fun hle hbad => ?_,
    fun hle h5 h6 hcount hlen => ?_⟩
  · refine exec_unpack_of_error (e := .malformedHash) ?_
    rw [State.hashCheck_of_length_le hle, hneed]
    exact if_pos hbad
  · have hcheck : s.hashCheck = none := by
      rw [State.hashCheck_of_length_le hle, hneed]
      refine if_neg ?_
      rintro (h | ⟨halpha, h⟩ | h | h)
      · exact absurd h5 (not_le.2 h)
      · exact absurd (h6 halpha) (not_le.2 h)
      · exact hcount h
      · exact absurd hlen (not_le.2 h)
    obtain ⟨hlx', hly'⟩ := State.extents_unpacked hcheck
    exact ⟨s.unpacked, exec_unpack_of_hashCheck hcheck, State.toNat_hdr24_unpacked, State.toNat_hdr16_unpacked, rfl,
      fun k hk => State.nib_unpacked (hn ▸ hk), (State.nibCount_unpacked hcheck).trans hn, hlx'.trans hlx,
      hly'.trans hly, rfl, rfl, State.unpacked_frame, fun a ha => State.byte_unpacked (hn ▸ ha)⟩

/-- Settles O32: UNPACK's checks pass on what PACK writes, and every byte and nibble is read where it was written. -/
theorem unpackOfPack : Obligations.UnpackOfPack := by
  intro s hcount halpha
  refine ⟨s.packed, s.packed.unpacked, exec_pack_of_count hcount,
    exec_unpack_of_hashCheck (State.hashCheck_packed hcount), rfl, State.hdr24_unpacked_packed,
    State.hdr16_unpacked_packed, State.hdr8_unpacked_packed halpha, State.nibCount_unpacked_packed, fun k hk => ?_⟩
  rw [State.nibCount_unpacked_packed, State.nibCount_packed hcount] at hk
  exact State.nib_unpacked_packed hcount hk

end Sys2Proof
end

section
/-! PROOF. Every step answers a next state with the same build parameters (45_orchestrator.md R226): the engine by the
frame of its command, the host port and the resets because none of them writes the parameters. -/

namespace Sys2Proof.Machine

/-- What every action keeps: the build parameters, and the agenda that its own entry is already off. -/
def State.SameParamsAgenda (s t : State) : Prop := t.params = s.params ∧ t.agenda = s.agenda

/-! ## The host port -/

theorem State.sameParamsAgenda_softReset (s : State) : s.SameParamsAgenda s.softReset := by
  rw [State.softReset, State.abandon]
  split <;> exact ⟨rfl, rfl⟩

theorem State.sameParamsAgenda_writeTarget (s : State) (a : ℕ) (w : Word) (t : Target) :
    s.SameParamsAgenda (s.writeTarget a w t) := by
  cases t with
  | reg r =>
    cases r with
    | ctrl =>
      simp only [State.writeTarget, State.writeReg, State.writeCtrl]
      split
      · exact s.sameParamsAgenda_softReset
      · exact ⟨rfl, rfl⟩
    | _ => exact ⟨rfl, rfl⟩
  | size c => exact ⟨rfl, rfl⟩
  | store => exact ⟨rfl, rfl⟩

theorem State.sameParamsAgenda_transact (s : State) (r : Request) : s.SameParamsAgenda (s.transact r) := by
  cases r with
  | read a =>
    obtain ⟨p, d, he, -⟩ := s.hostRead_eq a
    rw [State.transact, he]
    exact ⟨rfl, rfl⟩
  | write a w =>
    rw [State.transact]
    rcases s.hostWrite_cases a w with he | ⟨t, -, -, he⟩
    · rw [he]
      exact ⟨rfl, rfl⟩
    · rw [he]
      exact s.sameParamsAgenda_writeTarget a.toNat w t

/-! ## The engine -/

theorem exists_exec_next (i : Instr) (s : State) : ∃ t, exec i s = .next t ∧ s.SameParamsAgenda t := by
  obtain ⟨u, e, hu, he⟩ := exec_frame (exec_eq i s)
  exact ⟨_, exec_eq i s, he ▸ ⟨hu.params, hu.agenda⟩⟩

theorem exists_engineStep_next (s : State) : ∃ t, engineStep s = .next t ∧ s.SameParamsAgenda t := by
  rw [engineStep]
  split
  · exact ⟨s, rfl, rfl, rfl⟩
  · split
    · exact ⟨_, rfl, rfl, rfl⟩
    · exact exists_exec_next _ s

theorem exists_act_next (a : Action) (s : State) : ∃ t, act a s = .next t ∧ s.SameParamsAgenda t := by
  cases a with
  | host r => exact ⟨_, rfl, s.sameParamsAgenda_transact r⟩
  | engine => exact exists_engineStep_next s
  | powerOn => exact ⟨_, rfl, rfl, rfl⟩

/-- The first entry of the agenda, if there is one, is used up. -/
theorem exists_step_next (s : State) : ∃ t, step s = .next t ∧ t.params = s.params ∧ t.agenda = s.agenda.tail := by
  rw [step]
  split
  case h_1 hnil =>
    obtain ⟨t, ht, hparams, hagenda⟩ := exists_engineStep_next s
    exact ⟨t, ht, hparams, by rw [hagenda, hnil, List.tail_nil]⟩
  case h_2 a rest hcons =>
    obtain ⟨t, ht, hparams, hagenda⟩ := exists_act_next a { s with agenda := rest }
    exact ⟨t, ht, hparams, by rw [hagenda, hcons, List.tail_cons]⟩

end Sys2Proof.Machine

namespace Sys2Proof

open Machine

/-- Settles O7: CFG is read from the parameters alone. -/
theorem everyStepAnswersNext : Obligations.EveryStepAnswersNext := by
  intro s
  obtain ⟨t, ht, hparams, hagenda⟩ := exists_step_next s
  exact ⟨t, ht, hparams, congrArg Params.cfgWord hparams, hagenda⟩

end Sys2Proof
end

section
/-! PROOF. NOP and SIZE (45_orchestrator.md R220 to R222): what each raises and leaves, and that each side of the output
is an extent of R144 with the base as its limit. -/

namespace Sys2Proof.Machine

/-! ## OUTSIZE -/

/-- OUTSIZE as extents along the sides, the base their limit. -/
theorem outSize_eq (base lx ly : ℕ) : outSize base lx ly =
    if lx > ly then (base, sideExtent base ly lx) else (sideExtent base lx ly, base) := rfl

theorem outSize_of_gt {base lx ly : ℕ} (h : ly < lx) : outSize base lx ly = (base, sideExtent base ly lx) := if_pos h

theorem outSize_of_le {base lx ly : ℕ} (h : lx ≤ ly) : outSize base lx ly = (sideExtent base lx ly, base) :=
  if_neg (not_lt.2 h)

theorem outSize_self {base l : ℕ} (hbase : 1 ≤ base) (hl : 1 ≤ l) : outSize base l l = (base, base) := by
  rw [outSize_of_le le_rfl, sideExtent_self hbase hl]

/-- Both sides are in 1 to the base, and the longer one is the base. -/
theorem outSize_bounds {base lx ly : ℕ} (hbase : 1 ≤ base) (hx : 1 ≤ lx) (hy : 1 ≤ ly) :
    1 ≤ (outSize base lx ly).1 ∧ (outSize base lx ly).1 ≤ base ∧ 1 ≤ (outSize base lx ly).2 ∧
      (outSize base lx ly).2 ≤ base ∧ max (outSize base lx ly).1 (outSize base lx ly).2 = base := by
  have hone : ∀ side m, 1 ≤ sideExtent base side m := fun _ _ => le_max_left _ _
  rcases lt_or_ge ly lx with h | h
  · have hle := sideExtent_le hbase hx h.le
    rw [outSize_of_gt h]
    exact ⟨hbase, le_rfl, hone _ _, hle, max_eq_left hle⟩
  · have hle := sideExtent_le hbase hy h
    rw [outSize_of_le h]
    exact ⟨hone _ _, hle, hbase, le_rfl, max_eq_right hle⟩

/-- The extents that a header gives, for both orientations. -/
theorem extents_eq (alpha : Bool) (count : ℕ) (land : Bool) : extents alpha count land =
    (if land then limit alpha else count, if land then count else limit alpha) := by cases land <;> rfl

theorem extents_pos {alpha : Bool} {count : ℕ} {land : Bool} (h : count ≠ 0) :
    1 ≤ (extents alpha count land).1 ∧ 1 ≤ (extents alpha count land).2 := by
  have hlim := (limit_bounds alpha).1
  have hcount := Nat.pos_of_ne_zero h
  cases land
  · exact ⟨hcount, hlim⟩
  · exact ⟨hlim, hcount⟩

/-! ## SIZE -/

section

variable {s : State}

theorem State.baseInRange_iff : s.baseInRange = true ↔ 1 ≤ s.outBase.toNat ∧ s.outBase.toNat ≤ 128 :=
  decide_eq_true_iff

theorem State.baseInRange_eq_false_iff : s.baseInRange = false ↔ s.outBase.toNat < 1 ∨ s.outBase.toNat > 128 := by
  rw [← Bool.not_eq_true, State.baseInRange_iff]
  omega

/-- The state that SIZE leaves where it does not raise. -/
def State.sized (s : State) : State :=
  { s.succeeded with outDim := ⟨BitVec.ofNat 16 s.sizeResult.1, BitVec.ofNat 16 s.sizeResult.2⟩ }

theorem exec_size_of_count_zero (h : s.fieldLCount = 0) : exec .size s = .next (s.raised 2) :=
  exec_of_error (i := .size) (e := .malformedHash) (by rw [commandResult, unitSize, if_pos h])

theorem exec_size_of_not_baseInRange (h : s.fieldLCount ≠ 0) (hb : s.baseInRange = false) :
    exec .size s = .next (s.raised 3) :=
  exec_of_error (i := .size) (e := .paramRange) (by rw [commandResult, unitSize, if_neg h, hb]; rfl)

theorem exec_size_of_baseInRange (h : s.fieldLCount ≠ 0) (hb : s.baseInRange = true) :
    exec .size s = .next s.sized := by
  rw [exec_eq, commandResult, unitSize, if_neg h, hb]
  rfl

end

end Sys2Proof.Machine

namespace Sys2Proof

open Machine

/-- Settles O15: the completion is all NOP does, and STATUS is read from DONE, ERR and ERR_CODE. -/
theorem nopOnlyCompletes : Obligations.NopOnlyCompletes :=
  ⟨by decide, fun s => ⟨rfl, BitVec.eq_of_toNat_eq s.succeeded.statusWord_toNat⟩⟩

/-- Settles O16, one outcome after the other; the output size is OUTSIZE on the extents of the header. -/
theorem sizeComputesOutDim : Obligations.SizeComputesOutDim := by
  refine ⟨by decide, fun s => ?_⟩
  intro alpha count land base
  refine ⟨exec_size_of_count_zero, fun hcount hbase => ?_, fun hcount hbase hbase' => ?_⟩
  · exact exec_size_of_not_baseInRange hcount (State.baseInRange_eq_false_iff.2 hbase)
  · intro lim lx ly ow oh
    have hextents : extents alpha count land = (lx, ly) := extents_eq alpha count land
    obtain ⟨hlx, hly⟩ := hextents ▸ extents_pos (alpha := alpha) (land := land) hcount
    have hsize : outSize base lx ly = (ow, oh) := by
      rw [outSize_eq]
      exact (apply_ite₂ Prod.mk (lx > ly) _ _ _ _).symm
    have hresult : s.sizeResult = (ow, oh) := by
      rw [← hsize]
      exact congrArg (fun e : ℕ × ℕ => outSize base e.1 e.2) hextents
    have hself : lx = ly → ow = base ∧ oh = base := by
      intro h
      rw [← h, outSize_self hbase hlx, Prod.mk.injEq] at hsize
      exact ⟨hsize.1.symm, hsize.2.symm⟩
    obtain ⟨hw, hw', hh, hh', hmax⟩ := hsize ▸ outSize_bounds hbase hlx hly
    refine ⟨?_, hw, hw', hh, hh', hmax, hself⟩
    rw [exec_size_of_baseInRange hcount (State.baseInRange_iff.2 ⟨hbase, hbase'⟩), State.sized, hresult]

end Sys2Proof
end

section
/-! PROOF. The composites as sequences (45_orchestrator.md R223, R225). A unit command reads neither STATUS nor BUSY,
which is all that a completion writes, so a composite leaves what its unit commands leave one after the other. -/

namespace Sys2Proof.Machine

/-! ## No unit command reads what a completion writes -/

theorem State.dctWrites_succeeded (s : State) (c : Channel) (nx ny : ℕ) :
    s.succeeded.dctWrites c nx ny = s.dctWrites c nx ny := rfl

theorem State.fillWrites_succeeded (s : State) : s.succeeded.fillWrites = s.fillWrites := rfl

theorem State.dequantWrites_succeeded (s : State) : s.succeeded.dequantWrites = s.dequantWrites := by
  simp only [State.dequantWrites, State.fillWrites_succeeded]
  rfl

theorem State.hashCheck_succeeded (s : State) : s.succeeded.hashCheck = s.hashCheck := rfl

/-- Each check and each output is the same in both states. The lists of writes that DCT_FWD and DEQUANT make are
variables here, so that `rfl` does not run them. -/
theorem runUnit_succeeded (u : UnitCmd) (s : State) : runUnit u s.succeeded = (runUnit u s).map State.succeeded := by
  cases u with
  | dctFwd c nx ny =>
    simp only [runUnit, unitDctFwd, apply_ite (Except.map _), s.dctWrites_succeeded]
    generalize s.dctWrites c nx.toNat ny.toNat = ws
    rfl
  | unpack =>
    rw [runUnit, unitUnpack, runUnit, unitUnpack, s.hashCheck_succeeded]
    cases s.hashCheck <;> rfl
  | dequant =>
    simp only [runUnit, unitDequant, apply_ite (Except.map _), s.dequantWrites_succeeded]
    generalize s.dequantWrites = ws
    rfl
  | cscFwd => simp only [runUnit, unitCscFwd, apply_ite (Except.map _)]; rfl
  | quant => simp only [runUnit, unitQuant, apply_ite (Except.map _)]; rfl
  | pack => simp only [runUnit, unitPack, apply_ite (Except.map _)]; rfl
  | size => simp only [runUnit, unitSize, apply_ite (Except.map _)]; rfl
  | dctInv c => simp only [runUnit, unitDctInv, apply_ite (Except.map _)]; rfl
  | cscInv => simp only [runUnit, unitCscInv, apply_ite (Except.map _)]; rfl

theorem runUnits_succeeded (us : List UnitCmd) (s : State) :
    runUnits us s.succeeded = (runUnits us s).map State.succeeded := by
  induction us generalizing s with
  | nil => rfl
  | cons u rest ih =>
    rw [runUnits, runUnits, runUnit_succeeded]
    cases runUnit u s with
    | error e => rfl
    | ok t => exact ih t

theorem exists_runUnits_of_succeeded {us : List UnitCmd} {s v : State} (h : runUnits us s.succeeded = .ok v) :
    ∃ x, runUnits us s = .ok x ∧ x.succeeded = v := by
  rw [runUnits_succeeded] at h
  cases hrun : runUnits us s with
  | error e => rw [hrun] at h; cases h
  | ok x => rw [hrun] at h; exact ⟨x, rfl, Except.ok.inj h⟩

/-! ## Unit commands one after the other -/

/-- The command that performs a unit command alone. -/
def UnitCmd.instr : UnitCmd → Instr
  | .cscFwd => .cscFwd
  | .dctFwd c nx ny => .dctFwd c nx.toNat ny.toNat
  | .quant => .quant
  | .pack => .pack
  | .unpack => .unpack
  | .dequant => .dequant
  | .size => .size
  | .dctInv c => .dctInv c
  | .cscInv => .cscInv

theorem commandResult_instr (u : UnitCmd) (s : State) : commandResult u.instr s = runUnit u s := by
  cases u with
  | dctFwd c nx ny => rw [UnitCmd.instr, commandResult, BitVec.ofNat_toNat, BitVec.ofNat_toNat]; rfl
  | _ => rfl

/-- The commands of `us` complete one after the other from `s` to `t`, and none raises. -/
inductive Completes : List UnitCmd → State → State → Prop where
  | nil (s : State) : Completes [] s s
  | cons {u : UnitCmd} {us : List UnitCmd} {s t v : State} (hexec : exec u.instr s = .next t)
      (herr : t.status.err = false) (hrest : Completes us t v) : Completes (u :: us) s v

theorem Completes.append {us vs : List UnitCmd} {s t v : State} (h : Completes us s t) (k : Completes vs t v) :
    Completes (us ++ vs) s v := by
  induction h with
  | nil => exact k
  | cons hexec herr _ ih => exact .cons hexec herr (ih k)

/-- A sequence in one command leaves the same state, but for the completions on the way. -/
theorem Completes.exists_runUnits {us : List UnitCmd} {s t : State} (h : Completes us s t) :
    ∃ v, runUnits us s = .ok v ∧ v.succeeded = t.succeeded := by
  induction h with
  | nil s => exact ⟨s, rfl, rfl⟩
  | cons hexec herr _ ih =>
    obtain ⟨w, hw, rfl⟩ := exec_ok_of_err hexec herr
    obtain ⟨v, hv, ht⟩ := ih
    obtain ⟨x, hx, rfl⟩ := exists_runUnits_of_succeeded hv
    rw [commandResult_instr] at hw
    exact ⟨x, by rw [runUnits, hw]; exact hx, ht⟩

/-- Nor does the completion of the command before the sequence matter. -/
theorem Completes.exists_runUnits_of_succeeded {us : List UnitCmd} {s t : State} (h : Completes us s.succeeded t) :
    ∃ x, runUnits us s = .ok x ∧ x.succeeded = t.succeeded := by
  obtain ⟨v, hv, ht⟩ := h.exists_runUnits
  obtain ⟨x, hx, rfl⟩ := Machine.exists_runUnits_of_succeeded hv
  exact ⟨x, hx, ht⟩

theorem exec_encode_of_completes {s t : State} (hsize : s.inputSizeWrong = false) (hr : s.imgDim.inRange = true)
    (h : Completes s.forwarded.encodeTail s.forwarded t) : exec .encode s = .next t.succeeded := by
  obtain ⟨x, hx, ht⟩ := Completes.exists_runUnits_of_succeeded
    (s := { s with mem := s.mem.putF64s s.forwardWrites, lext := s.forwardLext }) h
  have hresult : commandResult .encode s = .ok x := by
    rw [commandResult, unitEncode, runUnit, unitCscFwd, hsize, hr]
    exact hx
  rw [exec_of_ok hresult, ← ht]
  rfl

theorem exec_decode_of_completes {s t : State} (hcheck : s.hashCheck = none) (hbase : s.baseInRange = true)
    (h : Completes s.unpacked.decodeTail s.unpacked t) : exec .decode s = .next t.succeeded := by
  obtain ⟨x, hx, ht⟩ := h.exists_runUnits_of_succeeded (s := { s with
    hdr24 := s.hash 2 ++ s.hash 1 ++ s.hash 0
    hdr16 := s.hash 4 ++ s.hash 3
    hdr8 := if s.hashAlpha then s.hash 5 else 0
    nibCount := BitVec.ofNat 6 s.hashLayout.n
    lext := s.unpackLext
    mem := s.mem.putBytes (nibWrites ((List.range s.hashLayout.n).map (s.unpackNibble s.hashLayout.hb))) })
  have hresult : commandResult .decode s = .ok x := by
    rw [commandResult, unitDecode, hcheck, hbase, runUnit, unitUnpack, hcheck]
    exact hx
  rw [exec_of_ok hresult, ← ht]
  rfl

end Sys2Proof.Machine
end

section
/-! PROOF. ENCODE (45_orchestrator.md R223): the extents that CSC_FWD writes pass the checks of every command after it,
and keep the hash within 25 bytes. -/

namespace Sys2Proof.Machine

/-! ## The extents that CSC_FWD writes -/

section

variable {s : State} (hr : s.imgDim.inRange = true)

include hr

/-- LEXT holds the extents of R144, each no more than the limit. -/
theorem State.extents_forwarded :
    s.forwarded.lext.lx.toNat = sideExtent (limit s.forwarded.lext.hasAlpha) s.imgDim.w.toNat
      (max s.imgDim.w.toNat s.imgDim.h.toNat) ∧
    s.forwarded.lext.ly.toNat = sideExtent (limit s.forwarded.lext.hasAlpha) s.imgDim.h.toNat
      (max s.imgDim.w.toNat s.imgDim.h.toNat) := by
  obtain ⟨hW, -, -, -⟩ := Dim.inRange_iff.1 hr
  have hM := hW.trans (le_max_left _ s.imgDim.h.toNat)
  exact ⟨toNat_sideExtent _ hM (le_max_left _ _), toNat_sideExtent _ hM (le_max_right _ _)⟩

theorem State.extents_forwarded_bounds :
    (1 ≤ s.forwarded.lext.lx.toNat ∧ s.forwarded.lext.lx.toNat ≤ limit s.forwarded.lext.hasAlpha) ∧
      1 ≤ s.forwarded.lext.ly.toNat ∧ s.forwarded.lext.ly.toNat ≤ limit s.forwarded.lext.hasAlpha := by
  obtain ⟨hW, -, -, -⟩ := Dim.inRange_iff.1 hr
  have hM := hW.trans (le_max_left _ s.imgDim.h.toNat)
  have hlim := (limit_bounds s.forwarded.lext.hasAlpha).1
  obtain ⟨hlx, hly⟩ := State.extents_forwarded hr
  rw [hlx, hly]
  exact ⟨⟨le_max_left _ _, sideExtent_le hlim hM (le_max_left _ _)⟩,
    le_max_left _ _, sideExtent_le hlim hM (le_max_right _ _)⟩

/-- The longer side has the limit. -/
theorem State.extents_forwarded_longer :
    (s.imgDim.h.toNat ≤ s.imgDim.w.toNat → s.forwarded.lext.lx.toNat = limit s.forwarded.lext.hasAlpha) ∧
      (s.imgDim.w.toNat ≤ s.imgDim.h.toNat → s.forwarded.lext.ly.toNat = limit s.forwarded.lext.hasAlpha) := by
  obtain ⟨hW, -, hH, -⟩ := Dim.inRange_iff.1 hr
  have hlim := (limit_bounds s.forwarded.lext.hasAlpha).1
  obtain ⟨hlx, hly⟩ := State.extents_forwarded hr
  constructor
  · intro h
    rw [hlx, max_eq_left h, sideExtent_self hlim hW]
  · intro h
    rw [hly, max_eq_right h, sideExtent_self hlim hH]

theorem State.lextEncodable_forwarded : s.forwarded.lextEncodable = true := by
  obtain ⟨⟨hx, -⟩, hy, -⟩ := State.extents_forwarded_bounds hr
  obtain ⟨hwide, htall⟩ := State.extents_forwarded_longer hr
  have hland : s.forwarded.lext.landscape = decide (s.imgDim.w.toNat > s.imgDim.h.toNat) := rfl
  refine State.lextEncodable_iff_not.2 ?_
  rw [hland, decide_eq_true_iff, decide_eq_false_iff_not]
  rintro (h | h | ⟨h, h'⟩ | ⟨h, h'⟩)
  · omega
  · omega
  · exact h' (hwide h.le)
  · exact h' (htall (not_lt.1 h))

/-- The header stores the extent of the shorter side, no more than the limit. -/
theorem State.count_forwarded_le : s.forwarded.lext.count.toNat ≤ limit s.forwarded.lext.hasAlpha := by
  obtain ⟨⟨-, hx⟩, -, hy⟩ := State.extents_forwarded_bounds hr
  rw [Lext.toNat_count]
  split
  · exact hy
  · exact hx

end

/-! ## The records -/

section

variable {s : State}

section

variable (s : State) (c : Channel) (nx ny : ℕ)

@[simp] theorem State.transformed_params : (s.transformed c nx ny).params = s.params := rfl
@[simp] theorem State.transformed_outBase : (s.transformed c nx ny).outBase = s.outBase := rfl
@[simp] theorem State.transformed_lext : (s.transformed c nx ny).lext = s.lext := rfl

end

/-- The state after DCT_FWD of L at the extents of R169. -/
def State.lumaTransformed (s : State) : State :=
  s.transformed .L (s.params.floored s.lext.lx.toNat) (s.params.floored s.lext.ly.toNat)

/-- The state after DCT_FWD of L, P and Q. -/
def State.colorTransformed (s : State) : State := (s.lumaTransformed.transformed .P 3 3).transformed .Q 3 3

/-- The state after DCT_FWD of every channel that the image has. -/
def State.allTransformed (s : State) : State :=
  if s.lext.hasAlpha then s.colorTransformed.transformed .A 5 5 else s.colorTransformed

/-- An extent of LEXT as the DCT uses it fits its field. -/
theorem floored_extent_bounds (p : Params) (b : BitVec 3) : 1 ≤ p.floored b.toNat ∧ p.floored b.toNat ≤ 7 := by
  obtain ⟨h1, -, h7⟩ := Params.floored_bounds (p := p) (n := b.toNat) (by omega)
  exact ⟨h1, h7⟩

theorem toNat_ofNat_floored (p : Params) (b : BitVec 3) :
    (BitVec.ofNat 3 (p.floored b.toNat)).toNat = p.floored b.toNat :=
  (extentField_of_bounds (floored_extent_bounds p b).1 (floored_extent_bounds p b).2).1

theorem exec_dctFwd_luma (hr : s.imgDim.inRange = true) :
    exec (.dctFwd .L (s.params.floored s.lext.lx.toNat) (s.params.floored s.lext.ly.toNat)) s =
      .next s.lumaTransformed := by
  obtain ⟨hx1, hx7⟩ := floored_extent_bounds s.params s.lext.lx
  obtain ⟨hy1, hy7⟩ := floored_extent_bounds s.params s.lext.ly
  exact exec_dctFwd_of_inRange hr hx1 hx7 hy1 hy7

theorem exec_dctFwd_chroma {c : Channel} (hr : s.imgDim.inRange = true) :
    exec (.dctFwd c 3 3) s = .next (s.transformed c 3 3) :=
  exec_dctFwd_of_inRange hr (by decide) (by decide) (by decide) (by decide)

theorem exec_dctFwd_alpha (hr : s.imgDim.inRange = true) (h : s.lext.hasAlpha = true) :
    exec (.dctFwd .A 5 5) s.colorTransformed = .next s.allTransformed := by
  rw [State.allTransformed, if_pos h]
  exact exec_dctFwd_of_inRange hr (by decide) (by decide) (by decide) (by decide)

theorem State.allTransformed_lext : s.allTransformed.lext = s.lext := by
  rw [State.allTransformed]
  split <;> simp only [State.colorTransformed, State.lumaTransformed, State.transformed_lext]

theorem State.allTransformed_params : s.allTransformed.params = s.params := by
  rw [State.allTransformed]
  split <;> simp only [State.colorTransformed, State.lumaTransformed, State.transformed_params]

theorem State.allTransformed_outBase : s.allTransformed.outBase = s.outBase := by
  rw [State.allTransformed]
  split <;> simp only [State.colorTransformed, State.lumaTransformed, State.transformed_outBase]

theorem State.allTransformed_status : s.allTransformed.status = ⟨true, false, 0⟩ := by
  rw [State.allTransformed]
  split <;> rfl

theorem State.recordsMatch_allTransformed : s.allTransformed.recordsMatch = true := by
  rw [State.recordsMatch_iff, State.allTransformed_lext, State.allTransformed_params, State.allTransformed]
  split
  · exact ⟨⟨⟨toNat_ofNat_floored _ _, toNat_ofNat_floored _ _⟩, rfl, rfl⟩, ⟨rfl, rfl⟩, fun _ => ⟨rfl, rfl⟩⟩
  next h => exact ⟨⟨⟨toNat_ofNat_floored _ _, toNat_ofNat_floored _ _⟩, rfl, rfl⟩, ⟨rfl, rfl⟩, fun h' => absurd h' h⟩

theorem State.lextEncodable_allTransformed (h : s.lextEncodable = true) : s.allTransformed.lextEncodable = true := by
  rw [State.lextEncodable, State.allTransformed_lext]
  exact h

end

/-! ## The sequence -/

section

variable {s : State}

theorem State.packed_succeeded : s.packed.succeeded = s.packed := rfl

/-- The state that ENCODE leaves where it does not raise. -/
def State.encoded (s : State) : State := s.forwarded.allTransformed.quantized.packed

theorem State.fieldLCount_quantized_forwarded_ne_zero (hr : s.imgDim.inRange = true) :
    s.forwarded.allTransformed.quantized.fieldLCount ≠ 0 :=
  State.fieldLCount_quantized_ne_zero (State.lextEncodable_allTransformed (State.lextEncodable_forwarded hr))

theorem exec_encode_of_inputSizeWrong (h : s.inputSizeWrong = true) : exec .encode s = .next (s.raised 1) :=
  exec_of_error (i := .encode) (e := .invalidInputSize) (by rw [commandResult, unitEncode, h]; rfl)

theorem exec_encode_of_not_inRange (h : s.inputSizeWrong = false) (hr : s.imgDim.inRange = false) :
    exec .encode s = .next (s.raised 3) :=
  exec_of_error (i := .encode) (e := .paramRange) (by rw [commandResult, unitEncode, h, hr]; rfl)

/-- Each command after CSC_FWD completes on what the one before it leaves. -/
theorem State.completes_encodeTail (hr : s.imgDim.inRange = true) (he : s.lextEncodable = true) :
    Completes s.encodeTail s s.allTransformed.quantized.packed := by
  have hL : exec (UnitCmd.dctFwd .L (BitVec.ofNat 3 (s.params.floored s.lext.lx.toNat))
      (BitVec.ofNat 3 (s.params.floored s.lext.ly.toNat))).instr s = .next s.lumaTransformed := by
    rw [UnitCmd.instr, toNat_ofNat_floored, toNat_ofNat_floored]
    exact exec_dctFwd_luma hr
  have hcolor : Completes (s.encodeTail.take 3) s s.colorTransformed :=
    .cons hL rfl (.cons (exec_dctFwd_chroma hr) rfl (.cons (exec_dctFwd_chroma hr) rfl (.nil _)))
  have halpha : Completes (if s.lext.hasAlpha then [.dctFwd .A 5 5] else []) s.colorTransformed s.allTransformed := by
    cases h : s.lext.hasAlpha with
    | true => exact .cons (exec_dctFwd_alpha hr h) (by rw [State.allTransformed_status]) (.nil _)
    | false =>
      rw [State.allTransformed, h]
      exact .nil _
  have he' := State.lextEncodable_allTransformed he
  have hhash : Completes [.quant, .pack] s.allTransformed s.allTransformed.quantized.packed :=
    .cons (exec_quant_of_recordsMatch he' State.recordsMatch_allTransformed) rfl
      (.cons (exec_pack_of_count (State.fieldLCount_quantized_ne_zero he')) rfl (.nil _))
  exact (hcolor.append halpha).append hhash

theorem exec_encode_of_inRange (hsize : s.inputSizeWrong = false) (hr : s.imgDim.inRange = true) :
    exec .encode s = .next s.encoded := by
  have hsequence := State.completes_encodeTail (s := s.forwarded) hr (State.lextEncodable_forwarded hr)
  rw [exec_encode_of_completes hsize hr hsequence, State.packed_succeeded, State.encoded]

/-! ## The length of the hash -/

theorem layout_len_le_of_count_le (p : Params) (alpha land : Bool) {count : ℕ} (h : count ≤ limit alpha) :
    (layout p alpha count land).len ≤ 25 := by
  have key : ∀ f ∈ [1, 3], ∀ alpha land : Bool, ∀ count < 8, count ≤ limit alpha →
      (if alpha then 6 else 5) + ceilHalf (countAc (max f (extents alpha count land).1)
        (max f (extents alpha count land).2) + 10 + if alpha then 14 else 0) ≤ 25 := by decide +kernel
  have hf : p.floorValue ∈ [1, 3] := by
    rcases Params.floorValue_cases p with h | h <;> simp [h]
  exact key _ hf alpha land count (Nat.lt_succ_of_le (h.trans (limit_bounds alpha).2)) h

theorem State.hashLen_encoded_bounds (hr : s.imgDim.inRange = true) :
    13 ≤ s.encoded.hashLen.toNat ∧ s.encoded.hashLen.toNat ≤ 25 := by
  have hcount := State.fieldLCount_quantized_forwarded_ne_zero hr
  obtain ⟨-, -, hlen⟩ := State.packLayout_bounds hcount
  rw [State.encoded, State.hashLen_packed hcount]
  refine ⟨hlen, layout_len_le_of_count_le _ _ _ ?_⟩
  obtain ⟨-, -, -, -, hAlpha⟩ := s.forwarded.allTransformed.fields_hdr24_quantized
  rw [s.forwarded.allTransformed.fields_hdr16_quantized.1, hAlpha, State.allTransformed_lext]
  exact State.count_forwarded_le hr

end

end Sys2Proof.Machine

namespace Sys2Proof

open Machine

/-- Settles O34, one outcome after the other; the states on the way are those of the unit commands alone. -/
theorem encodeIsItsSequence : Obligations.EncodeIsItsSequence := by
  refine ⟨by decide, fun s => ⟨fun hlen => ?_, fun hlen hdim => ?_, fun hlen hW hW' hH hH' => ?_⟩⟩
  · exact exec_encode_of_inputSizeWrong (State.inputSizeWrong_iff.2 hlen)
  · exact exec_encode_of_not_inRange (State.inputSizeWrong_eq_false_iff.2 hlen) (Dim.inRange_eq_false_iff.2 hdim)
  · intro floor
    have hsize := State.inputSizeWrong_eq_false_iff.2 hlen
    have hr : s.imgDim.inRange = true := Dim.inRange_iff.2 ⟨hW, hW', hH, hH'⟩
    have he := State.lextEncodable_allTransformed (State.lextEncodable_forwarded hr)
    obtain ⟨h13, h25⟩ := State.hashLen_encoded_bounds hr
    refine ⟨s.forwarded, s.forwarded.lumaTransformed, s.forwarded.lumaTransformed.transformed .P 3 3,
      s.forwarded.colorTransformed, s.forwarded.allTransformed, s.forwarded.allTransformed.quantized, s.encoded,
      exec_cscFwd_of_inRange hsize hr, rfl, ?_, rfl, exec_dctFwd_chroma hr, rfl,
      exec_dctFwd_chroma (s := s.forwarded.lumaTransformed.transformed .P 3 3) hr, rfl, ?_,
      by rw [State.allTransformed_status], exec_quant_of_recordsMatch he State.recordsMatch_allTransformed, rfl,
      exec_pack_of_count (State.fieldLCount_quantized_forwarded_ne_zero hr), rfl, exec_encode_of_inRange hsize hr, h13,
      h25⟩
    · have hfloored : ∀ n, max floor n = s.params.floored n := fun n => (Params.floored_eq s.params n).symm
      rw [hfloored, hfloored]
      exact exec_dctFwd_luma (s := s.forwarded) hr
    · split
      next h => exact exec_dctFwd_alpha (s := s.forwarded) hr h
      next h => rw [State.allTransformed, if_neg h]

end Sys2Proof
end

section
/-! PROOF. DECODE (45_orchestrator.md R224): what UNPACK reads from a hash that passes its checks passes those of every
command after it, and none of them writes HASHBUF. -/

namespace Sys2Proof.Machine

/-! ## What the commands of DECODE read passes their checks -/

section

variable {s : State}

theorem State.fieldLCount_unpacked : s.unpacked.fieldLCount = s.hashCount := by
  rw [State.fieldLCount, State.hashCount, toNat_extractLsb'_eq_div, toNat_extractLsb'_eq_div,
    State.toNat_hdr16_unpacked]
  omega

theorem State.fieldLCount_unpacked_ne_zero (h : s.hashCheck = none) : s.unpacked.fieldLCount ≠ 0 := by
  obtain ⟨-, -, -, hcount, -⟩ := State.hashCheck_none h
  rw [State.fieldLCount_unpacked]
  exact Nat.ne_zero_of_lt hcount

theorem State.lext_unpacked_ne_zero (h : s.hashCheck = none) :
    ¬(s.unpacked.lext.lx = 0 ∨ s.unpacked.lext.ly = 0) := by
  obtain ⟨-, -, -, hcount, -⟩ := State.hashCheck_none h
  obtain ⟨-, -, -, hlx, -, hly, -⟩ := layout_bounds s.params s.hashAlpha s.hashLand hcount s.hashCount_le
  obtain ⟨hx, hy⟩ := State.extents_unpacked h
  rw [← toNat_lt_one_iff, ← toNat_lt_one_iff, hx, hy, not_or, not_lt, not_lt]
  exact ⟨hlx, hly⟩

/-- No record of a channel that the header names has an extent 0. -/
def State.ExtentsNonzero (s : State) : Prop :=
  ∀ c ∈ streamChannels s.fieldHasAlpha, ¬((s.ext.get c).nx = 0 ∨ (s.ext.get c).ny = 0)

theorem State.extentsNonzero_dequantized : s.dequantized.ExtentsNonzero := by
  intro c hc
  have hfield : ∀ b : BitVec 3, BitVec.ofNat 3 (s.params.floored b.toNat) ≠ 0 := fun b =>
    (extentField_of_bounds (floored_extent_bounds s.params b).1 (floored_extent_bounds s.params b).2).2
  have hext : s.dequantized.ext = s.dequantExt := rfl
  rw [hext, State.dequantExt]
  cases c with
  | L => exact not_or.2 ⟨hfield _, hfield _⟩
  | P => exact not_or.2 ⟨show (3 : BitVec 3) ≠ 0 by decide, show (3 : BitVec 3) ≠ 0 by decide⟩
  | Q => exact not_or.2 ⟨show (3 : BitVec 3) ≠ 0 by decide, show (3 : BitVec 3) ≠ 0 by decide⟩
  | A =>
    have halpha : s.fieldHasAlpha = true := mem_streamChannels.1 hc rfl
    rw [if_pos halpha]
    exact not_or.2 ⟨show (5 : BitVec 3) ≠ 0 by decide, show (5 : BitVec 3) ≠ 0 by decide⟩

theorem State.outDim_sized (hcount : s.fieldLCount ≠ 0) (hbase : s.baseInRange = true) :
    s.sized.outDim.w.toNat = s.sizeResult.1 ∧ s.sized.outDim.h.toNat = s.sizeResult.2 := by
  obtain ⟨hb1, hb128⟩ := State.baseInRange_iff.1 hbase
  obtain ⟨hx, hy⟩ := extents_pos (alpha := s.fieldHasAlpha) (land := s.fieldLandscape) hcount
  obtain ⟨-, hw, -, hh, -⟩ := outSize_bounds hb1 hx hy
  exact ⟨Nat.mod_eq_of_lt (by rw [State.sizeResult]; omega), Nat.mod_eq_of_lt (by rw [State.sizeResult]; omega)⟩

theorem State.inRange_outDim_sized (hcount : s.fieldLCount ≠ 0) (hbase : s.baseInRange = true) :
    s.sized.outDim.inRange = true := by
  obtain ⟨hb1, hb128⟩ := State.baseInRange_iff.1 hbase
  obtain ⟨hx, hy⟩ := extents_pos (alpha := s.fieldHasAlpha) (land := s.fieldLandscape) hcount
  obtain ⟨hw1, hw, hh1, hh, -⟩ := outSize_bounds hb1 hx hy
  obtain ⟨hw', hh'⟩ := State.outDim_sized hcount hbase
  rw [Dim.inRange_iff, hw', hh']
  exact ⟨hw1, hw.trans hb128, hh1, hh.trans hb128⟩

end

/-! ## The planes -/

section

variable {s : State}

@[simp] theorem State.reconstructed_outDim (s : State) (c : Channel) : (s.reconstructed c).outDim = s.outDim := rfl
@[simp] theorem State.reconstructed_hashLen (s : State) (c : Channel) : (s.reconstructed c).hashLen = s.hashLen := rfl
@[simp] theorem State.reconstructed_hdr24 (s : State) (c : Channel) : (s.reconstructed c).hdr24 = s.hdr24 := rfl

/-- The state after DCT_INV of L, P and Q. -/
def State.colorReconstructed (s : State) : State := ((s.reconstructed .L).reconstructed .P).reconstructed .Q

/-- The state after DCT_INV of every channel that the header names. -/
def State.allReconstructed (s : State) : State :=
  if s.fieldHasAlpha then s.colorReconstructed.reconstructed .A else s.colorReconstructed

theorem State.allReconstructed_of_alpha (h : s.fieldHasAlpha = true) :
    s.allReconstructed = s.colorReconstructed.reconstructed .A := if_pos h

theorem State.allReconstructed_of_no_alpha (h : s.fieldHasAlpha = false) : s.allReconstructed = s.colorReconstructed :=
  if_neg (ne_true_of_eq_false h)

theorem State.allReconstructed_status : s.allReconstructed.status = ⟨true, false, 0⟩ := by
  rw [State.allReconstructed]
  split <;> rfl

theorem State.allReconstructed_outDim : s.allReconstructed.outDim = s.outDim := by
  rw [State.allReconstructed]
  split <;> simp only [State.colorReconstructed, State.reconstructed_outDim]

theorem State.allReconstructed_hdr24 : s.allReconstructed.hdr24 = s.hdr24 := by
  rw [State.allReconstructed]
  split <;> simp only [State.colorReconstructed, State.reconstructed_hdr24]

theorem State.allReconstructed_hashLen : s.allReconstructed.hashLen = s.hashLen := by
  rw [State.allReconstructed]
  split <;> simp only [State.colorReconstructed, State.reconstructed_hashLen]

section

variable (hdim : s.outDim.inRange = true) (hext : s.ExtentsNonzero)

include hdim hext

theorem exec_dctInv_L : exec (.dctInv .L) s = .next (s.reconstructed .L) :=
  exec_dctInv_of_inRange hdim (hext .L (mem_streamChannels_of_ne (by decide)))

/-- DCT_INV leaves the size and the extents that the next one reads. -/
theorem exec_dctInv_P : exec (.dctInv .P) (s.reconstructed .L) = .next ((s.reconstructed .L).reconstructed .P) :=
  exec_dctInv_of_inRange hdim (hext .P (mem_streamChannels_of_ne (by decide)))

theorem exec_dctInv_Q : exec (.dctInv .Q) ((s.reconstructed .L).reconstructed .P) = .next s.colorReconstructed :=
  exec_dctInv_of_inRange hdim (hext .Q (mem_streamChannels_of_ne (by decide)))

theorem exec_dctInv_A (h : s.fieldHasAlpha = true) :
    exec (.dctInv .A) s.colorReconstructed = .next s.allReconstructed := by
  rw [State.allReconstructed_of_alpha h]
  exact exec_dctInv_of_inRange hdim (hext .A (mem_streamChannels.2 fun _ => h))

omit hext in
theorem exec_cscInv_allReconstructed : exec .cscInv s.allReconstructed = .next s.allReconstructed.inverted :=
  exec_cscInv_of_inRange (by rw [State.allReconstructed_outDim]; exact hdim)

/-- DECODE from the first DCT_INV on. -/
theorem completes_reconstruction : Completes (s.decodeTail.drop 2) s s.allReconstructed.inverted := by
  have hcolor : Completes [.dctInv .L, .dctInv .P, .dctInv .Q] s s.colorReconstructed :=
    .cons (exec_dctInv_L hdim hext) rfl (.cons (exec_dctInv_P hdim hext) rfl
      (.cons (exec_dctInv_Q hdim hext) rfl (.nil _)))
  have halpha : Completes (if s.fieldHasAlpha then [.dctInv .A] else []) s.colorReconstructed s.allReconstructed := by
    cases h : s.fieldHasAlpha with
    | true => exact .cons (exec_dctInv_A hdim hext h) (by rw [State.allReconstructed_status]) (.nil _)
    | false =>
      rw [State.allReconstructed_of_no_alpha h]
      exact .nil _
  exact (hcolor.append halpha).append (.cons (exec_cscInv_allReconstructed hdim) rfl (.nil _))

end

end

/-! ## The sequence -/

section

variable {s : State}

theorem State.inverted_succeeded : s.inverted.succeeded = s.inverted := rfl

/-- The state before the first DCT_INV. -/
def State.restored (s : State) : State := s.unpacked.dequantized.sized

/-- The state that DECODE leaves where it does not raise. -/
def State.decoded (s : State) : State := s.restored.allReconstructed.inverted

theorem exec_decode_of_error {e : CmdError} (h : s.hashCheck = some e) :
    exec .decode s = .next (s.finish (some e)) :=
  exec_of_error (i := .decode) (by rw [commandResult, unitDecode, h])

theorem exec_decode_of_not_baseInRange (h : s.hashCheck = none) (hb : s.baseInRange = false) :
    exec .decode s = .next (s.raised 3) :=
  exec_of_error (i := .decode) (e := .paramRange) (by rw [commandResult, unitDecode, h, hb]; rfl)

theorem State.extentsNonzero_restored : s.restored.ExtentsNonzero :=
  State.extentsNonzero_dequantized (s := s.unpacked)

section

variable (hcheck : s.hashCheck = none) (hbase : s.baseInRange = true)

include hcheck in
theorem exec_dequant_unpacked : exec .dequant s.unpacked = .next s.unpacked.dequantized :=
  exec_dequant_of_extents (State.lext_unpacked_ne_zero hcheck)

include hcheck hbase

theorem exec_size_dequantized : exec .size s.unpacked.dequantized = .next s.restored :=
  exec_size_of_baseInRange (State.fieldLCount_unpacked_ne_zero hcheck) hbase

theorem State.inRange_outDim_restored : s.restored.outDim.inRange = true :=
  State.inRange_outDim_sized (s := s.unpacked.dequantized) (State.fieldLCount_unpacked_ne_zero hcheck) hbase

theorem State.completes_decodeTail : Completes s.unpacked.decodeTail s.unpacked s.decoded :=
  .cons (exec_dequant_unpacked hcheck) rfl (.cons (exec_size_dequantized hcheck hbase) rfl
    (completes_reconstruction (State.inRange_outDim_restored hcheck hbase) State.extentsNonzero_restored))

theorem exec_decode_of_hashCheck : exec .decode s = .next s.decoded := by
  rw [exec_decode_of_completes hcheck hbase (State.completes_decodeTail hcheck hbase), State.decoded,
    State.inverted_succeeded]

end

end

/-! ## HASHBUF -/

section

variable {s : State} {i : ℕ} (hi : i < 32)

include hi

theorem State.hash_unpacked : s.unpacked.hash i = s.hash i :=
  State.byte_unpacked fun k _ => by simp only [nibAddr, nibBase, hashAddr, hashBase]; omega

theorem State.hash_dequantized : s.dequantized.hash i = s.hash i :=
  State.byte_dequantized fun c _ => by
    have := coefBase_le_recordAddr c
    simp only [dcAddr, acAddr, hashAddr, hashBase]
    omega

omit hi in
theorem State.hash_sized : s.sized.hash i = s.hash i := rfl

theorem State.hash_reconstructed {c : Channel} : (s.reconstructed c).hash i = s.hash i :=
  State.byte_reconstructed fun x y _ _ hle => by simp only [planeAddr, planeBase, hashAddr, hashBase] at hle; omega

theorem State.hash_inverted : s.inverted.hash i = s.hash i :=
  s.byte_inverted fun j _ => by simp only [pixAddr, pixBase, hashAddr, hashBase]; omega

theorem State.hash_allReconstructed : s.allReconstructed.hash i = s.hash i := by
  have hcolor : s.colorReconstructed.hash i = s.hash i := by
    rw [State.colorReconstructed, State.hash_reconstructed hi, State.hash_reconstructed hi, State.hash_reconstructed hi]
  rw [State.allReconstructed]
  split
  · rw [State.hash_reconstructed hi, hcolor]
  · exact hcolor

theorem State.hash_decoded : s.decoded.hash i = s.hash i := by
  rw [State.decoded, State.hash_inverted hi, State.hash_allReconstructed hi, State.restored, State.hash_sized,
    State.hash_dequantized hi, State.hash_unpacked hi]

end

theorem State.hashLen_decoded (s : State) : s.decoded.hashLen = s.hashLen :=
  State.allReconstructed_hashLen (s := s.restored)

end Sys2Proof.Machine

namespace Sys2Proof

open Machine

/-- Settles O35, one outcome after the other; the states on the way are those of the unit commands alone. -/
theorem decodeIsItsSequence : Obligations.DecodeIsItsSequence := by
  refine ⟨by decide, fun s => ⟨fun e he => ?_, fun hcheck hb => ?_, fun hcheck hb hb' => ?_⟩⟩
  · exact ⟨exec_decode_of_error he, exec_unpack_of_error he⟩
  · exact exec_decode_of_not_baseInRange hcheck (State.baseInRange_eq_false_iff.2 hb)
  · have hbase := State.baseInRange_iff.2 ⟨hb, hb'⟩
    have hdim := State.inRange_outDim_restored hcheck hbase
    have hext := State.extentsNonzero_restored (s := s)
    refine ⟨s.unpacked, s.unpacked.dequantized, s.restored, _, _, s.restored.colorReconstructed,
      s.restored.allReconstructed, s.decoded, exec_unpack_of_hashCheck hcheck, rfl, exec_dequant_unpacked hcheck, rfl,
      exec_size_dequantized hcheck hbase, rfl, exec_dctInv_L hdim hext, rfl, exec_dctInv_P hdim hext, rfl,
      exec_dctInv_Q hdim hext, rfl, ?_, by rw [State.allReconstructed_status], exec_cscInv_allReconstructed hdim, rfl,
      exec_decode_of_hashCheck hcheck hbase, fun i hi => State.hash_decoded hi, s.hashLen_decoded⟩
    split
    next h => exact exec_dctInv_A hdim hext h
    next h => exact State.allReconstructed_of_no_alpha (s := s.restored) (Bool.eq_false_iff.2 h)

end Sys2Proof
end

section
/-! PROOF. DECODE after ENCODE (45_orchestrator.md R227 items 2, 4 and 5): UNPACK's checks pass on the hash that PACK
writes, and the header gives SIZE the extents of R144, of which the longer side has the limit. -/

namespace Sys2Proof.Machine

/-! ## OUTSIZE along the longer extent -/

section

variable {base lx ly : ℕ} (hbase : 1 ≤ base)

theorem outSize_snd_of_le (h : lx ≤ ly) : (outSize base lx ly).2 = base := by rw [outSize_of_le h]

include hbase in
theorem outSize_fst_of_ge (hy : 1 ≤ ly) (h : ly ≤ lx) : (outSize base lx ly).1 = base := by
  rcases h.lt_or_eq with h | rfl
  · rw [outSize_of_gt h]
  · rw [outSize_self hbase hy]

end

/-! ## The size of the decoded image -/

section

variable {s : State}

theorem State.packed_outBase : s.packed.outBase = s.outBase := rfl

theorem State.quantized_outBase : s.quantized.outBase = s.outBase := rfl

theorem State.encoded_outBase (s : State) : s.encoded.outBase = s.outBase := by
  rw [State.encoded, State.packed_outBase, State.quantized_outBase, State.allTransformed_outBase]
  rfl

theorem State.hashCheck_encoded (hr : s.imgDim.inRange = true) : s.encoded.hashCheck = none := by
  rw [State.encoded, State.hashCheck_packed (State.fieldLCount_quantized_forwarded_ne_zero hr)]

/-- SIZE reads the header and OUT_BASE only, and DEQUANT changes neither. -/
theorem State.sizeResult_dequantized : s.dequantized.sizeResult = s.sizeResult := rfl

theorem State.sizeResult_unpacked_packed : s.packed.unpacked.sizeResult = s.sizeResult := by
  have hbase : s.packed.unpacked.outBase = s.outBase := rfl
  simp only [State.sizeResult, State.fieldHasAlpha, State.fieldLCount, State.fieldLandscape,
    State.hdr24_unpacked_packed, State.hdr16_unpacked_packed, hbase]

theorem State.sizeResult_quantized (he : s.lextEncodable = true) :
    s.quantized.sizeResult = outSize s.outBase.toNat s.lext.lx.toNat s.lext.ly.toNat := by
  obtain ⟨-, -, -, -, hAlpha⟩ := s.fields_hdr24_quantized
  obtain ⟨hCount, -, -, hLand⟩ := s.fields_hdr16_quantized
  simp only [State.sizeResult, hAlpha, hCount, hLand, State.extents_of_lextEncodable he, State.quantized_outBase]

theorem State.sizeResult_encoded (hr : s.imgDim.inRange = true) : s.encoded.unpacked.sizeResult =
    outSize s.outBase.toNat s.forwarded.lext.lx.toNat s.forwarded.lext.ly.toNat := by
  have he := State.lextEncodable_allTransformed (State.lextEncodable_forwarded hr)
  rw [State.encoded, State.sizeResult_unpacked_packed, State.sizeResult_quantized he, State.allTransformed_outBase,
    State.allTransformed_lext]
  rfl

theorem State.inverted_outDim : s.inverted.outDim = s.outDim := rfl

theorem State.outDim_decoded (hcheck : s.hashCheck = none) (hbase : s.baseInRange = true) :
    s.decoded.outDim.w.toNat = s.unpacked.sizeResult.1 ∧ s.decoded.outDim.h.toNat = s.unpacked.sizeResult.2 := by
  rw [State.decoded, State.inverted_outDim, State.allReconstructed_outDim, State.restored,
    ← State.sizeResult_dequantized]
  exact State.outDim_sized (s := s.unpacked.dequantized) (State.fieldLCount_unpacked_ne_zero hcheck) hbase

end

end Sys2Proof.Machine

namespace Sys2Proof

open Machine

/-- Settles O36: the size is OUTSIZE on the extents of the image. -/
theorem decodeOfEncodeSucceeds : Obligations.DecodeOfEncodeSucceeds := by
  intro s W H base hlen hW hW' hH hH' hb hb'
  have hr : s.imgDim.inRange = true := Dim.inRange_iff.2 ⟨hW, hW', hH, hH'⟩
  have hcheck := State.hashCheck_encoded hr
  have hbase : s.encoded.baseInRange = true := by
    rw [State.baseInRange_iff, State.encoded_outBase]
    exact ⟨hb, hb'⟩
  obtain ⟨hw, hh⟩ := State.outDim_decoded hcheck hbase
  rw [State.sizeResult_encoded hr] at hw hh
  obtain ⟨⟨hx, hx'⟩, hy, hy'⟩ := State.extents_forwarded_bounds hr
  obtain ⟨hwide, htall⟩ := State.extents_forwarded_longer hr
  obtain ⟨hw1, -, hh1, -, hmax⟩ := outSize_bounds hb hx hy
  have hwidth : H ≤ W → (outSize base s.forwarded.lext.lx.toNat s.forwarded.lext.ly.toNat).1 = base := fun h =>
    outSize_fst_of_ge hb hy (hwide h ▸ hy')
  have hheight : W ≤ H → (outSize base s.forwarded.lext.lx.toNat s.forwarded.lext.ly.toNat).2 = base := fun h =>
    outSize_snd_of_le (htall h ▸ hx')
  refine ⟨s.encoded, s.encoded.decoded, exec_encode_of_inRange (State.inputSizeWrong_eq_false_iff.2 hlen) hr, rfl,
    exec_decode_of_hashCheck hcheck hbase, rfl, ?_⟩
  rw [hw, hh]
  exact ⟨hw1, hh1, hmax, fun h => ⟨hwidth h.ge, hheight h.le⟩, fun h => hwidth (Nat.le_of_lt h),
    fun h => hheight (Nat.le_of_lt h)⟩

end Sys2Proof
end

section
/-! PROOF. Two states that read the same byte at some addresses. A command that makes the same writes to both keeps
every such agreement and adds the addresses that it writes. -/

namespace Sys2Proof.Machine

/-! ## Agreement -/

/-- Wherever `s` and `s'` read the same byte, so do `t` and `t'`. -/
def KeepsAgreement (s s' t t' : State) : Prop := ∀ a, s.byte a = s'.byte a → t.byte a = t'.byte a

/-- Both states read the same eight bytes at `a`. -/
def State.SameElement (s s' : State) (a : ℕ) : Prop := ∀ i, i < 8 → s.byte (a + i) = s'.byte (a + i)

section

variable {s s' t t' : State}

theorem State.SameElement.f64_eq {a : ℕ} (h : s.SameElement s' a) : s.f64 a = s'.f64 a := State.f64_eq_of_bytes h

theorem State.SameElement.mono {a : ℕ} (h : s.SameElement s' a) (k : KeepsAgreement s s' t t') :
    t.SameElement t' a :=
  fun i hi => k _ (h i hi)

/-! ## The same writes to both -/

/-- A byte agrees after the same writes if it did before or is written. -/
theorem State.byte_putBytes_congr {ws : List (ℕ × Byte)} {a : ℕ}
    (h : s.byte a = s'.byte a ∨ ∃ w ∈ ws, w.1 = a) :
    State.byte { s with mem := s.mem.putBytes ws } a = State.byte { s' with mem := s'.mem.putBytes ws } a := by
  induction ws generalizing s s' with
  | nil => exact h.resolve_right (by simp)
  | cons w rest ih =>
    refine ih (s := { s with mem := s.mem.put w.1 w.2 }) (s' := { s' with mem := s'.mem.put w.1 w.2 }) ?_
    rw [State.byte_put, State.byte_put]
    by_cases hw : a = w.1
    · left
      rw [if_pos hw, if_pos hw]
    · rw [if_neg hw, if_neg hw]
      refine h.imp_right fun ⟨v, hv, hva⟩ => ⟨v, (List.mem_cons.1 hv).resolve_left ?_, hva⟩
      rintro rfl
      exact hw hva.symm

theorem State.byte_putF64s_congr {ws : List (ℕ × F64)} {a : ℕ}
    (h : s.byte a = s'.byte a ∨ ∃ w ∈ ws, w.1 ≤ a ∧ a < w.1 + 8) :
    State.byte { s with mem := s.mem.putF64s ws } a = State.byte { s' with mem := s'.mem.putF64s ws } a := by
  rw [Memory.putF64s_eq, Memory.putF64s_eq]
  refine State.byte_putBytes_congr (h.imp_right fun hw => ?_)
  have ha : a ∈ (f64Bytes ws).map (·.1) := map_fst_f64Bytes ws ▸ mem_bytesOfF64s.2 hw
  simpa only [List.mem_map] using ha

theorem State.sameElement_putF64s {ws : List (ℕ × F64)} {a : ℕ} {x : F64} (h : (a, x) ∈ ws) :
    State.SameElement { s with mem := s.mem.putF64s ws } { s' with mem := s'.mem.putF64s ws } a :=
  fun i hi => State.byte_putF64s_congr (.inr ⟨(a, x), h, Nat.le_add_right a i, Nat.add_lt_add_left hi a⟩)

end

/-! ## Coefficient records -/

/-- Both states hold the same coefficient record: its extents, DC, SCALE and the AC values below NAC. -/
structure RecordAgrees (s s' : State) (c : Channel) : Prop where
  ext : s.ext.get c = s'.ext.get c
  sameDc : s.SameElement s' (dcAddr c)
  sameScale : s.SameElement s' (scaleAddr c)
  sameAc : ∀ j, j < (s.ext.get c).nac.toNat → s.SameElement s' (acAddr c j)

section

variable {s s' t t' : State} {c : Channel}

theorem RecordAgrees.dc (h : RecordAgrees s s' c) : s.dc c = s'.dc c := h.sameDc.f64_eq

theorem RecordAgrees.scale (h : RecordAgrees s s' c) : s.scale c = s'.scale c := h.sameScale.f64_eq

theorem RecordAgrees.ac (h : RecordAgrees s s' c) {j : ℕ} (hj : j < (s.ext.get c).nac.toNat) : s.ac c j = s'.ac c j :=
  (h.sameAc j hj).f64_eq

/-- A record agrees as long as its extents stay. -/
theorem RecordAgrees.mono (h : RecordAgrees s s' c) (k : KeepsAgreement s s' t t') (ht : t.ext.get c = s.ext.get c)
    (ht' : t'.ext.get c = s'.ext.get c) : RecordAgrees t t' c where
  ext := by rw [ht, ht', h.ext]
  sameDc := h.sameDc.mono k
  sameScale := h.sameScale.mono k
  sameAc := fun j hj => (h.sameAc j (ht ▸ hj)).mono k

end

end Sys2Proof.Machine
end

section
/-! PROOF. ENCODE reads the image, its size and length and the parameters only (45_orchestrator.md R227 item 3): each
command of its sequence makes the same writes to two states that agree on what it reads. -/

namespace Sys2Proof.Machine

/-! ## CSC_FWD -/

/-- Both states hold the same image, size and parameters. -/
structure SameImage (s s' : State) : Prop where
  params : s.params = s'.params
  imgDim : s.imgDim = s'.imgDim
  pix : ∀ i, i < 4 * (s.imgDim.w.toNat * s.imgDim.h.toNat) → s.pix i = s'.pix i

section

variable {s s' : State} (h : SameImage s s')

include h

theorem SameImage.unitPix {i j : ℕ} (hi : i < s.imgDim.w.toNat * s.imgDim.h.toNat) (hj : j < 4) :
    s.unitPix i j = s'.unitPix i j := by
  rw [State.unitPix, State.unitPix, h.pix _ (by omega)]

theorem SameImage.alphaSum : s.alphaSum (s.imgDim.w.toNat * s.imgDim.h.toNat) =
    s'.alphaSum (s.imgDim.w.toNat * s.imgDim.h.toNat) :=
  List.foldl_ext _ _ _ fun acc i hi => by rw [h.unitPix (List.mem_range.1 hi) (by decide)]

theorem SameImage.colorSum {j : ℕ} (hj : j < 4) : s.colorSum j (s.imgDim.w.toNat * s.imgDim.h.toNat) =
    s'.colorSum j (s.imgDim.w.toNat * s.imgDim.h.toNat) :=
  List.foldl_ext _ _ _ fun acc i hi => by
    rw [h.unitPix (List.mem_range.1 hi) (by decide), h.unitPix (List.mem_range.1 hi) hj]

theorem SameImage.average : s.average (s.imgDim.w.toNat * s.imgDim.h.toNat) =
    s'.average (s.imgDim.w.toNat * s.imgDim.h.toNat) := by
  simp only [State.average, h.alphaSum, h.colorSum (j := 0) (by decide), h.colorSum (j := 1) (by decide),
    h.colorSum (j := 2) (by decide)]

theorem SameImage.composite (avg : Rgb) {i : ℕ} (hi : i < s.imgDim.w.toNat * s.imgDim.h.toNat) :
    s.composite avg i = s'.composite avg i := by
  simp only [State.composite, h.unitPix hi (j := 0) (by decide), h.unitPix hi (j := 1) (by decide),
    h.unitPix hi (j := 2) (by decide), h.unitPix hi (j := 3) (by decide)]

theorem SameImage.forwardLext : s.forwardLext = s'.forwardLext := by
  simp only [State.forwardLext, h.alphaSum, ← h.imgDim]

theorem SameImage.forwardWrites : s.forwardWrites = s'.forwardWrites := by
  simp only [State.forwardWrites, ← h.imgDim, ← h.average]
  refine List.flatMap_congr fun xy hxy => ?_
  obtain ⟨hx, hy⟩ := mem_pixels.1 hxy
  have hi : xy.2 * s.imgDim.w.toNat + xy.1 < s.imgDim.w.toNat * s.imgDim.h.toNat := by nlinarith
  rw [h.composite _ hi, h.unitPix hi (by decide)]

end

/-- Both states hold the same planes, LEXT, size and parameters, which is what DCT_FWD reads. -/
structure SamePlanes (s s' : State) : Prop where
  params : s.params = s'.params
  imgDim : s.imgDim = s'.imgDim
  lext : s.lext = s'.lext
  plane : ∀ c x y, x < s.imgDim.w.toNat → y < s.imgDim.h.toNat → s.SameElement s' (planeAddr c x y)

theorem SameImage.forwarded {s s' : State} (h : SameImage s s') : SamePlanes s.forwarded s'.forwarded where
  params := h.params
  imgDim := h.imgDim
  lext := h.forwardLext
  plane := fun c x y hx hy => by
    have hmem : (planeAddr c x y, s.forwardPlane x y c) ∈ s.forwardWrites :=
      State.mem_forwardWrites.2 ⟨c, x, y, hx, hy, rfl⟩
    rw [State.forwarded, State.forwarded, ← h.forwardWrites]
    exact State.sameElement_putF64s (s := s) (s' := s') hmem

/-! ## DCT_FWD -/

theorem PerChannel.get_set_of_ne {α : Type} {c d : Channel} (h : d ≠ c) (v : PerChannel α) (x : α) :
    (v.set c x).get d = v.get d := by
  cases c <;> cases d <;> simp [PerChannel.set, PerChannel.get] at h ⊢

section

variable {s s' : State} (h : SamePlanes s s')

include h

theorem SamePlanes.forwardSum (c : Channel) (cx cy : ℕ) : s.forwardSum c cx cy = s'.forwardSum c cx cy := by
  rw [State.forwardSum, State.forwardSum, ← h.imgDim]
  refine congrArg (F64.div · _) (List.foldl_ext _ _ _ fun f xy hxy => ?_)
  obtain ⟨hx, hy⟩ := mem_pixels.1 hxy
  rw [State.plane, State.plane, (h.plane c xy.1 xy.2 hx hy).f64_eq]

theorem SamePlanes.rawAc (c : Channel) (nx ny : ℕ) : s.rawAc c nx ny = s'.rawAc c nx ny :=
  List.map_congr_left fun p _ => h.forwardSum c p.1 p.2

theorem SamePlanes.dctWrites (c : Channel) (nx ny : ℕ) : s.dctWrites c nx ny = s'.dctWrites c nx ny := by
  rw [State.dctWrites, State.dctWrites, h.rawAc, h.forwardSum]

theorem SamePlanes.keepsAgreement_transformed (c : Channel) (nx ny : ℕ) :
    KeepsAgreement s s' (s.transformed c nx ny) (s'.transformed c nx ny) := fun a ha => by
  rw [State.transformed, State.transformed, ← h.dctWrites]
  exact State.byte_putF64s_congr (s := s) (s' := s') (.inl ha)

theorem SamePlanes.transformed (c : Channel) (nx ny : ℕ) :
    SamePlanes (s.transformed c nx ny) (s'.transformed c nx ny) where
  params := h.params
  imgDim := h.imgDim
  lext := h.lext
  plane := fun d x y hx hy => (h.plane d x y hx hy).mono (h.keepsAgreement_transformed c nx ny)

theorem SamePlanes.sameElement_transformed {c : Channel} {nx ny a : ℕ} {x : F64} (hmem : (a, x) ∈ s.dctWrites c nx ny) :
    (s.transformed c nx ny).SameElement (s'.transformed c nx ny) a := by
  rw [State.transformed, State.transformed, ← h.dctWrites]
  exact State.sameElement_putF64s (s := s) (s' := s') hmem

/-- DCT_FWD writes the whole record of its channel. -/
theorem SamePlanes.record_transformed (c : Channel) {nx ny : ℕ} (hx : 1 ≤ nx) (hx7 : nx ≤ 7) (hy : 1 ≤ ny)
    (hy7 : ny ≤ 7) : RecordAgrees (s.transformed c nx ny) (s'.transformed c nx ny) c where
  ext := (PerChannel.get_set _ _ _).trans (PerChannel.get_set _ _ _).symm
  sameDc := h.sameElement_transformed (State.mem_dctWrites.2 (.inl rfl))
  sameScale := h.sameElement_transformed (State.mem_dctWrites.2 (.inr (.inl rfl)))
  sameAc := fun j hj => by
    rw [State.nac_transformed hx hx7 hy hy7, ← State.length_renormalizedAc (s := s) (c := c)] at hj
    exact h.sameElement_transformed (State.mem_dctWrites.2 (.inr (.inr ⟨j, List.getElem?_eq_getElem hj, rfl⟩)))

/-- It keeps the records of the other channels. -/
theorem SamePlanes.record_transformed_of_ne {c d : Channel} (hne : d ≠ c) {nx ny : ℕ} (hrec : RecordAgrees s s' d) :
    RecordAgrees (s.transformed c nx ny) (s'.transformed c nx ny) d :=
  hrec.mono (h.keepsAgreement_transformed c nx ny) (PerChannel.get_set_of_ne hne _ _) (PerChannel.get_set_of_ne hne _ _)

end

/-- Both states hold the same records, LEXT and parameters, which is what QUANT reads. -/
structure SameRecords (s s' : State) : Prop where
  params : s.params = s'.params
  lext : s.lext = s'.lext
  record : ∀ c ∈ streamChannels s.lext.hasAlpha, RecordAgrees s s' c

section

variable {s s' : State} (h : SamePlanes s s')

include h

theorem SamePlanes.lumaTransformed : SamePlanes s.lumaTransformed s'.lumaTransformed ∧
    RecordAgrees s.lumaTransformed s'.lumaTransformed .L := by
  obtain ⟨hx1, hx7⟩ := floored_extent_bounds s.params s.lext.lx
  obtain ⟨hy1, hy7⟩ := floored_extent_bounds s.params s.lext.ly
  rw [State.lumaTransformed, State.lumaTransformed, ← h.params, ← h.lext]
  exact ⟨h.transformed _ _ _, h.record_transformed .L hx1 hx7 hy1 hy7⟩

theorem SamePlanes.colorTransformed : SamePlanes s.colorTransformed s'.colorTransformed ∧
    ∀ c, c ≠ .A → RecordAgrees s.colorTransformed s'.colorTransformed c := by
  obtain ⟨hplanes, hL⟩ := h.lumaTransformed
  have hplanes' := hplanes.transformed .P 3 3
  have hP := hplanes.record_transformed .P (nx := 3) (ny := 3) (by decide) (by decide) (by decide) (by decide)
  have hLP := hplanes.record_transformed_of_ne (c := .P) (nx := 3) (ny := 3) (by decide) hL
  refine ⟨hplanes'.transformed .Q 3 3, fun c hc => ?_⟩
  cases c with
  | L => exact hplanes'.record_transformed_of_ne (by decide) hLP
  | P => exact hplanes'.record_transformed_of_ne (by decide) hP
  | Q => exact hplanes'.record_transformed .Q (by decide) (by decide) (by decide) (by decide)
  | A => exact absurd rfl hc

theorem SamePlanes.allTransformed : SameRecords s.allTransformed s'.allTransformed := by
  obtain ⟨hplanes, hrec⟩ := h.colorTransformed
  refine ⟨?_, ?_, fun c hc => ?_⟩
  · rw [State.allTransformed_params, State.allTransformed_params, h.params]
  · rw [State.allTransformed_lext, State.allTransformed_lext, h.lext]
  rw [State.allTransformed_lext] at hc
  rw [State.allTransformed, State.allTransformed, ← h.lext]
  cases halpha : s.lext.hasAlpha with
  | true =>
    by_cases hA : c = .A
    · rw [hA]
      exact hplanes.record_transformed .A (by decide) (by decide) (by decide) (by decide)
    · exact hplanes.record_transformed_of_ne hA (hrec c hA)
  | false => exact hrec c fun hA => Bool.false_ne_true (halpha.symm.trans (mem_streamChannels.1 hc hA))

end

/-! ## QUANT -/

/-- Both states hold the same header, nibbles and parameters, which is what PACK reads, and the same LEXT. -/
structure SameHeader (s s' : State) : Prop where
  params : s.params = s'.params
  lext : s.lext = s'.lext
  hdr24 : s.hdr24 = s'.hdr24
  hdr16 : s.hdr16 = s'.hdr16
  hdr8 : s.hdr8 = s'.hdr8
  nib : ∀ k, k < s.packLayout.n → s.byte (nibAddr k) = s'.byte (nibAddr k)

section

variable {s s' : State} (h : SameRecords s s')

include h

theorem SameRecords.record_of_ne {c : Channel} (hc : c ≠ .A) : RecordAgrees s s' c :=
  h.record c (mem_streamChannels_of_ne hc)

theorem SameRecords.quantHdr24 : s.quantHdr24 = s'.quantHdr24 := by
  have hL := h.record_of_ne (c := .L) (by decide)
  have hP := h.record_of_ne (c := .P) (by decide)
  have hQ := h.record_of_ne (c := .Q) (by decide)
  rw [State.quantHdr24, State.quantHdr24, h.lext, hL.scale, hL.dc, hP.dc, hQ.dc]

theorem SameRecords.quantHdr16 : s.quantHdr16 = s'.quantHdr16 := by
  have hP := h.record_of_ne (c := .P) (by decide)
  have hQ := h.record_of_ne (c := .Q) (by decide)
  rw [State.quantHdr16, State.quantHdr16, h.lext, hP.scale, hQ.scale]

theorem SameRecords.quantHdr8 : s.quantHdr8 = s'.quantHdr8 := by
  rw [State.quantHdr8, State.quantHdr8, ← h.lext]
  split
  next halpha =>
    have hA := h.record .A (mem_streamChannels.2 fun _ => halpha)
    rw [hA.scale, hA.dc]
  · rfl

theorem SameRecords.quantNibbles : s.quantNibbles = s'.quantNibbles := by
  simp only [State.quantNibbles, State.streamOrder, List.map_flatMap, List.map_map, ← h.lext]
  refine List.flatMap_congr fun c hc => ?_
  rw [← (h.record c hc).ext]
  refine List.map_congr_left fun j hj => ?_
  exact congrArg quant15 ((h.record c hc).ac (List.mem_range.1 hj))

theorem SameRecords.quantized (he : s.lextEncodable = true) (hr : s.recordsMatch = true) :
    SameHeader s.quantized s'.quantized where
  params := h.params
  lext := h.lext
  hdr24 := h.quantHdr24
  hdr16 := h.quantHdr16
  hdr8 := h.quantHdr8
  nib := fun k hk => by
    obtain ⟨-, -, hn⟩ := State.packLayout_quantized he
    rw [hn, ← State.length_quantNibbles hr] at hk
    have hmem : (nibAddr k, _) ∈ nibWrites s.quantNibbles := mem_nibWrites.2 ⟨k, _, List.getElem?_eq_getElem hk, rfl⟩
    rw [State.quantized, State.quantized, ← h.quantNibbles]
    exact State.byte_putBytes_congr (s := s) (s' := s') (.inr ⟨_, hmem, rfl⟩)

end

/-! ## PACK -/

section

variable {s s' : State} (h : SameHeader s s')

include h

theorem SameHeader.packLayout : s.packLayout = s'.packLayout := by
  simp only [State.packLayout, State.fieldHasAlpha, State.fieldLCount, State.fieldLandscape, h.params, h.hdr24, h.hdr16]

theorem SameHeader.packNibble (k : ℕ) : s.packNibble s.packLayout.n k = s'.packNibble s.packLayout.n k := by
  rw [State.packNibble, State.packNibble]
  split
  next hk => rw [State.nib, State.nib, h.nib k hk]
  · rfl

theorem SameHeader.packBytes : s.packBytes = s'.packBytes := by
  have hheader : s.packHeader = s'.packHeader := by
    rw [State.packHeader, State.packHeader, State.fieldHasAlpha, State.fieldHasAlpha, h.hdr24, h.hdr16, h.hdr8]
  rw [State.packBytes, State.packBytes, hheader, ← h.packLayout]
  refine congrArg _ (List.map_congr_left fun j _ => ?_)
  rw [State.packByte, State.packByte, h.packNibble, h.packNibble]

theorem SameHeader.byte_packed {a : ℕ} (ha : s.byte a = s'.byte a ∨ ∃ w ∈ hashWrites s.packBytes, w.1 = a) :
    s.packed.byte a = s'.packed.byte a := by
  rw [State.packed, State.packed, ← h.packBytes]
  exact State.byte_putBytes_congr (s := s) (s' := s') ha

theorem SameHeader.hashLen_packed : s.packed.hashLen = s'.packed.hashLen :=
  congrArg (fun l : Layout => BitVec.ofNat 6 l.len) h.packLayout

theorem SameHeader.nibCount_packed : s.packed.nibCount = s'.packed.nibCount :=
  congrArg (fun l : Layout => BitVec.ofNat 6 l.n) h.packLayout

theorem SameHeader.hash_packed (hcount : s.fieldLCount ≠ 0) {i : ℕ} (hi : i < s.packed.hashLen.toNat) :
    s.packed.hash i = s'.packed.hash i := by
  rw [State.hashLen_packed hcount, ← State.length_packBytes] at hi
  exact h.byte_packed (.inr ⟨_, mem_hashWrites.2 ⟨i, _, List.getElem?_eq_getElem hi, rfl⟩, rfl⟩)

theorem SameHeader.nib_packed (hcount : s.fieldLCount ≠ 0) {k : ℕ} (hk : k < s.packed.nibCount.toNat) :
    s.packed.nib k = s'.packed.nib k := by
  rw [State.nibCount_packed hcount] at hk
  exact congrArg BitVec.toNat (h.byte_packed (.inl (h.nib k hk)))

/-- What the host reads of the hash after PACK. -/
theorem SameHeader.packed (hcount : s.fieldLCount ≠ 0) :
    s.packed.hashLen = s'.packed.hashLen ∧
      (∀ i, i < s.packed.hashLen.toNat → s.packed.hash i = s'.packed.hash i) ∧ s.packed.hdr24 = s'.packed.hdr24 ∧
      s.packed.hdr16 = s'.packed.hdr16 ∧ s.packed.hdr8 = s'.packed.hdr8 ∧ s.packed.lext = s'.packed.lext ∧
      s.packed.nibCount = s'.packed.nibCount ∧
      ∀ k, k < s.packed.nibCount.toNat → s.packed.nib k = s'.packed.nib k :=
  ⟨h.hashLen_packed, fun _ => h.hash_packed hcount, h.hdr24, h.hdr16, h.hdr8, h.lext, h.nibCount_packed,
    fun _ => h.nib_packed hcount⟩

end

/-! ## ENCODE -/

theorem State.packed_status (s : State) : s.packed.status = ⟨true, false, 0⟩ := rfl

theorem SameImage.quantized {s s' : State} (h : SameImage s s') (hr : s.imgDim.inRange = true) :
    SameHeader s.forwarded.allTransformed.quantized s'.forwarded.allTransformed.quantized :=
  h.forwarded.allTransformed.quantized (State.lextEncodable_allTransformed (State.lextEncodable_forwarded hr))
    State.recordsMatch_allTransformed

end Sys2Proof.Machine

namespace Sys2Proof

open Machine

/-- Settles O37: both states raise the same error, or go through the sequence in agreement. -/
theorem encodeIsPure : Obligations.EncodeIsPure := by
  intro s s' t t' hparams hdim hlen hpix ht ht'
  have hwrong : s.inputSizeWrong = s'.inputSizeWrong := by rw [State.inputSizeWrong, State.inputSizeWrong, hdim, hlen]
  cases hsize : s.inputSizeWrong with
  | true =>
    obtain rfl := exec_next_unique ht (exec_encode_of_inputSizeWrong hsize)
    obtain rfl := exec_next_unique ht' (exec_encode_of_inputSizeWrong (hwrong ▸ hsize))
    exact ⟨rfl, nofun⟩
  | false =>
    cases hr : s.imgDim.inRange with
    | false =>
      obtain rfl := exec_next_unique ht (exec_encode_of_not_inRange hsize hr)
      obtain rfl := exec_next_unique ht' (exec_encode_of_not_inRange (hwrong ▸ hsize) (hdim ▸ hr))
      exact ⟨rfl, nofun⟩
    | true =>
      obtain rfl := exec_next_unique ht (exec_encode_of_inRange hsize hr)
      obtain rfl := exec_next_unique ht' (exec_encode_of_inRange (hwrong ▸ hsize) (hdim ▸ hr))
      have h := SameImage.quantized ⟨hparams, hdim, hpix⟩ hr
      rw [State.encoded, State.encoded, State.packed_status, State.packed_status]
      exact ⟨rfl, fun _ => h.packed (State.fieldLCount_quantized_forwarded_ne_zero hr)⟩

end Sys2Proof
end

section
/-! PROOF. DECODE reads the hash, its length, OUT_BASE and the parameters only (45_orchestrator.md R227 item 3): each
command of its sequence makes the same writes to two states that agree on what it reads. -/

namespace Sys2Proof.Machine

/-! ## UNPACK -/

/-- Both states hold the same hash, length, OUT_BASE and parameters. -/
structure SameHash (s s' : State) : Prop where
  params : s.params = s'.params
  hashLen : s.hashLen = s'.hashLen
  outBase : s.outBase = s'.outBase
  hash : ∀ i, i < s.hashLen.toNat → s.hash i = s'.hash i

/-- Both states hold the same header, nibbles, LEXT, OUT_BASE and parameters, which is what DEQUANT and SIZE read. -/
structure SameStream (s s' : State) : Prop where
  params : s.params = s'.params
  outBase : s.outBase = s'.outBase
  lext : s.lext = s'.lext
  hdr24 : s.hdr24 = s'.hdr24
  hdr16 : s.hdr16 = s'.hdr16
  hdr8 : s.hdr8 = s'.hdr8
  nib : ∀ k, k < streamLength s.lumaCount s.fieldHasAlpha → s.nib k = s'.nib k

section

variable {s s' : State} (h : SameHash s s')

include h

/-- A hash of five bytes and more holds the bytes that the layout is read from. -/
theorem SameHash.layout (h5 : 5 ≤ s.hashLen.toNat) :
    s.hashAlpha = s'.hashAlpha ∧ s.hashCount = s'.hashCount ∧ s.hashLand = s'.hashLand ∧
      s.hashLayout = s'.hashLayout := by
  simp only [State.hashLayout, State.hashAlpha, State.hashCount, State.hashLand, h.hash 2 (by omega),
    h.hash 3 (by omega), h.hash 4 (by omega), h.params, and_self]

theorem SameHash.hashCheck : s.hashCheck = s'.hashCheck := by
  rw [State.hashCheck, State.hashCheck, ← h.hashLen]
  by_cases h5 : s.hashLen.toNat < 5
  · rw [if_pos h5, if_pos h5]
  · obtain ⟨hAlpha, hCount, -, hLayout⟩ := h.layout (not_lt.1 h5)
    rw [hAlpha, hCount, hLayout]

/-- The bytes of the header and of the nibbles lie below the length. -/
theorem SameHash.hash_of_lt (hcheck : s.hashCheck = none) {i : ℕ} (hi : i < s.hashLayout.len) :
    s.hash i = s'.hash i := by
  obtain ⟨-, -, -, -, hlen⟩ := State.hashCheck_none hcheck
  exact h.hash i (hi.trans_le hlen)

end

theorem State.lumaCount_unpacked {s : State} (hcheck : s.hashCheck = none) :
    s.unpacked.lumaCount = s.hashLayout.nL := by
  obtain ⟨hlx, hly⟩ := State.extents_unpacked hcheck
  rw [State.lumaCount, hlx, hly]
  rfl

theorem State.fieldHasAlpha_unpacked {s : State} : s.unpacked.fieldHasAlpha = s.hashAlpha := by
  simp only [State.fieldHasAlpha, State.unpacked, State.hashAlpha, BitVec.getLsbD_append]
  rfl

theorem SameHash.unpacked {s s' : State} (h : SameHash s s') (hcheck : s.hashCheck = none) :
    SameStream s.unpacked s'.unpacked := by
  obtain ⟨hlen32, h5, halpha, hcount, hlen⟩ := State.hashCheck_none hcheck
  obtain ⟨-, -, h13, -⟩ := layout_bounds s.params s.hashAlpha s.hashLand hcount s.hashCount_le
  obtain ⟨hAlpha, -, hLand, hLayout⟩ := h.layout h5
  have hhash : ∀ i, i < 13 → s.hash i = s'.hash i := fun i hi => h.hash_of_lt hcheck (hi.trans_le h13)
  refine ⟨h.params, h.outBase, ?_, ?_, ?_, ?_, fun k hk => ?_⟩
  · change s.unpackLext = s'.unpackLext
    rw [State.unpackLext, State.unpackLext, hLayout, hAlpha, hLand]
  · change s.hash 2 ++ s.hash 1 ++ s.hash 0 = s'.hash 2 ++ s'.hash 1 ++ s'.hash 0
    rw [hhash 0 (by decide), hhash 1 (by decide), hhash 2 (by decide)]
  · change s.hash 4 ++ s.hash 3 = s'.hash 4 ++ s'.hash 3
    rw [hhash 3 (by decide), hhash 4 (by decide)]
  · change (if s.hashAlpha then s.hash 5 else 0) = if s'.hashAlpha then s'.hash 5 else 0
    rw [hAlpha, hhash 5 (by decide)]
  · rw [State.lumaCount_unpacked hcheck, State.fieldHasAlpha_unpacked] at hk
    change k < s.hashLayout.n at hk
    have hbyte : s.hashLayout.hb + k / 2 < s.hashLayout.len := by
      change _ < s.hashLayout.hb + ceilHalf s.hashLayout.n
      rw [ceilHalf]
      omega
    rw [State.nib_unpacked hk, State.nib_unpacked (hLayout ▸ hk), ← hLayout, State.unpackNibble, State.unpackNibble,
      h.hash_of_lt hcheck hbyte]

/-! ## DEQUANT and SIZE -/

/-- Both states hold the same coefficients, output size and parameters, which is what DCT_INV reads, the same alpha
flag, and the same planes of the channels `cs`. -/
structure SameOutput (cs : List Channel) (s s' : State) : Prop where
  params : s.params = s'.params
  hdr24 : s.hdr24 = s'.hdr24
  outDim : s.outDim = s'.outDim
  record : ∀ c ∈ streamChannels s.fieldHasAlpha, RecordAgrees s s' c
  plane : ∀ c ∈ cs, ∀ x y, x < s.outDim.w.toNat → y < s.outDim.h.toNat → s.SameElement s' (planeAddr c x y)

/-- SIZE keeps the records. -/
theorem sameOutput_sized {s s' : State} (hparams : s.params = s'.params) (hhdr24 : s.hdr24 = s'.hdr24)
    (hsize : s.sizeResult = s'.sizeResult) (hrecord : ∀ c ∈ streamChannels s.fieldHasAlpha, RecordAgrees s s' c) :
    SameOutput [] s.sized s'.sized where
  params := hparams
  hdr24 := hhdr24
  outDim := congrArg (fun r : ℕ × ℕ => Dim.mk (BitVec.ofNat 16 r.1) (BitVec.ofNat 16 r.2)) hsize
  record := fun c hc => (hrecord c hc).mono (fun _ => id) rfl rfl
  plane := nofun

theorem streamBase_add_lt {nL j : ℕ} {alpha : Bool} {c : Channel} (hc : c ∈ streamChannels alpha)
    (hj : j < streamCount nL c) : streamBase nL c + j < streamLength nL alpha := by
  rw [streamLength]
  cases c with
  | A =>
    rw [mem_streamChannels.1 hc rfl, if_pos rfl]
    simp only [streamBase, streamCount] at hj ⊢
    omega
  | _ =>
    simp only [streamBase, streamCount] at hj ⊢
    omega

theorem State.nac_dequantized {s : State} {c : Channel} (hc : c ∈ streamChannels s.fieldHasAlpha) :
    (s.dequantized.ext.get c).nac.toNat = streamCount s.lumaCount c := by
  obtain ⟨hx, hy⟩ := not_or.1 (State.extentsNonzero_dequantized c hc)
  rw [Ext.nac_toNat hx hy]
  have hext : s.dequantized.ext = s.dequantExt := rfl
  rw [hext, State.dequantExt]
  cases c with
  | L => exact congrArg₂ countAc (toNat_ofNat_floored _ _) (toNat_ofNat_floored _ _)
  | P => exact countAc_chroma
  | Q => exact countAc_chroma
  | A =>
    rw [if_pos (mem_streamChannels.1 hc rfl)]
    exact countAc_alpha

section

variable {s s' : State} (h : SameStream s s')

include h

theorem SameStream.fieldHasAlpha : s.fieldHasAlpha = s'.fieldHasAlpha := by
  rw [State.fieldHasAlpha, State.fieldHasAlpha, h.hdr24]

theorem SameStream.lumaCount : s.lumaCount = s'.lumaCount := by
  rw [State.lumaCount, State.lumaCount, h.params, h.lext]

theorem SameStream.dequantDc (c : Channel) : s.dequantDc c = s'.dequantDc c := by
  cases c <;> simp only [State.dequantDc, State.fieldLDc, State.fieldPDc, State.fieldQDc, State.fieldADc,
    h.hdr24, h.hdr8]

theorem SameStream.dequantScale (c : Channel) : s.dequantScale c = s'.dequantScale c := by
  cases c <;> simp only [State.dequantScale, State.fieldLScale, State.fieldPScale, State.fieldQScale,
    State.fieldAScale, h.hdr24, h.hdr16, h.hdr8]

theorem SameStream.dequantRecord {c : Channel} (hc : c ∈ streamChannels s.fieldHasAlpha) :
    s.dequantRecord c = s'.dequantRecord c := by
  rw [State.dequantRecord, State.dequantRecord, ← h.dequantDc, ← h.dequantScale, ← h.lumaCount, State.fillWrites,
    State.fillWrites]
  refine congrArg (fun vs => _ :: _ :: acWrites c vs) (List.map_congr_left fun j hj => ?_)
  rw [h.nib _ (streamBase_add_lt hc (List.mem_range.1 hj))]

theorem SameStream.dequantWrites : s.dequantWrites = s'.dequantWrites := by
  rw [State.dequantWrites_eq, State.dequantWrites_eq, ← h.fieldHasAlpha]
  exact List.flatMap_congr fun c hc => h.dequantRecord hc

theorem SameStream.sameElement_dequantized {c : Channel} (hc : c ∈ streamChannels s.fieldHasAlpha) {a : ℕ} {x : F64}
    (hmem : (a, x) ∈ s.dequantRecord c) : s.dequantized.SameElement s'.dequantized a := by
  rw [State.dequantized, State.dequantized, ← h.dequantWrites]
  exact State.sameElement_putF64s (s := s) (s' := s') (State.mem_dequantWrites.2 ⟨c, hc, hmem⟩)

theorem SameStream.ext_dequantized {c : Channel} (hc : c ∈ streamChannels s.fieldHasAlpha) :
    s.dequantized.ext.get c = s'.dequantized.ext.get c := by
  have hext : ∀ t : State, t.dequantized.ext = t.dequantExt := fun _ => rfl
  rw [hext, hext]
  cases c with
  | L => simp only [State.dequantExt, PerChannel.get, State.dequantNx, State.dequantNy, h.params, h.lext]
  | P => rfl
  | Q => rfl
  | A => simp only [State.dequantExt, PerChannel.get, ← h.fieldHasAlpha, if_pos (mem_streamChannels.1 hc rfl)]

theorem SameStream.record_dequantized {c : Channel} (hc : c ∈ streamChannels s.fieldHasAlpha) :
    RecordAgrees s.dequantized s'.dequantized c where
  ext := h.ext_dequantized hc
  sameDc := h.sameElement_dequantized hc (State.mem_dequantRecord.2 (.inl rfl))
  sameScale := h.sameElement_dequantized hc (State.mem_dequantRecord.2 (.inr (.inl rfl)))
  sameAc := fun j hj => by
    rw [State.nac_dequantized hc] at hj
    exact h.sameElement_dequantized hc (State.mem_dequantRecord.2 (.inr (.inr ⟨j, hj, rfl⟩)))

theorem SameStream.sizeResult : s.sizeResult = s'.sizeResult := by
  simp only [State.sizeResult, State.fieldHasAlpha, State.fieldLCount, State.fieldLandscape, h.hdr24, h.hdr16,
    h.outBase]

theorem SameStream.sized_dequantized : SameOutput [] s.dequantized.sized s'.dequantized.sized := by
  refine sameOutput_sized h.params h.hdr24 ?_ fun c hc => h.record_dequantized hc
  rw [State.sizeResult_dequantized, State.sizeResult_dequantized, h.sizeResult]

end

/-! ## DCT_INV -/

section

variable {s s' : State} {cs : List Channel} (h : SameOutput cs s s')

include h

theorem SameOutput.inverseSum {c : Channel} (hc : c ∈ streamChannels s.fieldHasAlpha)
    (hext : s.ExtentsNonzero) (ow oh x y : ℕ) :
    s.inverseSum c ow oh x y = s'.inverseSum c ow oh x y := by
  have hrec := h.record c hc
  obtain ⟨hx, hy⟩ := not_or.1 (hext c hc)
  rw [State.inverseSum, State.inverseSum, ← hrec.ext, ← hrec.dc, ← h.params]
  refine List.foldl_ext _ _ _ fun v p hp => ?_
  have hlt := List.snd_lt_of_mem_zipIdx hp
  rw [length_acPairs, Nat.add_zero, ← Ext.nac_toNat hx hy] at hlt
  rw [hrec.ac hlt]

theorem SameOutput.planeWrites {c : Channel} (hc : c ∈ streamChannels s.fieldHasAlpha)
    (hext : s.ExtentsNonzero) : s.planeWrites c = s'.planeWrites c := by
  rw [State.planeWrites, State.planeWrites, ← h.outDim]
  exact List.map_congr_left fun xy _ => by rw [h.inverseSum hc hext]

theorem SameOutput.fieldHasAlpha : s.fieldHasAlpha = s'.fieldHasAlpha := by
  rw [State.fieldHasAlpha, State.fieldHasAlpha, h.hdr24]

/-- DCT_INV adds the plane of its channel. -/
theorem SameOutput.reconstructed {c : Channel} (hc : c ∈ streamChannels s.fieldHasAlpha)
    (hext : s.ExtentsNonzero) :
    SameOutput (c :: cs) (s.reconstructed c) (s'.reconstructed c) := by
  have hkeep : KeepsAgreement s s' (s.reconstructed c) (s'.reconstructed c) := fun a ha => by
    rw [State.reconstructed, State.reconstructed, ← h.planeWrites hc hext]
    exact State.byte_putF64s_congr (s := s) (s' := s') (.inl ha)
  refine ⟨h.params, h.hdr24, h.outDim, fun d hd => (h.record d hd).mono hkeep rfl rfl, fun d hd x y hx hy => ?_⟩
  rcases List.mem_cons.1 hd with rfl | hd
  · have hmem : (planeAddr d x y, s.inverseSum d s.outDim.w.toNat s.outDim.h.toNat x y) ∈ s.planeWrites d :=
      State.mem_planeWrites.2 ⟨x, y, hx, hy, rfl⟩
    rw [State.reconstructed, State.reconstructed, ← h.planeWrites hc hext]
    exact State.sameElement_putF64s (s := s) (s' := s') hmem
  · exact (h.plane d hd x y hx hy).mono hkeep

omit h in
theorem State.ExtentsNonzero.reconstructed (hext : s.ExtentsNonzero) {c : Channel} :
    (s.reconstructed c).ExtentsNonzero := fun d hd => hext d hd

omit h in
theorem SameOutput.of_subset {ds : List Channel} (h : SameOutput cs s s') (hds : ds ⊆ cs) : SameOutput ds s s' :=
  { h with plane := fun c hc => h.plane c (hds hc) }

theorem SameOutput.colorReconstructed
    (hext : s.ExtentsNonzero) :
    SameOutput [.Q, .P, .L] s.colorReconstructed s'.colorReconstructed := by
  have hmem : ∀ {c : Channel}, c ≠ .A → c ∈ streamChannels s.fieldHasAlpha := mem_streamChannels_of_ne
  have hL := (h.of_subset (List.nil_subset cs)).reconstructed (c := .L) (hmem (by decide)) hext
  have hP := hL.reconstructed (c := .P) (hmem (by decide)) hext.reconstructed
  exact hP.reconstructed (c := .Q) (hmem (by decide)) hext.reconstructed.reconstructed

/-- DCT_INV of every channel that the header names. -/
theorem SameOutput.allReconstructed
    (hext : s.ExtentsNonzero) :
    SameOutput (streamChannels s.fieldHasAlpha) s.allReconstructed s'.allReconstructed := by
  have halpha : s.fieldHasAlpha = s'.fieldHasAlpha := h.fieldHasAlpha
  have hcolor := h.colorReconstructed hext
  cases hA : s.fieldHasAlpha with
  | true =>
    have hmem : Channel.A ∈ streamChannels s.fieldHasAlpha := mem_streamChannels.2 fun _ => hA
    rw [State.allReconstructed_of_alpha hA, State.allReconstructed_of_alpha (halpha ▸ hA)]
    exact (hcolor.reconstructed (c := .A) hmem hext.reconstructed.reconstructed.reconstructed).of_subset (by decide)
  | false =>
    rw [State.allReconstructed_of_no_alpha hA, State.allReconstructed_of_no_alpha (halpha ▸ hA)]
    exact hcolor.of_subset (by decide)

end

/-! ## CSC_INV -/

section

variable {s s' : State} (h : SameOutput (streamChannels s.fieldHasAlpha) s s')

include h

theorem SameOutput.plane_eq {c : Channel} (hc : c ∈ streamChannels s.fieldHasAlpha) {x y : ℕ}
    (hx : x < s.outDim.w.toNat) (hy : y < s.outDim.h.toNat) : s.plane c x y = s'.plane c x y :=
  (h.plane c hc x y hx hy).f64_eq

theorem SameOutput.outAlpha {x y : ℕ} (hx : x < s.outDim.w.toNat) (hy : y < s.outDim.h.toNat) :
    s.outAlpha x y = s'.outAlpha x y := by
  rw [State.outAlpha, State.outAlpha, ← h.fieldHasAlpha]
  split
  next hA => rw [h.plane_eq (mem_streamChannels.2 fun _ => hA) hx hy]
  · rfl

theorem SameOutput.inverseWrites : s.inverseWrites = s'.inverseWrites := by
  have hmem : ∀ {c : Channel}, c ≠ .A → c ∈ streamChannels s.fieldHasAlpha := mem_streamChannels_of_ne
  simp only [State.inverseWrites, ← h.outDim, ← h.params]
  refine List.flatMap_congr fun xy hxy => ?_
  obtain ⟨hx, hy⟩ := mem_pixels.1 hxy
  rw [h.plane_eq (hmem (c := .L) (by decide)) hx hy, h.plane_eq (hmem (c := .P) (by decide)) hx hy,
    h.plane_eq (hmem (c := .Q) (by decide)) hx hy, h.outAlpha hx hy]

/-- Every byte of the output image is written. -/
theorem SameOutput.pix_inverted {i : ℕ} (hi : i < 4 * (s.outDim.w.toNat * s.outDim.h.toNat)) :
    s.inverted.pix i = s'.inverted.pix i := by
  have hpixel : i / 4 < s.outDim.h.toNat * s.outDim.w.toNat := by
    rw [Nat.mul_comm]
    omega
  have hw : 0 < s.outDim.w.toNat := Nat.pos_of_mul_pos_left (Nat.zero_lt_of_lt hpixel)
  have hx : i / 4 % s.outDim.w.toNat < s.outDim.w.toNat := Nat.mod_lt _ hw
  have hy : i / 4 / s.outDim.w.toNat < s.outDim.h.toNat := Nat.div_lt_of_lt_mul (Nat.mul_comm _ _ ▸ hpixel)
  have hmem : _ ∈ s.inverseWrites := State.mem_inverseWrites.2
    ⟨i / 4 % s.outDim.w.toNat, i / 4 / s.outDim.w.toNat, ⟨i % 4, Nat.mod_lt _ (by decide)⟩, hx, hy, rfl⟩
  have haddr : 4 * (i / 4 / s.outDim.w.toNat * s.outDim.w.toNat + i / 4 % s.outDim.w.toNat) + i % 4 = i := by
    rw [Nat.div_add_mod', Nat.div_add_mod]
  refine congrArg BitVec.toNat ?_
  rw [State.inverted, State.inverted, ← h.inverseWrites]
  exact State.byte_putBytes_congr (s := s) (s' := s') (.inr ⟨_, hmem, congrArg pixAddr haddr⟩)

/-- What the host reads of the image after CSC_INV. -/
theorem SameOutput.inverted : s.inverted.outDim = s'.inverted.outDim ∧
    ∀ i, i < 4 * (s.inverted.outDim.w.toNat * s.inverted.outDim.h.toNat) → s.inverted.pix i = s'.inverted.pix i :=
  ⟨h.outDim, fun _ => h.pix_inverted⟩

end

/-! ## DECODE -/

theorem State.inverted_status (s : State) : s.inverted.status = ⟨true, false, 0⟩ := rfl

theorem State.fieldHasAlpha_allReconstructed (s : State) : s.allReconstructed.fieldHasAlpha = s.fieldHasAlpha := by
  rw [State.fieldHasAlpha, State.fieldHasAlpha, State.allReconstructed_hdr24]

theorem SameHash.allReconstructed {s s' : State} (h : SameHash s s') (hcheck : s.hashCheck = none) :
    SameOutput (streamChannels s.restored.allReconstructed.fieldHasAlpha) s.restored.allReconstructed
      s'.restored.allReconstructed := by
  rw [State.fieldHasAlpha_allReconstructed]
  exact SameOutput.allReconstructed (h.unpacked hcheck).sized_dequantized State.extentsNonzero_restored

end Sys2Proof.Machine

namespace Sys2Proof

open Machine

/-- Settles O38: both states raise the same error, or go through the sequence in agreement. -/
theorem decodeIsPure : Obligations.DecodeIsPure := by
  intro s s' t t' hparams hlen hbase hhash ht ht'
  have h : SameHash s s' := ⟨hparams, hlen, hbase, hhash⟩
  have hrange : s.baseInRange = s'.baseInRange := by rw [State.baseInRange, State.baseInRange, hbase]
  cases hcheck : s.hashCheck with
  | some e =>
    obtain rfl := exec_next_unique ht (exec_decode_of_error hcheck)
    obtain rfl := exec_next_unique ht' (exec_decode_of_error (h.hashCheck ▸ hcheck))
    exact ⟨rfl, fun herr => Bool.noConfusion herr⟩
  | none =>
    cases hb : s.baseInRange with
    | false =>
      obtain rfl := exec_next_unique ht (exec_decode_of_not_baseInRange hcheck hb)
      obtain rfl := exec_next_unique ht' (exec_decode_of_not_baseInRange (h.hashCheck ▸ hcheck) (hrange ▸ hb))
      exact ⟨rfl, nofun⟩
    | true =>
      obtain rfl := exec_next_unique ht (exec_decode_of_hashCheck hcheck hb)
      obtain rfl := exec_next_unique ht' (exec_decode_of_hashCheck (h.hashCheck ▸ hcheck) (hrange ▸ hb))
      rw [State.decoded, State.decoded, State.inverted_status, State.inverted_status]
      exact ⟨rfl, fun _ => (h.allReconstructed hcheck).inverted⟩

end Sys2Proof
end

section
/-! PROOF. The IEEE 754 default results (60_exceptions.md R266): for each class of operands the branch that an operation
takes, and the encoding it answers there. -/

namespace Sys2Proof.F64

/-! ## The encodings of infinities and of what has a changed sign -/

theorem eq_ofSignMag_of_isInf {x : F64} (h : x.isInf = true) : x = ofSignMag x.neg? infMag := by
  rw [← ofSignMag_eta x, (isInf_iff x).1 h, neg?_ofSignMag _ (by decide)]
  rfl

theorem isNaN_negate (x : F64) : x.negate.isNaN = x.isNaN := by
  rw [Bool.eq_iff_iff, isNaN_iff, isNaN_iff, mag_negate]

theorem isInf_negate (x : F64) : x.negate.isInf = x.isInf := by
  rw [Bool.eq_iff_iff, isInf_iff, isInf_iff, mag_negate]

theorem mag_ne_zero_of_isInf {x : F64} (h : x.isInf = true) : x.mag ≠ 0 := by
  rw [(isInf_iff x).1 h]
  decide

/-! ## A NaN operand -/

theorem addWith_of_isNaN (nan : F64) {x y : F64} (h : x.isNaN = true ∨ y.isNaN = true) : addWith nan x y = nan :=
  if_pos (Bool.or_eq_true_iff.2 h)

theorem isNaN_add {x y : F64} (h : x.isNaN = true ∨ y.isNaN = true) : (x.add y).isNaN = true := by
  rw [add, addWith_of_isNaN _ h, isNaN_nanOf]

theorem isNaN_sub {x y : F64} (h : x.isNaN = true ∨ y.isNaN = true) : (x.sub y).isNaN = true := by
  rw [sub, addWith_of_isNaN _ (y.isNaN_negate.symm ▸ h), isNaN_nanOf]

theorem isNaN_mul {x y : F64} (h : x.isNaN = true ∨ y.isNaN = true) : (x.mul y).isNaN = true := by
  rw [mul, if_pos (Bool.or_eq_true_iff.2 h), isNaN_nanOf]

theorem isNaN_div {x y : F64} (h : x.isNaN = true ∨ y.isNaN = true) : (x.div y).isNaN = true := by
  rw [div, if_pos (Bool.or_eq_true_iff.2 h), isNaN_nanOf]

/-! ## Sums with an infinity -/

section

variable (nan : F64) {x y : F64}

theorem addWith_of_isInf_of_neg?_eq (hx : x.isInf = true) (hy : y.isInf = true) (hs : x.neg? = y.neg?) :
    addWith nan x y = x := by
  simp [addWith, isNaN_eq_false_of_isInf hx, isNaN_eq_false_of_isInf hy, hx, hs]

theorem addWith_of_isInf_of_neg?_ne (hx : x.isInf = true) (hy : y.isInf = true) (hs : x.neg? ≠ y.neg?) :
    addWith nan x y = nan := by
  simp [addWith, isNaN_eq_false_of_isInf hx, isNaN_eq_false_of_isInf hy, hx, hy, hs]

theorem addWith_of_isInf_of_isFinite (hx : x.isInf = true) (hy : y.isFinite = true) : addWith nan x y = x := by
  simp [addWith, isNaN_eq_false_of_isInf hx, isNaN_eq_false_of_isFinite hy, hx, isInf_eq_false_of_isFinite hy]

theorem addWith_of_isFinite_of_isInf (hx : x.isFinite = true) (hy : y.isInf = true) : addWith nan x y = y := by
  simp [addWith, isNaN_eq_false_of_isFinite hx, isNaN_eq_false_of_isInf hy, isInf_eq_false_of_isFinite hx, hy]

end

/-! ## Products with an infinity -/

section

variable {x y : F64}

/-- With a zero it is a NaN. -/
theorem mul_of_isInf (hx : x.isNaN = false) (hy : y.isNaN = false) (hinf : x.isInf = true ∨ y.isInf = true) :
    x.mul y = if x.mag = 0 ∨ y.mag = 0 then nanOf .mul x y else ofSignMag (x.neg? != y.neg?) infMag := by
  rw [mul, hx, hy, if_neg (by decide), if_pos (Bool.or_eq_true_iff.2 hinf)]
  rfl

/-! ## Quotients with an infinity, and by zero -/

theorem isNaN_div_of_isInf (hx : x.isInf = true) (hy : y.isInf = true) : (x.div y).isNaN = true := by
  simp [div, isNaN_eq_false_of_isInf hx, isNaN_eq_false_of_isInf hy, hx, hy]

theorem div_of_isInf_of_isFinite (hx : x.isInf = true) (hy : y.isFinite = true) :
    x.div y = ofSignMag (x.neg? != y.neg?) infMag := by
  simp [div, isNaN_eq_false_of_isInf hx, isNaN_eq_false_of_isFinite hy, hx, isInf_eq_false_of_isFinite hy, infMag]

theorem div_of_isFinite_of_isInf (hx : x.isFinite = true) (hy : y.isInf = true) :
    x.div y = ofSignMag (x.neg? != y.neg?) 0 := by
  simp [div, isNaN_eq_false_of_isFinite hx, isNaN_eq_false_of_isInf hy, isInf_eq_false_of_isFinite hx, hy]

/-- By a zero: a NaN for another zero, the infinity of the quotient's sign for every other value. -/
theorem div_of_isFinite_of_mag_eq_zero (hx : x.isFinite = true) (hy : y.isFinite = true) (hy0 : y.mag = 0) :
    x.div y = if x.mag = 0 then nanOf .div x y else ofSignMag (x.neg? != y.neg?) infMag := by
  simp [div, isNaN_eq_false_of_isFinite hx, isNaN_eq_false_of_isFinite hy, isInf_eq_false_of_isFinite hx,
    isInf_eq_false_of_isFinite hy, hy0, infMag]

/-! ## Sums that are exactly zero -/

/-- The exact sum is that of the integers at the smaller exponent, so it is zero where theirs is. -/
theorem addFinite_of_value_add_eq_zero (h : x.value + y.value = 0) :
    addFinite x y = ofSignMag (x.neg? && y.neg?) 0 := by
  have hsum : x.scaledTo (min x.expo y.expo) + y.scaledTo (min x.expo y.expo) = 0 := by
    rw [← value_scaledTo x (min_le_left _ y.expo), ← value_scaledTo y (min_le_right x.expo _), ← add_mul] at h
    exact_mod_cast (mul_eq_zero.1 h).resolve_right (by positivity)
  exact if_pos hsum

theorem add_of_value_add_eq_zero (hx : x.isFinite = true) (hy : y.isFinite = true) (h : x.value + y.value = 0) :
    x.add y = ofSignMag (x.neg? && y.neg?) 0 := by
  rw [add, addWith_of_isFinite _ hx hy, addFinite_of_value_add_eq_zero h]

theorem sub_of_value_eq (hx : x.isFinite = true) (hy : y.isFinite = true) (h : x.value = y.value) :
    x.sub y = ofSignMag (x.neg? && !y.neg?) 0 := by
  rw [sub, addWith_of_isFinite _ hx (isFinite_negate hy),
    addFinite_of_value_add_eq_zero (by rw [value_negate, h, add_neg_cancel]), neg?_negate]

/-! ## Each pair of classes -/

/-- Two infinities. -/
theorem results_of_isInf (hx : x.isInf = true) (hy : y.isInf = true) :
    (x.neg? = y.neg? → x.add y = x ∧ (x.sub y).isNaN = true) ∧
      (x.neg? ≠ y.neg? → (x.add y).isNaN = true ∧ x.sub y = x) ∧
      x.mul y = ofSignMag (x.neg? != y.neg?) infMag ∧ (x.div y).isNaN = true := by
  have hy' : y.negate.isInf = true := y.isInf_negate.trans hy
  refine ⟨fun hs => ⟨addWith_of_isInf_of_neg?_eq _ hx hy hs, ?_⟩, fun hs => ⟨?_, ?_⟩, ?_, isNaN_div_of_isInf hx hy⟩
  · rw [sub, addWith_of_isInf_of_neg?_ne _ hx hy' (by simp [hs]), isNaN_nanOf]
  · rw [add, addWith_of_isInf_of_neg?_ne _ hx hy hs, isNaN_nanOf]
  · exact addWith_of_isInf_of_neg?_eq _ hx hy' (by rw [neg?_negate, Bool.eq_not]; exact hs)
  · rw [mul_of_isInf (isNaN_eq_false_of_isInf hx) (isNaN_eq_false_of_isInf hy) (.inl hx),
      if_neg (not_or.2 ⟨mag_ne_zero_of_isInf hx, mag_ne_zero_of_isInf hy⟩)]

/-- An infinity and a finite value, in both orders. -/
theorem results_of_isInf_of_isFinite (hx : x.isInf = true) (hy : y.isFinite = true) :
    x.add y = x ∧ y.add x = x ∧ x.sub y = x ∧ y.sub x = ofSignMag (!x.neg?) infMag ∧
      (y.value = 0 → (x.mul y).isNaN = true ∧ (y.mul x).isNaN = true) ∧
      (y.value ≠ 0 → x.mul y = ofSignMag (x.neg? != y.neg?) infMag ∧
        y.mul x = ofSignMag (x.neg? != y.neg?) infMag) ∧
      x.div y = ofSignMag (x.neg? != y.neg?) infMag ∧ y.div x = ofSignMag (x.neg? != y.neg?) 0 := by
  have hx' : x.negate.isInf = true := x.isInf_negate.trans hx
  have hxy := mul_of_isInf (isNaN_eq_false_of_isInf hx) (isNaN_eq_false_of_isFinite hy) (.inl hx)
  have hyx := mul_of_isInf (isNaN_eq_false_of_isFinite hy) (isNaN_eq_false_of_isInf hx) (.inr hx)
  have hx0 := mag_ne_zero_of_isInf hx
  rw [value_eq_zero, ne_eq, value_eq_zero]
  refine ⟨addWith_of_isInf_of_isFinite _ hx hy, addWith_of_isFinite_of_isInf _ hy hx,
    addWith_of_isInf_of_isFinite _ hx (isFinite_negate hy), ?_, fun h0 => ⟨?_, ?_⟩, fun h0 => ⟨?_, ?_⟩,
    div_of_isInf_of_isFinite hx hy, ?_⟩
  · rw [sub, addWith_of_isFinite_of_isInf _ hy hx', eq_ofSignMag_of_isInf hx', neg?_negate]
  · rw [hxy, if_pos (.inr h0), isNaN_nanOf]
  · rw [hyx, if_pos (.inl h0), isNaN_nanOf]
  · rw [hxy, if_neg (not_or.2 ⟨hx0, h0⟩)]
  · rw [hyx, if_neg (not_or.2 ⟨h0, hx0⟩), bne_comm]
  · rw [div_of_isFinite_of_isInf hy hx, bne_comm]

/-- Two finite values. -/
theorem results_of_isFinite (hx : x.isFinite = true) (hy : y.isFinite = true) :
    (x.value + y.value = 0 → x.add y = ofSignMag (x.neg? && y.neg?) 0) ∧
      (x.value = y.value → x.sub y = ofSignMag (x.neg? && !y.neg?) 0) ∧
      (x.mul y).neg? = (x.neg? != y.neg?) ∧
      (y.value ≠ 0 → (x.div y).neg? = (x.neg? != y.neg?)) ∧
      (y.value = 0 → x.value = 0 → (x.div y).isNaN = true) ∧
      (y.value = 0 → x.value ≠ 0 → x.div y = ofSignMag (x.neg? != y.neg?) infMag) := by
  refine ⟨add_of_value_add_eq_zero hx hy, sub_of_value_eq hx hy, neg?_mul_of_isFinite hx hy,
    neg?_div_of_isFinite hx hy, fun hy0 hx0 => ?_, fun hy0 hx0 => ?_⟩
  · rw [div_of_isFinite_of_mag_eq_zero hx hy (y.value_eq_zero.1 hy0), if_pos (x.value_eq_zero.1 hx0), isNaN_nanOf]
  · rw [div_of_isFinite_of_mag_eq_zero hx hy (y.value_eq_zero.1 hy0), if_neg (mt x.value_eq_zero.2 hx0)]

end

end Sys2Proof.F64

namespace Sys2Proof

open F64

/-- Settles O41, by the classes of the operands; the statement's infinities and zeros are encodings by sign. -/
theorem specialResults : Obligations.SpecialResults := by
  unfold Obligations.SpecialResults
  intro inf zero x y sign
  have hinf : inf = fun s => ofSignMag s infMag := by funext s; cases s <;> rfl
  have hzero : zero = fun s => ofSignMag s 0 := by funext s; cases s <;> rfl
  rw [hinf, hzero]
  exact ⟨fun h => ⟨isNaN_add h, isNaN_sub h, isNaN_mul h, isNaN_div h⟩, eq_ofSignMag_of_isInf, results_of_isInf,
    results_of_isInf_of_isFinite, results_of_isFinite⟩

end Sys2Proof
end

section
/-! PROOF. The end of a command and its errors (60_exceptions.md R250 to R262): what a completion leaves, that a command
which raises can be retried, and how the host launches, acknowledges and is interrupted. -/

namespace Sys2Proof.Machine

/-! ## The state after a completion -/

theorem Status.legal_iff (st : Status) :
    st.legal = true ↔ (st.err = true ↔ st.errCode ≠ 0) ∧ st.errCode.toNat ≤ 5 := by
  rw [Status.legal, Bool.and_eq_true, decide_eq_true_eq, beq_iff_eq, Bool.eq_iff_iff, bne_iff_ne]

theorem Status.completed_done (e : Option CmdError) : (Status.completed e).done = true := by
  cases e <;> rfl

theorem State.irq_finish (s : State) (e : Option CmdError) : (s.finish e).irq = s.irqEn := by
  rw [State.irq, State.finish_status, Status.completed_done, Bool.and_true, State.finish_irqEn]

theorem irq_of_exec {i : Instr} {s t : State} (h : exec i s = .next t) : t.irq = s.irqEn := by
  obtain ⟨u, e, hu, rfl⟩ := exec_frame h
  rw [State.irq_finish, hu.irqEn]

theorem engineStep_of_decode_error {s : State} {w : Word} {e : IllegalWord} (hw : s.pending = some w)
    (he : decodeWord w = .error e) : engineStep s = .next (s.finish (some .badOpcode)) := by
  simp [engineStep, hw, he]

/-! ## A command after a completion -/

theorem unitEncode_succeeded (s : State) : unitEncode s.succeeded = (unitEncode s).map State.succeeded := by
  simp only [unitEncode, apply_ite (Except.map _), runUnit_succeeded]
  cases runUnit .cscFwd s with
  | error e => rfl
  | ok t =>
    rw [← runUnits_succeeded]
    rfl

theorem unitDecode_succeeded (s : State) : unitDecode s.succeeded = (unitDecode s).map State.succeeded := by
  rw [unitDecode, unitDecode, s.hashCheck_succeeded]
  cases s.hashCheck with
  | some e => rfl
  | none =>
    simp only [apply_ite (Except.map _), runUnit_succeeded]
    cases runUnit .unpack s with
    | error e => rfl
    | ok t =>
      rw [← runUnits_succeeded]
      rfl

theorem commandResult_succeeded (i : Instr) (s : State) :
    commandResult i s.succeeded = (commandResult i s).map State.succeeded := by
  cases i with
  | nop => rfl
  | encode => exact unitEncode_succeeded s
  | decode => exact unitDecode_succeeded s
  | cscFwd => exact runUnit_succeeded .cscFwd s
  | dctFwd c nx ny => exact runUnit_succeeded (.dctFwd c _ _) s
  | quant => exact runUnit_succeeded .quant s
  | pack => exact runUnit_succeeded .pack s
  | unpack => exact runUnit_succeeded .unpack s
  | dequant => exact runUnit_succeeded .dequant s
  | size => exact runUnit_succeeded .size s
  | dctInv c => exact runUnit_succeeded (.dctInv c) s
  | cscInv => exact runUnit_succeeded .cscInv s

/-- The checks of a command read neither BUSY nor STATUS, which is all that a completion writes. -/
theorem commandResult_finish_of_error {i : Instr} {s : State} {e : CmdError} (h : commandResult i s = .error e)
    (o : Option CmdError) : commandResult i (s.finish o) = .error e := by
  have hfinish : s.finish o = s.succeeded.withPort s.irqEn (Status.completed o) s.draws s.resp := rfl
  rw [hfinish, commandResult_withPort, commandResult_succeeded, h]
  rfl

theorem exec_finish_of_error {i : Instr} {s : State} {e : CmdError} (h : commandResult i s = .error e) :
    exec i (s.finish (some e)) = .next (s.finish (some e)) := by
  rw [exec_of_error (commandResult_finish_of_error h (some e))]
  rfl

/-! ## Launch, acknowledgement and the interrupt output at the host port -/

/-- CTRL and STATUS are written while a command is pending too. -/
theorem State.transact_write_ctrl (s : State) (w : Word) :
    s.transact (.write 0x00008 w) = (s.writeCtrl w).answer ⟨none, .okay⟩ :=
  State.transact_write (reached_addr .ctrl) (.inr rfl) w

theorem State.transact_write_status (s : State) (w : Word) :
    s.transact (.write 0x00010 w) = (s.acknowledge w).answer ⟨none, .okay⟩ :=
  State.transact_write (reached_addr .status) (.inr rfl) w

theorem State.transact_write_cmd {s : State} (h : s.busy = false) (w : Word) :
    s.transact (.write 0x0000C w) = (s.launch w).answer ⟨none, .okay⟩ :=
  State.transact_write_reg h w .cmd

theorem State.acknowledge_done (s : State) (w : Word) :
    (s.acknowledge w).status.done = if w.getLsbD 1 then false else s.status.done := by
  rw [State.acknowledge]
  cases w.getLsbD 1 <;> simp

theorem State.acknowledge_err (s : State) (w : Word) :
    (s.acknowledge w).status.err = if w.getLsbD 2 then false else s.status.err := by
  rw [State.acknowledge]
  cases w.getLsbD 2 <;> simp

theorem State.irq_answer (s : State) (r : Response) : (s.answer r).irq = s.irq := rfl

theorem State.irq_eq_false_of_done {s : State} (h : s.status.done = false) : s.irq = false := by
  rw [State.irq, h, Bool.and_false]

end Sys2Proof.Machine

namespace Sys2Proof

open Machine

/-- Settles O6: the write launches the word, and the engine step finds that it does not decode. -/
theorem illegalWordCompletesWithBadOpcode : Obligations.IllegalWordCompletesWithBadOpcode := by
  intro s w e rest hw hnone hagenda
  have hidle : { s with agenda := .engine :: rest }.busy = false := State.busy_eq_false.2 hnone
  have hlaunch : step s = .next (({ s with agenda := .engine :: rest }.launch w).answer ⟨none, .okay⟩) := by
    rw [step, hagenda, ← State.transact_write_cmd hidle w]
    rfl
  have hengine := engineStep_of_decode_error (s := ({ s with agenda := rest }.launch w).answer ⟨none, .okay⟩) rfl hw
  exact ⟨_, hlaunch, rfl, rfl, hengine.trans (by rw [hnone]; rfl)⟩

/-- Settles O12: a completion sets STATUS and drops the pending command, and leaves the frame of a unit command. -/
theorem commandsComplete : Obligations.CommandsComplete := by
  intro i s
  obtain ⟨u, e, hu, ht⟩ := exec_frame (exec_eq i s)
  obtain ⟨herr, hcode⟩ := (Status.legal_iff _).1 (Status.completed_legal e)
  refine ⟨u.finish e, ht ▸ exec_eq i s, rfl, Status.completed_done e, herr, hcode, hu.cmd, hu.irqEn, ?_⟩
  rw [State.irq_finish, hu.irqEn]

/-- Settles O13: a command that raises is completed from its own state, and its checks pass or fail as before. -/
theorem noPartialResult : Obligations.NoPartialResult := by
  intro i s t h herr
  rcases exec_cases h with ⟨u, -, rfl⟩ | ⟨e, he, rfl⟩
  · cases herr
  · exact ⟨rfl, _, exec_finish_of_error he, rfl⟩

/-- Settles O55: STATUS is written while a command is pending too, and a launch does not look at it. -/
theorem statusWriteAcknowledges : Obligations.StatusWriteAcknowledges := by
  intro s w
  refine ⟨⟨_, s.transact_write_status w, rfl, s.acknowledge_done w, s.acknowledge_err w, rfl⟩, fun hidle => ?_⟩
  exact ⟨_, State.transact_write_cmd hidle w, rfl, rfl, rfl⟩

/-- Settles O56: each event that clears IRQ leaves DONE = 0, and every completion DONE = 1. -/
theorem interruptFollowsDone : Obligations.InterruptFollowsDone := by
  intro s
  refine ⟨rfl, fun i t => irq_of_exec, fun w hw => ?_, fun w hidle => ?_, fun w hw => ?_, rfl, fun w hw => ?_⟩
  · rw [s.transact_write_status, State.irq_answer]
    exact State.irq_eq_false_of_done (by rw [s.acknowledge_done, if_pos hw])
  · rw [State.transact_write_cmd hidle, State.irq_answer]
    exact State.irq_eq_false_of_done rfl
  · rw [s.transact_write_ctrl, State.irq_answer, State.writeCtrl, if_pos hw]
    exact State.irq_eq_false_of_done rfl
  · rw [s.transact_write_ctrl, State.irq_answer, State.writeCtrl, hw]
    rfl

end Sys2Proof
end

section
/-! PROOF. The resets and the liveness of a pending command (70_reset_and_hazards.md R280, R283, R292): power-on reset
unlists every byte, a soft reset gives the footprint of the pending command one new draw, and a pending command that no
reset meets is performed once the agenda is used up. -/

namespace Sys2Proof.Machine

/-! ## A pending command completes -/

/-- The engine step of a pending command, its word legal or not. -/
theorem exists_engineStep_completes {s : State} (hb : s.busy = true) :
    ∃ t, engineStep s = .next t ∧ t.busy = false ∧ t.status.done = true ∧ t.cmd = s.cmd := by
  obtain ⟨w, hw⟩ := Option.isSome_iff_exists.1 hb
  cases hd : decodeWord w with
  | error e => exact ⟨s.finish (some .badOpcode), engineStep_of_decode_error hw hd, rfl, rfl, rfl⟩
  | ok i =>
    obtain ⟨t, ht, hbusy, hdone, -, -, hcmd, -⟩ := commandsComplete i s
    exact ⟨t, (engineStep_of_decode hw hd).trans ht, hbusy, hdone, hcmd⟩

theorem step_of_agenda_nil {s : State} (h : s.agenda = []) : step s = engineStep s := by
  rw [step, h]

theorem step_of_agenda_cons {s : State} {a : Action} {rest : List Action} (h : s.agenda = a :: rest) :
    step s = act a { s with agenda := rest } := by
  rw [step, h]

theorem core_run_succ {s t : State} (h : step s = .next t) (k : ℕ) : core.run (k + 1) s = core.run k t := by
  have hcore : core.step s = .next t := h
  simp only [Host.Core.run, hcore]

/-- Each transaction leaves the command pending, and the step after the last performs it. -/
theorem exists_run_completes {s : State} (hb : s.busy = true)
    (h : ∀ a ∈ s.agenda, ∃ r, a = .host r ∧ r.noSoftReset = true) :
    ∃ t : State, core.run (s.agenda.length + 1) s = .next t ∧ t.busy = false ∧ t.status.done = true ∧
      t.cmd = s.cmd := by
  generalize hagenda : s.agenda = as at h
  induction as generalizing s with
  | nil =>
    obtain ⟨t, ht, hdone⟩ := exists_engineStep_completes hb
    exact ⟨t, core_run_succ ((step_of_agenda_nil hagenda).trans ht) 0, hdone⟩
  | cons a rest ih =>
    obtain ⟨r, rfl, hr⟩ := h a List.mem_cons_self
    obtain ⟨q, st, d, p, he⟩ := State.transact_busy_eq_withPort (s := { s with agenda := rest }) hb hr
    obtain ⟨t, ht, hdone⟩ := ih (s := State.withPort { s with agenda := rest } q st d p) hb rfl
      fun b hmem => h b (List.mem_cons_of_mem _ hmem)
    have hstep : step s = .next (State.withPort { s with agenda := rest } q st d p) := by
      rw [step_of_agenda_cons hagenda, act, he]
    exact ⟨t, (core_run_succ hstep _).trans ht, hdone⟩

/-! ## Power-on reset -/

/-- Nothing is listed or abandoned: every byte is of the draw of the reset. -/
theorem State.byte_powerOn (s : State) (a : ℕ) :
    s.powerOn.byte a = maskAt a (Config.unspecifiedByte s.draws a) := rfl

/-! ## Soft reset -/

theorem State.pendingFootprint_of_idle {s : State} (h : s.busy = false) : s.pendingFootprint = Footprint.none := by
  rw [State.pendingFootprint, State.busy_eq_false.1 h]

theorem State.pendingFootprint_of_decode {s : State} {w : Word} {i : Instr} (hw : s.pending = some w)
    (hi : decodeWord w = .ok i) : s.pendingFootprint = footprint i := by
  simp only [State.pendingFootprint, hw, hi]

theorem State.abandon_of_busy {s : State} (h : s.busy = true) :
    s.abandon = { s.unspecify s.pendingFootprint with pending := none } := if_pos h

theorem State.abandon_of_idle {s : State} (h : s.busy = false) : s.abandon = s := by
  rw [State.abandon, h]
  rfl

/-- What the soft reset leaves of the state: registers and BUSY at their reset values, the rest as `abandon` has it. -/
theorem State.softReset_eq (s : State) :
    s.softReset = { State.reset with
      params := s.params
      ext := s.abandon.ext
      mem := s.abandon.mem
      epoch := s.epoch
      abandoned := s.abandon.abandoned
      draws := s.abandon.draws
      agenda := s.agenda
      resp := s.resp } := by
  cases hb : s.busy with
  | true => rw [State.softReset, State.abandon_of_busy hb]; rfl
  | false =>
    rw [State.softReset, State.abandon_of_idle hb, State.resetRegisters, State.busy_eq_false.1 hb]
    rfl

theorem State.byte_softReset (s : State) (a : ℕ) :
    s.softReset.byte a =
      if inSpans s.pendingFootprint.spans a then maskAt a (Config.unspecifiedByte s.draws a) else s.byte a := by
  change s.abandon.byte a = _
  cases hb : s.busy with
  | true => rw [State.abandon_of_busy hb]; exact s.byte_unspecify s.pendingFootprint a
  | false => rw [State.abandon_of_idle hb, State.pendingFootprint_of_idle hb]; rfl

theorem State.ext_softReset (s : State) (c : Channel) :
    s.softReset.ext.get c = if c ∈ s.pendingFootprint.exts then unspecifiedExt s.draws c else s.ext.get c := by
  rw [State.softReset, State.resetRegisters_ext]
  cases hb : s.busy with
  | true => rw [State.abandon_of_busy hb]; exact s.ext_unspecify s.pendingFootprint c
  | false => rw [State.abandon_of_idle hb, State.pendingFootprint_of_idle hb]; rfl

end Sys2Proof.Machine

namespace Sys2Proof

open Machine

/-- Settles O11, by induction on the agenda. -/
theorem pendingCommandCompletes : Obligations.PendingCommandCompletes := fun _ => exists_run_completes

/-- Settles O44: the step is the pulse on the state with the rest of the agenda. -/
theorem powerOnResets : Obligations.PowerOnResets := by
  intro s rest hagenda
  exact ⟨State.powerOn { s with agenda := rest }, step_of_agenda_cons hagenda, rfl, rfl, State.byte_powerOn _, rfl⟩

/-- Settles O45: the write reaches CTRL, busy or not, and bytes and extents are those that `abandon` leaves. -/
theorem softResetAbandons : Obligations.SoftResetAbandons := by
  intro s w hw
  have hwrite : s.transact (.write 0x00008 w) = s.softReset.answer ⟨none, .okay⟩ := by
    rw [s.transact_write_ctrl, State.writeCtrl, if_pos hw]
  refine ⟨_, hwrite, rfl, by rw [s.softReset_eq]; rfl, fun hb => ?_, fun hb => ?_, fun a ha => ?_, fun a ha => ?_,
    fun c hc => ?_, fun c hc => ?_⟩
  · change s.abandon.ext = s.ext ∧ s.abandon.mem = s.mem ∧ s.abandon.abandoned = s.abandoned ∧
      s.abandon.draws = s.draws
    rw [State.abandon_of_idle hb]
    exact ⟨rfl, rfl, rfl, rfl⟩
  · change s.abandon.draws = s.draws + 1
    rw [State.abandon_of_busy hb]
    rfl
  · exact (s.byte_softReset a).trans (if_neg (by simp [ha]))
  · exact (s.byte_softReset a).trans (if_pos ha)
  · exact (s.ext_softReset c).trans (if_neg hc)
  · exact (s.ext_softReset c).trans (if_pos hc)

end Sys2Proof
end

section
/-! PROOF. The elements that the rule of a command can write (70_reset_and_hazards.md R283) at their bus addresses, and
that no command writes others: every unit command keeps to its outputs, and every unit command of a composite to those
of a command that its footprint lists. -/

namespace Sys2Proof.Machine

/-! ## Spans -/

theorem inSpans_iff {ps : List Span} {a : ℕ} : inSpans ps a = true ↔ ∃ p ∈ ps, p.lo ≤ a ∧ a < p.hi := by
  simp only [inSpans, List.any_eq_true, decide_eq_true_eq]

theorem inSpans_singleton {p : Span} {a : ℕ} : inSpans [p] a = true ↔ p.lo ≤ a ∧ a < p.hi := by
  simp [inSpans_iff]

theorem inSpans_recordSpans {c : Channel} {n a : ℕ} : inSpans (recordSpans c n) a = true ↔
    (0x400 + 0x100 * chanIndex c ≤ a ∧ a < 0x410 + 0x100 * chanIndex c) ∨
      (0x420 + 0x100 * chanIndex c ≤ a ∧ a < 0x420 + 0x100 * chanIndex c + 8 * n) := by
  simp only [inSpans_iff, recordSpans, dcAddr, acAddr, recordAddr, coefBase, List.mem_cons, List.not_mem_nil, or_false,
    exists_eq_or_imp, exists_eq_left]
  omega

theorem inSpans_planeSpan {c : Channel} {a : ℕ} : inSpans [planeSpan c] a = true ↔
    0x20000 + 0x20000 * chanIndex c ≤ a ∧ a < 0x40000 + 0x20000 * chanIndex c := by
  simp only [inSpans_singleton, planeSpan, planeAddr, planeBase]
  omega

/-- The four planes stand one after the other. -/
theorem inSpans_cscFwd_iff_bounds {a : ℕ} :
    inSpans (outputsOf .cscFwd).spans a = true ↔ 0x20000 ≤ a ∧ a < 0xA0000 := by
  simp only [outputsOf, inSpans_iff, planeSpan, planeAddr, planeBase, chanIndex, List.mem_cons, List.not_mem_nil,
    or_false, exists_eq_or_imp, exists_eq_left]
  omega

theorem inSpans_nibbles {a : ℕ} : inSpans [⟨nibAddr 0, nibAddr 46⟩] a = true ↔ 0x200 ≤ a ∧ a < 0x200 + 46 :=
  inSpans_singleton

theorem inSpans_hash {a : ℕ} : inSpans [⟨hashAddr 0, hashAddr 29⟩] a = true ↔ 0x100 ≤ a ∧ a < 0x100 + 29 :=
  inSpans_singleton

theorem inSpans_pixels {a : ℕ} : inSpans [⟨pixAddr 0, pixAddr 65536⟩] a = true ↔ 0x10000 ≤ a ∧ a < 0x20000 :=
  inSpans_singleton

/-! ## What stands outside a footprint stays -/

/-- Every byte and the extents of every record outside the footprint are as before. -/
structure KeepsOutside (f : Footprint) (s t : State) : Prop where
  byte : ∀ a, inSpans f.spans a = false → t.byte a = s.byte a
  ext : ∀ c, c ∉ f.exts → t.ext.get c = s.ext.get c

/-- Every element of the first footprint is one of the second. -/
structure Footprint.Within (f g : Footprint) : Prop where
  spans : ∀ a, inSpans f.spans a = true → inSpans g.spans a = true
  exts : ∀ c, c ∈ f.exts → c ∈ g.exts

theorem Footprint.Within.trans {f g h : Footprint} (hfg : f.Within g) (hgh : g.Within h) : f.Within h :=
  ⟨fun a ha => hgh.spans a (hfg.spans a ha), fun c hc => hgh.exts c (hfg.exts c hc)⟩

theorem KeepsOutside.refl (f : Footprint) (s : State) : KeepsOutside f s s := ⟨fun _ _ => rfl, fun _ _ => rfl⟩

theorem KeepsOutside.trans {f : Footprint} {s t u : State} (h : KeepsOutside f s t) (k : KeepsOutside f t u) :
    KeepsOutside f s u :=
  ⟨fun a ha => (k.byte a ha).trans (h.byte a ha), fun c hc => (k.ext c hc).trans (h.ext c hc)⟩

theorem KeepsOutside.mono {f g : Footprint} {s t : State} (h : KeepsOutside f s t) (hfg : f.Within g) :
    KeepsOutside g s t where
  byte a ha := h.byte a (Bool.eq_false_iff.2 fun hf => Bool.eq_false_iff.1 ha (hfg.spans a hf))
  ext c hc := h.ext c fun hf => hc (hfg.exts c hf)

theorem KeepsOutside.finish {f : Footprint} {s t : State} (h : KeepsOutside f s t) (e : Option CmdError) :
    KeepsOutside f s (t.finish e) := ⟨h.byte, h.ext⟩

/-! ## Writes inside spans -/

theorem State.byte_putBytes_of_inSpans (s : State) {ps : List Span} {ws : List (ℕ × Byte)}
    (hws : ∀ w ∈ ws, inSpans ps w.1 = true) {a : ℕ} (ha : inSpans ps a = false) :
    State.byte { s with mem := s.mem.putBytes ws } a = s.byte a :=
  s.byte_putBytes_of_not_mem fun w hw hwa => Bool.eq_false_iff.1 ha (hwa ▸ hws w hw)

theorem State.byte_putF64s_of_inSpans (s : State) {ps : List Span} {ws : List (ℕ × F64)}
    (hws : ∀ w ∈ ws, ∀ i, i < 8 → inSpans ps (w.1 + i) = true) {a : ℕ} (ha : inSpans ps a = false) :
    State.byte { s with mem := s.mem.putF64s ws } a = s.byte a := by
  refine s.byte_putF64s_of_not_mem fun w hw hwa => Bool.eq_false_iff.1 ha ?_
  have hin := hws w hw (a - w.1) (by omega)
  rwa [Nat.add_sub_cancel' hwa.1] at hin

/-- DC, SCALE and AC values of a record, no more AC values than the footprint has slots. -/
theorem inSpans_recordWrites {c : Channel} {dc scale : F64} {vs : List F64} {n : ℕ} (hn : vs.length ≤ n)
    {w : ℕ × F64} (hw : w ∈ (dcAddr c, dc) :: (scaleAddr c, scale) :: acWrites c vs) {i : ℕ} (hi : i < 8) :
    inSpans (recordSpans c n) (w.1 + i) = true := by
  rw [inSpans_recordSpans]
  rcases List.mem_cons.1 hw with rfl | hw
  · simp only [dcAddr, recordAddr, coefBase]
    omega
  rcases List.mem_cons.1 hw with rfl | hw
  · simp only [scaleAddr, recordAddr, coefBase]
    omega
  · have hbounds := acWrites_bounds hw
    simp only [acAddr, recordAddr, coefBase] at hbounds
    omega

theorem inSpans_planeAddr (c : Channel) {x y i : ℕ} (hx : x < 128) (hy : y < 128) (hi : i < 8) :
    inSpans [planeSpan c] (planeAddr c x y + i) = true := by
  rw [inSpans_planeSpan]
  simp only [planeAddr, planeBase]
  omega

theorem inSpans_nibWrites {ns : List ℕ} (hns : ns.length ≤ 46) {w : ℕ × Byte} (hw : w ∈ nibWrites ns) :
    inSpans [⟨nibAddr 0, nibAddr 46⟩] w.1 = true := by
  obtain ⟨k, v, hk, rfl⟩ := mem_nibWrites.1 hw
  have hlt := (List.getElem?_eq_some_iff.1 hk).1
  rw [inSpans_nibbles]
  simp only [nibAddr, nibBase]
  omega

theorem inSpans_hashWrites {bs : List Byte} (hbs : bs.length ≤ 29) {w : ℕ × Byte} (hw : w ∈ hashWrites bs) :
    inSpans [⟨hashAddr 0, hashAddr 29⟩] w.1 = true := by
  obtain ⟨i, b, hi, rfl⟩ := mem_hashWrites.1 hw
  have hlt := (List.getElem?_eq_some_iff.1 hi).1
  rw [inSpans_hash]
  simp only [hashAddr, hashBase]
  omega

theorem inSpans_inverseWrites {s : State} (h : s.outDim.inRange = true) {w : ℕ × Byte} (hw : w ∈ s.inverseWrites) :
    inSpans [⟨pixAddr 0, pixAddr 65536⟩] w.1 = true := by
  obtain ⟨-, hw128, -, hh128⟩ := Dim.inRange_iff.1 h
  obtain ⟨x, y, k, hx, hy, rfl⟩ := State.mem_inverseWrites.1 hw
  have hrow : y * s.outDim.w.toNat ≤ 127 * 128 := Nat.mul_le_mul (by omega) hw128
  rw [inSpans_pixels]
  simp only [pixAddr, pixBase]
  omega

/-- DEQUANT can write the record of each channel, of L with the AC count of the widest extents. -/
theorem inSpans_dequant_of_recordSpans {c : Channel} {a : ℕ}
    (h : inSpans (recordSpans c (streamCount 27 c)) a = true) : inSpans (outputsOf .dequant).spans a = true := by
  simp only [outputsOf, inSpans_append, Bool.or_eq_true]
  cases c with
  | L => exact .inl (.inl (.inl h))
  | P => exact .inl (.inl (.inr h))
  | Q => exact .inl (.inr h)
  | A => exact .inr h

theorem streamCount_le_widest (s : State) (c : Channel) : streamCount s.lumaCount c ≤ streamCount 27 c := by
  cases c with
  | L => exact s.lumaCount_le
  | P | Q | A => exact le_rfl

theorem mem_exts_dequant (c : Channel) : c ∈ (outputsOf .dequant).exts := by cases c <;> decide

/-! ## Each unit command keeps to its outputs -/

theorem runUnit_keepsOutside {u : UnitCmd} {s t : State} (h : runUnit u s = .ok t) :
    KeepsOutside (outputsOf u) s t := by
  cases u with
  | cscFwd =>
    obtain ⟨-, hr, rfl⟩ := unitCscFwd_ok h
    obtain ⟨-, hw128, -, hh128⟩ := Dim.inRange_iff.1 hr
    refine ⟨fun a ha => s.byte_putF64s_of_inSpans (fun w hw i hi => ?_) ha, fun _ _ => rfl⟩
    obtain ⟨c, x, y, hx, hy, rfl⟩ := State.mem_forwardWrites.1 hw
    have hplane := planeAddr_bounds c (x := x) (y := y) (by omega) (by omega)
    simp only [planeBase] at hplane
    rw [inSpans_cscFwd_iff_bounds]
    omega
  | dctFwd c nx ny =>
    obtain ⟨-, -, -, rfl⟩ := unitDctFwd_ok h
    have hle := (State.length_renormalizedAc (s := s) (c := c) (nx := nx.toNat) (ny := ny.toNat)).le
    refine ⟨fun a ha => s.byte_putF64s_of_inSpans (fun w => inSpans_recordWrites hle) ha, fun d hd => ?_⟩
    exact PerChannel.get_set_of_ne (List.ne_of_not_mem_cons hd) _ _
  | quant =>
    obtain ⟨he, hr, rfl⟩ := unitQuant_ok h
    have hle := State.length_quantNibbles_le he hr
    exact ⟨fun a ha => s.byte_putBytes_of_inSpans (fun w hw => inSpans_nibWrites hle hw) ha, fun _ _ => rfl⟩
  | pack =>
    obtain ⟨hcount, rfl⟩ := unitPack_ok h
    have hle : s.packBytes.length ≤ 29 := s.length_packBytes ▸ (State.packLayout_bounds hcount).2.1
    exact ⟨fun a ha => s.byte_putBytes_of_inSpans (fun w hw => inSpans_hashWrites hle hw) ha, fun _ _ => rfl⟩
  | unpack =>
    obtain ⟨hcheck, rfl⟩ := unitUnpack_ok h
    have hle := State.hashLayout_n_le hcheck
    exact ⟨fun a ha => s.byte_putBytes_of_inSpans (fun w hw => inSpans_nibWrites (by simpa using hle) hw) ha,
      fun _ _ => rfl⟩
  | dequant =>
    obtain ⟨-, -, rfl⟩ := unitDequant_ok h
    refine ⟨fun a ha => s.byte_putF64s_of_inSpans (fun w hw i hi => ?_) ha,
      fun c hc => absurd (mem_exts_dequant c) hc⟩
    obtain ⟨c, -, hw⟩ := State.mem_dequantWrites.1 hw
    refine inSpans_dequant_of_recordSpans (inSpans_recordWrites ?_ hw hi)
    exact (length_fillValues ..).trans_le (streamCount_le_widest s c)
  | size =>
    obtain ⟨-, -, rfl⟩ := unitSize_ok h
    exact ⟨fun _ _ => rfl, fun _ _ => rfl⟩
  | dctInv c =>
    obtain ⟨hr, -, -, rfl⟩ := unitDctInv_ok h
    obtain ⟨-, hw128, -, hh128⟩ := Dim.inRange_iff.1 hr
    refine ⟨fun a ha => s.byte_putF64s_of_inSpans (fun w hw i hi => ?_) ha, fun _ _ => rfl⟩
    obtain ⟨x, y, hx, hy, rfl⟩ := State.mem_planeWrites.1 hw
    exact inSpans_planeAddr c (by omega) (by omega) hi
  | cscInv =>
    obtain ⟨hr, rfl⟩ := unitCscInv_ok h
    exact ⟨fun a ha => s.byte_putBytes_of_inSpans (fun w hw => inSpans_inverseWrites hr hw) ha, fun _ _ => rfl⟩

/-! ## Composites -/

theorem runUnits_keepsOutside {f : Footprint} {us : List UnitCmd} (hus : ∀ u ∈ us, (outputsOf u).Within f)
    {s t : State} (h : runUnits us s = .ok t) : KeepsOutside f s t := by
  induction us generalizing s with
  | nil =>
    cases h
    exact .refl f _
  | cons u rest ih =>
    simp only [runUnits] at h
    split at h
    · cases h
    · next hu =>
      exact ((runUnit_keepsOutside hu).mono (hus u List.mem_cons_self)).trans
        (ih (fun v hv => hus v (List.mem_cons_of_mem u hv)) h)

theorem within_outputsOfAll {u : UnitCmd} {ts : List UnitCmd} (h : u ∈ ts) : (outputsOf u).Within (outputsOfAll ts) :=
  ⟨fun _ ha => (mem_outputsOfAll (c := .L)).1.2 ⟨u, h, ha⟩, fun _ hc => (mem_outputsOfAll (a := 0)).2.2 ⟨u, h, hc⟩⟩

/-- A transform writes no more AC slots than one with the widest extents. -/
theorem within_dctFwd_widest (c : Channel) (nx ny : BitVec 3) :
    (outputsOf (.dctFwd c nx ny)).Within (outputsOf (.dctFwd c 7 7)) where
  spans a ha := by
    have hle : countAc nx.toNat ny.toNat ≤ countAc (7 : BitVec 3).toNat (7 : BitVec 3).toNat :=
      (countAc_le (by omega) (by omega)).trans_eq (by decide)
    exact inSpans_recordSpans.2 ((inSpans_recordSpans.1 ha).imp_right fun hac => ⟨hac.1, by omega⟩)
  exts _ hc := hc

/-- The unit commands of ENCODE with alpha, L with the widest extents. -/
def encodeUnits : List UnitCmd :=
  [.cscFwd, .dctFwd .L 7 7, .dctFwd .P 3 3, .dctFwd .Q 3 3, .dctFwd .A 5 5, .quant, .pack]

/-- The unit commands of DECODE with alpha. -/
def decodeUnits : List UnitCmd :=
  [.unpack, .dequant, .size, .dctInv .L, .dctInv .P, .dctInv .Q, .dctInv .A, .cscInv]

theorem footprint_encode : footprint .encode = outputsOfAll encodeUnits := rfl

theorem footprint_decode : footprint .decode = outputsOfAll decodeUnits := rfl

/-- After the transform of L, ENCODE does what the full sequence does, the transform of A with alpha only. -/
theorem State.tail_encodeTail_subset (s : State) : s.encodeTail.tail ⊆ encodeUnits := by
  simp only [State.encodeTail, List.cons_append, List.tail_cons]
  cases s.lext.hasAlpha <;> decide

theorem State.decodeTail_subset (s : State) : s.decodeTail ⊆ decodeUnits := by
  rw [State.decodeTail]
  cases s.fieldHasAlpha <;> decide

theorem State.within_of_mem_encodeTail {s : State} {u : UnitCmd} (h : u ∈ s.encodeTail) :
    (outputsOf u).Within (footprint .encode) := by
  rcases List.mem_cons.1 h with rfl | h
  · exact (within_dctFwd_widest .L _ _).trans (within_outputsOfAll (by decide))
  · exact within_outputsOfAll (s.tail_encodeTail_subset h)

theorem unitEncode_ok {s t : State} (h : unitEncode s = .ok t) :
    ∃ s', runUnit .cscFwd s = .ok s' ∧ runUnits s'.encodeTail s' = .ok t := by
  simp only [unitEncode] at h
  split at h
  · cases h
  split at h
  · cases h
  split at h
  · cases h
  · next s' hs' => exact ⟨s', hs', h⟩

theorem unitDecode_ok {s t : State} (h : unitDecode s = .ok t) :
    ∃ s', runUnit .unpack s = .ok s' ∧ runUnits s'.decodeTail s' = .ok t := by
  simp only [unitDecode] at h
  split at h
  · cases h
  split at h
  · cases h
  split at h
  · cases h
  · next s' hs' => exact ⟨s', hs', h⟩

theorem unitEncode_keepsOutside {s t : State} (h : unitEncode s = .ok t) : KeepsOutside (footprint .encode) s t := by
  obtain ⟨s', hfirst, htail⟩ := unitEncode_ok h
  exact ((runUnit_keepsOutside hfirst).mono (within_outputsOfAll (by decide))).trans
    (runUnits_keepsOutside (fun _ => State.within_of_mem_encodeTail) htail)

theorem unitDecode_keepsOutside {s t : State} (h : unitDecode s = .ok t) : KeepsOutside (footprint .decode) s t := by
  obtain ⟨s', hfirst, htail⟩ := unitDecode_ok h
  exact ((runUnit_keepsOutside hfirst).mono (within_outputsOfAll (by decide))).trans
    (runUnits_keepsOutside (fun _ hu => within_outputsOfAll (s'.decodeTail_subset hu)) htail)

theorem commandResult_keepsOutside {i : Instr} {s t : State} (h : commandResult i s = .ok t) :
    KeepsOutside (footprint i) s t := by
  cases i with
  | nop =>
    cases h
    exact .refl _ s
  | encode => exact unitEncode_keepsOutside h
  | decode => exact unitDecode_keepsOutside h
  | cscFwd => exact runUnit_keepsOutside (u := .cscFwd) h
  | dctFwd c nx ny => exact runUnit_keepsOutside (u := .dctFwd c _ _) h
  | quant => exact runUnit_keepsOutside (u := .quant) h
  | pack => exact runUnit_keepsOutside (u := .pack) h
  | unpack => exact runUnit_keepsOutside (u := .unpack) h
  | dequant => exact runUnit_keepsOutside (u := .dequant) h
  | size => exact runUnit_keepsOutside (u := .size) h
  | dctInv c => exact runUnit_keepsOutside (u := .dctInv c) h
  | cscInv => exact runUnit_keepsOutside (u := .cscInv) h

theorem exec_keepsOutside {i : Instr} {s t : State} (h : exec i s = .next t) : KeepsOutside (footprint i) s t := by
  rcases exec_cases h with ⟨u, hu, rfl⟩ | ⟨e, -, rfl⟩
  · exact (commandResult_keepsOutside hu).finish none
  · exact (KeepsOutside.refl (footprint i) s).finish (some e)

/-! ## The stores of each footprint -/

theorem inSpans_footprint_dctFwd {c : Channel} {nx ny a : ℕ} :
    inSpans (footprint (.dctFwd c nx ny)).spans a = true ↔
      (0x400 + 0x100 * chanIndex c ≤ a ∧ a < 0x410 + 0x100 * chanIndex c) ∨
        (0x420 + 0x100 * chanIndex c ≤ a ∧
          a < 0x420 + 0x100 * chanIndex c + 8 * countAc (nx % 8) (ny % 8)) := by
  rw [← BitVec.toNat_ofNat (w := 3) nx, ← BitVec.toNat_ofNat (w := 3) ny]
  exact inSpans_recordSpans

theorem inSpans_dequant_iff_recordSpans {a : ℕ} : inSpans (outputsOf .dequant).spans a = true ↔
    inSpans (recordSpans .L 27) a = true ∨ inSpans (recordSpans .P 5) a = true ∨ inSpans (recordSpans .Q 5) a = true ∨
      inSpans (recordSpans .A 14) a = true := by
  simp only [outputsOf, inSpans_append, Bool.or_eq_true, or_assoc]

theorem inSpans_cscFwd_iff_planeSpan {a : ℕ} : inSpans (outputsOf .cscFwd).spans a = true ↔
    inSpans [planeSpan .L] a = true ∨ inSpans [planeSpan .P] a = true ∨ inSpans [planeSpan .Q] a = true ∨
      inSpans [planeSpan .A] a = true := by
  simp only [outputsOf, inSpans_iff, List.mem_cons, List.not_mem_nil, or_false, exists_eq_or_imp, exists_eq_left]

/-- The transforms of ENCODE write the records that DEQUANT writes. -/
theorem inSpans_footprint_encode {a : ℕ} : inSpans (footprint .encode).spans a = true ↔
    inSpans (outputsOf .cscFwd).spans a = true ∨ inSpans (outputsOf .dequant).spans a = true ∨
      inSpans (outputsOf .quant).spans a = true ∨ inSpans (outputsOf .pack).spans a = true := by
  have hluma : countAc 7 7 = 27 := by decide
  rw [footprint_encode, (mem_outputsOfAll (c := .L)).1, inSpans_dequant_iff_recordSpans, ← hluma, ← countAc_chroma,
    ← countAc_alpha]
  simp only [encodeUnits, List.mem_cons, List.not_mem_nil, or_false, exists_eq_or_imp, exists_eq_left, or_assoc]
  rfl

/-- The inverse transforms of DECODE write the planes that CSC_FWD writes. -/
theorem inSpans_footprint_decode {a : ℕ} : inSpans (footprint .decode).spans a = true ↔
    inSpans (outputsOf .unpack).spans a = true ∨ inSpans (outputsOf .dequant).spans a = true ∨
      inSpans (outputsOf .cscFwd).spans a = true ∨ inSpans (outputsOf .cscInv).spans a = true := by
  have hsize : inSpans (outputsOf .size).spans a = false := rfl
  rw [footprint_decode, (mem_outputsOfAll (c := .L)).1, inSpans_cscFwd_iff_planeSpan]
  simp only [decodeUnits, List.mem_cons, List.not_mem_nil, or_false, exists_eq_or_imp, exists_eq_left, or_assoc, hsize,
    Bool.false_eq_true, false_or]
  rfl

/-- Every record is an output of ENCODE's transforms and of DECODE's DEQUANT. -/
theorem mem_exts_encode (c : Channel) : c ∈ (footprint .encode).exts := by cases c <;> decide

theorem mem_exts_decode (c : Channel) : c ∈ (footprint .decode).exts := by cases c <;> decide

end Sys2Proof.Machine

namespace Sys2Proof

open Machine

/-- Settles O46: the spans of each footprint lie at the addresses of its stores, and every command keeps to them. -/
theorem commandsWriteOnlyTheirFootprint : Obligations.CommandsWriteOnlyTheirFootprint := by
  intro i hash nib record plane anyPlane pix records outputs extents
  have hrecords : ∀ a, inSpans (outputsOf .dequant).spans a = true ↔ records a := fun a =>
    inSpans_dequant_iff_recordSpans.trans (or_congr inSpans_recordSpans (or_congr inSpans_recordSpans
      (or_congr inSpans_recordSpans inSpans_recordSpans)))
  have hspans : ∀ a, inSpans (footprint i).spans a = true ↔ outputs a := by
    intro a
    cases i with
    | nop | size => exact iff_of_false Bool.false_ne_true id
    | encode =>
      exact inSpans_footprint_encode.trans
        (or_congr inSpans_cscFwd_iff_bounds (or_congr (hrecords a) (or_congr inSpans_nibbles inSpans_hash)))
    | decode =>
      exact inSpans_footprint_decode.trans
        (or_congr inSpans_nibbles (or_congr (hrecords a) (or_congr inSpans_cscFwd_iff_bounds inSpans_pixels)))
    | cscFwd => exact inSpans_cscFwd_iff_bounds
    | dctFwd c nx ny => exact inSpans_footprint_dctFwd
    | quant | unpack => exact inSpans_nibbles
    | pack => exact inSpans_hash
    | dequant => exact hrecords a
    | dctInv c => exact inSpans_planeSpan
    | cscInv => exact inSpans_pixels
  have hexts : ∀ c, c ∈ (footprint i).exts ↔ extents c := by
    intro c
    cases i with
    | encode => exact iff_of_true (mem_exts_encode c) trivial
    | decode => exact iff_of_true (mem_exts_decode c) trivial
    | dequant => exact iff_of_true (mem_exts_dequant c) trivial
    | dctFwd d nx ny => exact List.mem_singleton
    | _ => exact iff_of_false List.not_mem_nil id
  refine ⟨hspans, hexts, fun _ _ => State.pendingFootprint_of_decode, fun s t h => ⟨fun a ha => ?_, fun c hc => ?_⟩⟩
  · exact (exec_keepsOutside h).byte a (Bool.eq_false_iff.2 fun hin => ha ((hspans a).1 hin))
  · exact (exec_keepsOutside h).ext c fun hin => hc ((hexts c).1 hin)

end Sys2Proof
end
